-- ==== Sys2Proof/Word.lean ====
section
/-! DEFINITION. The word types of the HUFF block, with the widths of 00_scope.md rule R3, and the
shape of its sparse arrays. -/

namespace Sys2Proof

/-- A packed byte of the compressed stream (00_scope.md R2). -/
abbrev Byte := BitVec 8

/-- A register word (00_scope.md R3, `REG_W`). -/
abbrev Word := BitVec 32

/-- A symbol; every value is legal (00_scope.md R1). -/
abbrev Symbol := BitVec 8

/-- An index into the tree store; every value is legal (00_scope.md R3, `NODE_AW`). -/
abbrev NodeIndex := BitVec 9

/-- A node word (30_encoding.md R67). -/
abbrev NodeWord := BitVec 19

/-- A register index (10_state.md R10). -/
abbrev RegIndex := BitVec 6

/-- A bit sequence, its first bit first (00_scope.md section 6). A code-table entry is the bit
sequence of its code; the entry with `V = 0` is the empty one (30_encoding.md R68; log 8). -/
abbrev Code := List Bool

/-- A sparse array: index and value pairs, indices rising, no pair with the value an unlisted
index reads as (log 9). -/
abbrev Memory (α : Type) := List (Nat × α)

end Sys2Proof
end

