-- ==== Sys2Proof/Syntax.lean ====
section
/-! DEFINITION. The beats of the four channels and the instructions of the block: one constructor
for each row of spec/opcode_table.json. -/

namespace Sys2Proof

/-- A symbol beat, format SYMB (30_encoding.md R69). -/
structure SymBeat where
  eos : Bool
  sym : Symbol
  deriving DecidableEq, Repr

/-- A byte beat, format BYTB (30_encoding.md R70). -/
structure ByteBeat where
  last : Bool
  nvalid : BitVec 4
  data : Byte
  deriving DecidableEq, Repr

/-- What takes the place of an instruction (30_encoding.md R65): a command word, a register
access, the engine step a beat or the state selects, a datapath procedure, the reset event. -/
inductive Instr where
  -- format CMDW: the word written to CMD (30_encoding.md R72)
  /-- NOP (40_commands.md R86) -/
  | nop
  /-- TREE_CLEAR (R87) -/
  | treeClear
  /-- BUILD_TABLE (R88) -/
  | buildTable
  /-- ENC_START (R89) -/
  | encStart
  /-- DEC_START (R90) -/
  | decStart
  /-- ABORT (R91) -/
  | abort
  /-- ACK (R92) -/
  | ack
  /-- SOFT_RESET (R93) -/
  | softReset
  /-- CMD.ILLEGAL: any other word `v` (R85 check 1) -/
  | cmdIllegal (v : Word)
  -- format REGW: a register access (30_encoding.md R71)
  /-- REG_RD (R94) -/
  | regRd (idx : RegIndex)
  /-- REG_WR (R95) -/
  | regWr (idx : RegIndex) (v : Word)
  /-- REG_WR.CMD (R85) -/
  | regWrCmd (v : Word)
  /-- REG_WR.IE (10_state.md R20) -/
  | regWrIe (v : Word)
  /-- REG_WR.ROOT (R21, 20_memory.md R57) -/
  | regWrRoot (v : Word)
  /-- REG_WR.NODE_ADDR (R22) -/
  | regWrNodeAddr (v : Word)
  /-- REG_WR.NODE_DATA (R23, 20_memory.md R57) -/
  | regWrNodeData (v : Word)
  /-- REG_WR.CODE_SEL (R24) -/
  | regWrCodeSel (v : Word)
  -- format SYMB: the oldest beat of SYM_IN (30_encoding.md R73)
  /-- ENC_SYM (43_encoder.md R120) -/
  | encSym (sym : Symbol)
  /-- ENC_EOS; the field `sym` is ignored (R121) -/
  | encEos (sym : Symbol)
  -- format BYTB: the oldest beat of BYTE_IN (30_encoding.md R73)
  /-- DEC_FETCH.FULL: `LAST = 0`, the field NVALID is ignored (44_decoder.md R130) -/
  | decFetchFull (nvalid : BitVec 4) (data : Byte)
  /-- DEC_FETCH.FINAL: `LAST = 1`, NVALID 0 to 7 (R130) -/
  | decFetchFinal (nvalid : BitVec 3) (data : Byte)
  /-- DEC_FETCH.FINAL8: `LAST = 1`, NVALID 8 (R130) -/
  | decFetchFinal8 (data : Byte)
  /-- DEC_FETCH.BAD: `LAST = 1`, NVALID 9 to 15 (R130) -/
  | decFetchBad (nvalid : BitVec 4) (data : Byte)
  -- format STATE: selected by the state alone (30_encoding.md R73)
  /-- GEN_RUN (41_table_generator.md R100) -/
  | genRun
  /-- DEC_BIT (44_decoder.md R131) -/
  | decBit
  /-- DEC_FINISH (R132) -/
  | decFinish
  -- format PROC: called by steps, never selected by an agent (42_bitpack.md)
  /-- pack_reset (R110) -/
  | packReset
  /-- push_bit (R111) -/
  | pushBit (b : Bool)
  /-- pack_close (R112) -/
  | packClose
  /-- unpack_reset (R113) -/
  | unpackReset
  /-- unpack_load (R114) -/
  | unpackLoad (beat : ByteBeat)
  /-- pop_bit (R115) -/
  | popBit
  -- format EVENT
  /-- RESET: the `rst` input sampled high (70_reset_and_hazards.md R170) -/
  | reset
  deriving DecidableEq, Repr

end Sys2Proof
end

