-- ==== Sys2Proof/WellFormed.lean ====
section
/-! DEFINITION. Which terms of `Instr` stand for a row of spec/opcode_table.json: the conditions a
row puts on its operands beyond their widths. -/

namespace Sys2Proof

/-- The command words of 30_encoding.md R72: reserved bits 0 and an opcode up to 0x07. -/
def legalCommand (v : Word) : Bool := v.toNat ≤ 7

/-- The register indices that have a row of their own among the writes (40_commands.md R95). -/
def writableIndex (idx : RegIndex) : Bool :=
  idx == 0x01 || idx == 0x05 || idx == 0x06 || idx == 0x07 || idx == 0x08 || idx == 0x09

/-- Well-formed instructions: CMD.ILLEGAL carries a word that is no command, REG_WR an index
without a row of its own, DEC_FETCH.BAD a count above 8; every other row bounds its operands by
their widths alone. -/
def Instr.wellFormed : Instr → Bool
  | .cmdIllegal v => !legalCommand v
  | .regWr idx _ => !writableIndex idx
  | .decFetchBad nvalid _ => 8 < nvalid.toNat
  | .nop | .treeClear | .buildTable | .encStart | .decStart | .abort | .ack | .softReset => true
  | .regRd _ | .regWrCmd _ | .regWrIe _ | .regWrRoot _ | .regWrNodeAddr _ => true
  | .regWrNodeData _ | .regWrCodeSel _ => true
  | .encSym _ | .encEos _ => true
  | .decFetchFull _ _ | .decFetchFinal _ _ | .decFetchFinal8 _ => true
  | .genRun | .decBit | .decFinish => true
  | .packReset | .pushBit _ | .packClose | .unpackReset | .unpackLoad _ | .popBit => true
  | .reset => true

end Sys2Proof
end

