-- ==== Sys2Proof/Decode.lean ====
section
/-! DEFINITION. The formats of 30_encoding.md: from words to instructions and back. Which format a
word has is fixed by what carries it (R65), so a word comes with its carrier. -/

namespace Sys2Proof

/-- The four formats that select an operation (30_encoding.md R65, R71). -/
inductive Format where
  | cmdw | regw | symb | bytb
  deriving DecidableEq, Repr

/-- A word on its carrier: a command word; the pair `h_wr`, `h_idx` side by side and the data word
(30_encoding.md R71); a symbol beat; a byte beat. -/
inductive Wire where
  | cmdw (v : BitVec 32)
  | regw (di : BitVec 7) (data : BitVec 32)
  | symb (b : BitVec 9)
  | bytb (b : BitVec 13)
  deriving DecidableEq, Repr

/-- Why a byte string is no word of a format. -/
inductive DecodeReject where
  /-- fewer or more bytes than the format has -/
  | wrongLength
  /-- a bit above the format's width is 1 -/
  | strayBits
  deriving DecidableEq, Repr

/-! ### Beats as numbers (R69, R70) -/

/-- `EOS * 256 + SYM` (R69). -/
def SymBeat.toBits (b : SymBeat) : BitVec 9 := BitVec.ofBool b.eos ++ b.sym

/-- The fields of a symbol beat: bit 8, bits 7:0 (R69, R75). -/
def SymBeat.ofBits (w : BitVec 9) : SymBeat :=
  { eos := w.getLsbD 8, sym := w.extractLsb' 0 8 }

/-- `LAST * 4096 + NVALID * 256 + DATA` (R70). -/
def ByteBeat.toBits (b : ByteBeat) : BitVec 13 := BitVec.ofBool b.last ++ b.nvalid ++ b.data

/-- The fields of a byte beat: bit 12, bits 11:8, bits 7:0 (R70, R75). -/
def ByteBeat.ofBits (w : BitVec 13) : ByteBeat :=
  { last := w.getLsbD 12, nvalid := w.extractLsb' 8 4, data := w.extractLsb' 0 8 }

/-! ### From words to instructions -/

/-- The command of a word written to CMD (R66, R72, R74). -/
def decodeCmdw (v : BitVec 32) : Instr :=
  if v.extractLsb' 8 24 = 0 then
    match (v.extractLsb' 0 8).toNat with
    | 0x00 => .nop
    | 0x01 => .treeClear
    | 0x02 => .buildTable
    | 0x03 => .encStart
    | 0x04 => .decStart
    | 0x05 => .abort
    | 0x06 => .ack
    | 0x07 => .softReset
    | _ => .cmdIllegal v
  else .cmdIllegal v

/-- The register access of direction and index `di` (R71); the six writable targets have rows of
their own. The data word plays no part in a read. -/
def decodeRegw (di : BitVec 7) (data : BitVec 32) : Instr :=
  let idx := di.extractLsb' 0 6
  if di.getLsbD 6 then
    match idx.toNat with
    | 0x01 => .regWrCmd data
    | 0x05 => .regWrIe data
    | 0x06 => .regWrRoot data
    | 0x07 => .regWrNodeAddr data
    | 0x08 => .regWrNodeData data
    | 0x09 => .regWrCodeSel data
    | _ => .regWr idx data
  else .regRd idx

/-- The engine step a symbol beat of SYM_IN selects (R73). -/
def decodeSymb (w : BitVec 9) : Instr :=
  let b := SymBeat.ofBits w
  if b.eos then .encEos b.sym else .encSym b.sym

/-- The arm of DEC_FETCH a byte beat of BYTE_IN selects (R73), the rows tried in the order of
spec/opcode_table.json. -/
def decodeBytb (w : BitVec 13) : Instr :=
  let b := ByteBeat.ofBits w
  if !b.last then .decFetchFull b.nvalid b.data
  else if b.nvalid.toNat < 8 then .decFetchFinal (b.nvalid.extractLsb' 0 3) b.data
  else if b.nvalid.toNat = 8 then .decFetchFinal8 b.data
  else .decFetchBad b.nvalid b.data

/-- The instruction of a word on its carrier. It is total: every word of every format has a
meaning (R74). -/
def decodeWire : Wire → Instr
  | .cmdw v => decodeCmdw v
  | .regw di data => decodeRegw di data
  | .symb b => decodeSymb b
  | .bytb b => decodeBytb b

/-! ### From bytes to words (the byte layout is the model's own, log 10) -/

/-- Bytes of a word of each format: the width rounded up to whole bytes, and for a register access
the data word after the byte of direction and index. -/
def Format.bytes : Format → Nat
  | .cmdw => 4
  | .regw => 5
  | .symb => 2
  | .bytb => 2

/-- The number a byte string stands for, its first byte least significant. -/
def bytesToNat : List Byte → Nat
  | [] => 0
  | b :: bs => b.toNat + 256 * bytesToNat bs

/-- `n` bytes of a number, least significant first. -/
def natToBytes : Nat → Nat → List Byte
  | 0, _ => []
  | n + 1, w => BitVec.ofNat 8 w :: natToBytes n (w / 256)

/-- The word a byte string holds, or why it holds none. -/
def wireOfBytes (f : Format) (bs : List Byte) : Except DecodeReject Wire :=
  if bs.length ≠ f.bytes then .error .wrongLength
  else
    let n := bytesToNat bs
    match f with
    | .cmdw => .ok (.cmdw (BitVec.ofNat 32 n))
    | .regw =>
      if 128 ≤ n % 256 then .error .strayBits
      else .ok (.regw (BitVec.ofNat 7 n) (BitVec.ofNat 32 (n / 256)))
    | .symb => if 512 ≤ n then .error .strayBits else .ok (.symb (BitVec.ofNat 9 n))
    | .bytb => if 8192 ≤ n then .error .strayBits else .ok (.bytb (BitVec.ofNat 13 n))

/-- Decoding of any byte string, with a named rejection where it is no word of the format. -/
def decode (f : Format) (bs : List Byte) : Except DecodeReject Instr :=
  match wireOfBytes f bs with
  | .ok w => .ok (decodeWire w)
  | .error r => .error r

/-! ### The opcode table's words -/

/-- Which format a word of `nbits` bits of spec/opcode_table.json has (log 10). Symbol beats and
byte beats both fill two bytes: there a word below 0x200 is read as a symbol beat. -/
def tableFormat (nbits w : Nat) : Option Format :=
  if w < 2 ^ nbits then
    match nbits with
    | 7 | 8 | 39 | 40 => some .regw
    | 9 => some .symb
    | 13 => some .bytb
    | 16 => if w < 512 then some .symb else some .bytb
    | 32 => some .cmdw
    | _ => none
  else none

/-- The word on its carrier that `nbits` and `w` name, through its bytes, the bits above `nbits`
being 0. -/
def tableWire (nbits w : Nat) : Option Wire :=
  match tableFormat nbits w with
  | none => none
  | some f => (wireOfBytes f (natToBytes f.bytes w)).toOption

/-- The instruction the decoder reads from the bits `w` of a row of spec/opcode_table.json. -/
def decodeTableWord (nbits w : Nat) : Option Instr :=
  match tableFormat nbits w with
  | none => none
  | some f => (decode f (natToBytes f.bytes w)).toOption

/-! ### From instructions to words -/

/-- A register write as a word: `h_wr = 1` beside the index (R71). -/
def regwWrite (idx : RegIndex) (data : BitVec 32) : Wire := .regw (1#1 ++ idx) data

/-- A register read as a word: `h_wr = 0` beside the index (R71). -/
def regwRead (idx : RegIndex) : Wire := .regw (0#1 ++ idx) 0

/-- The word of a well-formed instruction; none for the rows that have no bits (formats STATE,
PROC, EVENT). -/
def encode : Instr → Option Wire
  | .nop => some (.cmdw 0x00000000)
  | .treeClear => some (.cmdw 0x00000001)
  | .buildTable => some (.cmdw 0x00000002)
  | .encStart => some (.cmdw 0x00000003)
  | .decStart => some (.cmdw 0x00000004)
  | .abort => some (.cmdw 0x00000005)
  | .ack => some (.cmdw 0x00000006)
  | .softReset => some (.cmdw 0x00000007)
  | .cmdIllegal v => some (.cmdw v)
  | .regRd idx => some (regwRead idx)
  | .regWr idx v => some (regwWrite idx v)
  | .regWrCmd v => some (regwWrite 0x01 v)
  | .regWrIe v => some (regwWrite 0x05 v)
  | .regWrRoot v => some (regwWrite 0x06 v)
  | .regWrNodeAddr v => some (regwWrite 0x07 v)
  | .regWrNodeData v => some (regwWrite 0x08 v)
  | .regWrCodeSel v => some (regwWrite 0x09 v)
  | .encSym sym => some (.symb (0#1 ++ sym))
  | .encEos sym => some (.symb (1#1 ++ sym))
  | .decFetchFull nvalid data => some (.bytb (0#1 ++ nvalid ++ data))
  | .decFetchFinal nvalid data => some (.bytb (2#2 ++ nvalid ++ data))
  | .decFetchFinal8 data => some (.bytb (0x18#5 ++ data))
  | .decFetchBad nvalid data => some (.bytb (1#1 ++ nvalid ++ data))
  | .genRun | .decBit | .decFinish => none
  | .packReset | .pushBit _ | .packClose | .unpackReset | .unpackLoad _ | .popBit => none
  | .reset => none

end Sys2Proof
end

