-- ==== Sys2Proof/Config.lean ====
section
/-! DEFINITION. What is fixed for the machine (00_scope.md R3, 10_state.md R11) and its one free
value (92_eei_decisions.md D36). -/

namespace Sys2Proof

/-- Entries of the tree store, `NNODE` (00_scope.md R3). -/
def Config.nNode : Nat := 512

/-- Number of symbols, `NSYM` (00_scope.md R1). -/
def Config.nSym : Nat := 256

/-- Longest code, in bits, `MAXLEN` (00_scope.md R3). -/
def Config.maxLen : Nat := 255

/-- What the ID register reads (10_state.md R11). -/
def Config.idValue : Word := 0x48554601

/-- FREE VALUE (70_reset_and_hazards.md R175, 92_eei_decisions.md D36; log 6): the word a read of
CODE_LEN or CODE_BITSk returns while `PHASE = GEN`, one value for each draw. Nothing is known of
it. -/
opaque Config.genWindowRead : Nat → Word

end Sys2Proof
end

