-- ==== Sys2Proof/Machine/State.lean ====
section
/-! DEFINITION. The state of the HUFF block (10_state.md), the stops of the model, and the state
right after reset. -/

namespace Sys2Proof.Machine

/-- The operation the engine performs, PHASE (10_state.md R14). -/
inductive Phase where
  | idle | gen | enc | dec
  deriving DecidableEq, Repr

/-- The causes of 60_exceptions.md R151. -/
inductive ErrorCode where
  | treeAbsent | treeShared | treeDupsym | treeDepth | noTree | noTable
  | lookupFailure
  | ioAbort | ioBadNvalid
  | truncated
  | illegalCmd | cmdBusy | cmdErrpend | writeLocked
  deriving DecidableEq, Repr

/-- The classes of 60_exceptions.md R152. -/
inductive ErrorClass where
  | invalidInput | lookupFailure | ioFailure | truncatedInput | protocol
  deriving DecidableEq, Repr

/-- A move of an agent (00_scope.md section 5), one line of a host script (30_encoding.md R76). A
producer's one move is to append a beat, as 70_reset_and_hazards.md R176 lists the steps. There is no
move that withdraws a waiting beat, which R171 and H7 mention: the model's choice (log 1). -/
inductive Move where
  /-- HOST, the line `CMD`: `regWrite(0x01, v)` -/
  | cmd (v : Word)
  /-- HOST, the line `WR`: `regWrite(idx, v)` -/
  | wr (idx : RegIndex) (v : Word)
  /-- HOST, the line `RD`: `regRead(idx)` -/
  | rd (idx : RegIndex)
  /-- SRC_SYM, the lines `SYM` and `EOS`: append a beat to SYM_IN -/
  | sym (b : SymBeat)
  /-- SRC_BYTE, the lines `BYTE` and `LASTBYTE`: append a beat to BYTE_IN -/
  | byte (b : ByteBeat)
  /-- ENGINE: one step, if one is enabled -/
  | engine
  /-- ENGINE, the line `RUN`: steps until none is enabled -/
  | run
  /-- RESET: the `rst` input sampled at this level; the line `RESET` is high, then low -/
  | rst (level : Bool)
  deriving DecidableEq, Repr

/-- The working state of one GEN_RUN (10_state.md R35): the nodes marked VISITED, the table
written so far, the running leaf count. -/
structure GenWork where
  visited : List NodeIndex
  table : Memory Code
  nleaf : BitVec 9
  deriving DecidableEq, Repr

/-- The state of the block and of its channels. Each field names its rule of 10_state.md. -/
structure State where
  /-- PHASE (R14) -/
  phase : Phase
  /-- DONE (R16) -/
  done : Bool
  /-- TREE_VALID (R17) -/
  treeValid : Bool
  /-- TABLE_VALID (R17) -/
  tableValid : Bool
  /-- ROOT_LEAF (R17) -/
  rootLeaf : Bool
  /-- ERR_CODE (R18) -/
  errCode : BitVec 8
  /-- ERR_MULTI (R18) -/
  errMulti : Bool
  /-- ERR_INFO (R19) -/
  errInfo : Word
  /-- DONE_IE (R20) -/
  doneIe : Bool
  /-- ERR_IE (R20) -/
  errIe : Bool
  /-- ROOT (R21) -/
  root : NodeIndex
  /-- NODE_ADDR (R22) -/
  nodeAddr : NodeIndex
  /-- CODE_SEL (R24) -/
  codeSel : Symbol
  /-- NLEAF (R27) -/
  nleaf : BitVec 9
  /-- ENC_SYMCNT (R28) -/
  encSymcnt : Word
  /-- ENC_BITCNT (R28) -/
  encBitcnt : Word
  /-- DEC_SYMCNT (R29) -/
  decSymcnt : Word
  /-- DEC_BITCNT (R29) -/
  decBitcnt : Word
  /-- the array NODE (R30); an unlisted entry is 0 -/
  node : Memory NodeWord
  /-- the array NVALID (R30); an unlisted entry is 0 -/
  nvalid : Memory Bool
  /-- the array TABLE (R31); an unlisted entry is `(V = 0, LEN = 0, BITS = all 0)` -/
  table : Memory Code
  /-- ACC (R32) -/
  acc : Byte
  /-- NB (R32) -/
  nb : BitVec 3
  /-- SHR (R33) -/
  shr : Byte
  /-- REM (R33) -/
  rem : BitVec 4
  /-- ENDSEEN (R33) -/
  endseen : Bool
  /-- CUR (R34) -/
  cur : NodeIndex
  /-- the queue SYM_IN (R40), oldest beat first -/
  symIn : List SymBeat
  /-- the queue BYTE_IN (R42), oldest beat first -/
  byteIn : List ByteBeat
  /-- the trace of BYTE_OUT (R41), in the order emitted -/
  byteOut : List ByteBeat
  /-- the trace of SYM_OUT (R43), in the order emitted -/
  symOut : List SymBeat
  /-- the word `h_rdata` of the latest register read (R39; log 4) -/
  hRdata : Word
  /-- the level of the input `rst` (R39; log 5) -/
  rst : Bool
  /-- the model's own: the moves still to be made, oldest first (log 1) -/
  script : List Move
  /-- the model's own: draws made so far from `Config.genWindowRead` (log 6) -/
  draws : Nat
  deriving DecidableEq, Repr

/-- The one way a run stops. -/
inductive Fault where
  /-- Raised by `step` alone: no move is left in the script, no engine step is enabled and PHASE is
  not IDLE, so the pass waits for a beat that will not come (70_reset_and_hazards.md R179). Safe:
  the block would wait for ever, and a stuck run must not count as an end. -/
  | stuck
  deriving DecidableEq, Repr

/-- Reasons an instruction is refused. -/
inductive Refusal where
  /-- Raised by an arm of `exec` whose instruction has no meaning yet; no arm is left so. Safe. -/
  | notModelled (mnemonic : String)
  deriving DecidableEq, Repr

/-- The block right after reset (10_state.md section 10) with all channels empty (log 16), the
`rst` input low (log 5) and no move to make (log 1). -/
def State.reset : State :=
  { phase := .idle, done := false
    treeValid := false, tableValid := false, rootLeaf := false
    errCode := 0, errMulti := false, errInfo := 0
    doneIe := false, errIe := false
    root := 0, nodeAddr := 0, codeSel := 0, nleaf := 0
    encSymcnt := 0, encBitcnt := 0, decSymcnt := 0, decBitcnt := 0
    node := [], nvalid := [], table := []
    acc := 0, nb := 0, shr := 0, rem := 0, endseen := false, cur := 0
    symIn := [], byteIn := [], byteOut := [], symOut := []
    hRdata := 0, rst := false, script := [], draws := 0 }

end Sys2Proof.Machine
end

