-- ==== Sys2Proof/Machine/Operands.lean ====
section
/-! DEFINITION. Every field extraction of the block (30_encoding.md R75), bit positions inside a
byte (20_memory.md R51) and the words of the code windows (10_state.md R25, R26). -/

namespace Sys2Proof.Machine

/-! ### Node words (30_encoding.md R67) -/

/-- `leaf(w) = w[18]` -/
def nodeLeaf (w : NodeWord) : Bool := w.getLsbD 18

/-- `sym(w) = w[7:0]` -/
def nodeSym (w : NodeWord) : Symbol := w.extractLsb' 0 8

/-- `left(w) = w[17:9]`: the child reached on bit 0 -/
def nodeLeft (w : NodeWord) : NodeIndex := w.extractLsb' 9 9

/-- `right(w) = w[8:0]`: the child reached on bit 1 -/
def nodeRight (w : NodeWord) : NodeIndex := w.extractLsb' 0 9

/-- The child reached on a bit: left = 0, right = 1 (44_decoder.md R131 corner (a)). -/
def nodeChild (w : NodeWord) (b : Bool) : NodeIndex := if b then nodeRight w else nodeLeft w

/-! ### Written words (10_state.md R20 to R24) -/

/-- `v[8:0]`, the field of ROOT and NODE_ADDR -/
def wordIndex (v : Word) : NodeIndex := v.extractLsb' 0 9

/-- `v[18:0]`, the node word a NODE_DATA write stores -/
def wordNode (v : Word) : NodeWord := v.extractLsb' 0 19

/-- `v[7:0]`, the field of CODE_SEL -/
def wordSymbol (v : Word) : Symbol := v.extractLsb' 0 8

/-! ### Read words -/

/-- A NODE_DATA read: the valid bit in bit 31, the node word in 18:0, all 0 for an entry that is
not valid (10_state.md R23). -/
def nodeDataWord (valid : Bool) (w : NodeWord) : Word :=
  if valid then 1#1 ++ 0#12 ++ w else 0

/-- The bit `BITS(i)` of an entry: 0 from position `LEN` on (30_encoding.md R68). -/
def codeBit (c : Code) (i : Nat) : Bool := c.getD i false

/-- `V` of an entry (30_encoding.md R68; log 8). -/
def codeV (c : Code) : Bool := !c.isEmpty

/-- `LEN` of an entry (30_encoding.md R68). -/
def codeLen (c : Code) : BitVec 8 := BitVec.ofNat 8 c.length

/-- A CODE_LEN read: `V` in bit 31, `LEN` in 7:0 (10_state.md R25). -/
def codeLenWord (c : Code) : Word := BitVec.ofBool (codeV c) ++ 0#23 ++ codeLen c

/-- A word from a rule for each of its bits, bit number to bit. -/
def wordOfBits (n : Nat) (f : Nat → Bool) : BitVec n :=
  match n with
  | 0 => 0#0
  | k + 1 => BitVec.cons (f k) (wordOfBits k f)

/-- A CODE_BITSk read: code bit `32 * k + j` in bit `31 - j` (10_state.md R26). -/
def codeBitsWord (k : Nat) (c : Code) : Word :=
  wordOfBits 32 fun i => codeBit c (32 * k + (31 - i))

/-! ### Bits of a byte (20_memory.md R51) -/

/-- `x` with bit `i` set to `b`, the other bits as they were. -/
def setBit (x : Byte) (i : Nat) (b : Bool) : Byte :=
  wordOfBits 8 fun j => if j = i then b else x.getLsbD j

end Sys2Proof.Machine
end

