-- ==== Sys2Proof/Machine/Flags.lean ====
section
/-! DEFINITION. Codes, derived bits and output levels: the error codes and classes
(60_exceptions.md R151, R152), BUSY, ERRPEND and `irq` (10_state.md R13, R14, R37), the words of
STATUS, ERR and IE, the ready outputs of the input channels (R40, R42), and the source of bits'
three conditions (42_bitpack.md R116). -/

namespace Sys2Proof.Machine

/-- The code recorded in ERR_CODE (60_exceptions.md R151). -/
def ErrorCode.code : ErrorCode → BitVec 8
  | .treeAbsent => 0x11
  | .treeShared => 0x12
  | .treeDupsym => 0x13
  | .treeDepth => 0x14
  | .noTree => 0x15
  | .noTable => 0x16
  | .lookupFailure => 0x20
  | .ioAbort => 0x30
  | .ioBadNvalid => 0x31
  | .truncated => 0x40
  | .illegalCmd => 0x50
  | .cmdBusy => 0x51
  | .cmdErrpend => 0x52
  | .writeLocked => 0x53

/-- The class of a recorded code: its high nibble (60_exceptions.md R152). -/
def errorClass (code : BitVec 8) : Option ErrorClass :=
  match (code.extractLsb' 4 4).toNat with
  | 1 => some .invalidInput
  | 2 => some .lookupFailure
  | 3 => some .ioFailure
  | 4 => some .truncatedInput
  | 5 => some .protocol
  | _ => none

/-- PHASE as its two bits (10_state.md R14). -/
def Phase.bits : Phase → BitVec 2
  | .idle => 0
  | .gen => 1
  | .enc => 2
  | .dec => 3

/-- BUSY (10_state.md R14). -/
def busy (s : State) : Bool := s.phase.bits != 0

/-- ERRPEND (10_state.md R13). -/
def errpend (s : State) : Bool := s.errCode != 0

/-- The level of the output `irq` (10_state.md R37). -/
def irq (s : State) : Bool := (s.done && s.doneIe) || (errpend s && s.errIe)

/-- The output `si_ready` (10_state.md R40): symbol beats are taken only in an encoding pass. -/
def siReady (s : State) : Bool := s.phase == .enc

/-- The output `bi_ready` (10_state.md R42, 44_decoder.md R135). -/
def biReady (s : State) : Bool := s.phase == .dec && s.rem == 0 && !s.endseen

/-- What STATUS reads (10_state.md R13). -/
def statusWord (s : State) : Word :=
  0#23 ++ BitVec.ofBool (irq s) ++ BitVec.ofBool (errpend s) ++ BitVec.ofBool s.done
    ++ BitVec.ofBool s.rootLeaf ++ BitVec.ofBool s.tableValid ++ BitVec.ofBool s.treeValid
    ++ s.phase.bits ++ BitVec.ofBool (busy s)

/-- What ERR reads (10_state.md R18). -/
def errWord (s : State) : Word := BitVec.ofBool s.errMulti ++ 0#23 ++ s.errCode

/-- What IE reads (10_state.md R20). -/
def ieWord (s : State) : Word := 0#30 ++ BitVec.ofBool s.errIe ++ BitVec.ofBool s.doneIe

/-- The bit source has a bit (42_bitpack.md R116). -/
def hasBit (s : State) : Bool := s.rem != 0

/-- The bit source needs a byte (42_bitpack.md R116). -/
def needsByte (s : State) : Bool := s.rem == 0 && !s.endseen

/-- The bit source is exhausted (42_bitpack.md R116). -/
def exhausted (s : State) : Bool := s.rem == 0 && s.endseen

end Sys2Proof.Machine
end

