-- ==== Sys2Proof/Machine/Ops.lean ====
section
/-! DEFINITION. The shared operations: sparse arrays, the tree store and the code table, recording
an error and the return from it, `tree_invalidate`, the channels, the bit packer and unpacker, the
reset event. -/

namespace Sys2Proof.Machine

/-! ### Sparse arrays (log 9) -/

/-- The value at an index: that of its pair, `dflt` where there is none. -/
def Memory.get {α : Type} (dflt : α) : Memory α → Nat → α
  | [], _ => dflt
  | (k, v) :: m, a => if k = a then v else Memory.get dflt m a

/-- The array with `v` at index `a`. Writing `dflt` removes the pair. -/
def Memory.set {α : Type} [DecidableEq α] (dflt : α) : Memory α → Nat → α → Memory α
  | [], a, v => if v = dflt then [] else [(a, v)]
  | (k, x) :: m, a, v =>
    if a < k then (if v = dflt then (k, x) :: m else (a, v) :: (k, x) :: m)
    else if a = k then (if v = dflt then m else (a, v) :: m)
    else (k, x) :: Memory.set dflt m a v

/-- The canonical form of an array of `size` entries: indices rising and below `size`, no pair
with the value an unlisted index reads as. -/
abbrev Memory.wf {α : Type} [DecidableEq α] (size : Nat) (dflt : α) (m : Memory α) : Prop :=
  m.Pairwise (fun x y => x.1 < y.1) ∧ ∀ c ∈ m, c.1 < size ∧ c.2 ≠ dflt

/-! ### The tree store and the code table (10_state.md R30, R31) -/

/-- `NODE[n]` -/
def State.nodeAt (s : State) (n : NodeIndex) : NodeWord := Memory.get 0 s.node n.toNat

/-- `NVALID[n]` -/
def State.nvalidAt (s : State) (n : NodeIndex) : Bool := Memory.get false s.nvalid n.toNat

/-- `TABLE[c]`, as the bits of its code -/
def State.codeAt (s : State) (c : Symbol) : Code := Memory.get [] s.table c.toNat

/-- `MemWrite(TREE, n, w)` (00_scope.md section 7): `NODE[n] <- w; NVALID[n] <- 1` -/
def writeNode (n : NodeIndex) (w : NodeWord) (s : State) : State :=
  { s with node := Memory.set 0 s.node n.toNat w,
           nvalid := Memory.set false s.nvalid n.toNat true }

/-- `tree_invalidate()` (10_state.md R38) -/
def treeInvalidate (s : State) : State :=
  { s with treeValid := false, tableValid := false, rootLeaf := false, nleaf := 0, table := [] }

/-! ### Errors -/

/-- `raise CODE(info)` (60_exceptions.md R150): the first error is kept, a later one only sets
ERR_MULTI. Nothing else is part of it. -/
def raise (c : ErrorCode) (info : Word) (s : State) : State :=
  { s with errCode := if s.errCode = 0 then c.code else s.errCode,
           errInfo := if s.errCode = 0 then info else s.errInfo,
           errMulti := if s.errCode = 0 then s.errMulti else true }

/-- The return from an error (60_exceptions.md R155): ACK's effect (40_commands.md R92). -/
def ackError (s : State) : State :=
  { s with done := false, errCode := 0, errMulti := false, errInfo := 0 }

/-! ### Channels (10_state.md R40 to R43) -/

/-- `emit BYTE_OUT(b)` -/
def emitByte (b : ByteBeat) (s : State) : State := { s with byteOut := s.byteOut ++ [b] }

/-- `emit SYM_OUT(b)` -/
def emitSym (b : SymBeat) (s : State) : State := { s with symOut := s.symOut ++ [b] }

/-- The end mark, driven with SYM = 0 (30_encoding.md R69). -/
def endMark : SymBeat := { eos := true, sym := 0 }

/-- `take SYM_IN`: the oldest beat removed -/
def takeSym (s : State) : State := { s with symIn := s.symIn.tail }

/-- `take BYTE_IN`: the oldest beat removed -/
def takeByte (s : State) : State := { s with byteIn := s.byteIn.tail }

/-- A producer appends a beat to SYM_IN (R40). -/
def appendSym (b : SymBeat) (s : State) : State := { s with symIn := s.symIn ++ [b] }

/-- A producer appends a beat to BYTE_IN (R42). -/
def appendByte (b : ByteBeat) (s : State) : State := { s with byteIn := s.byteIn ++ [b] }

/-! ### Bit packer (42_bitpack.md R110 to R112) -/

/-- `pack_reset()` (R110) -/
def packReset (s : State) : State := { s with acc := 0, nb := 0 }

/-- `push_bit(b)` (R111) -/
def pushBit (b : Bool) (s : State) : State :=
  let acc := setBit s.acc (7 - s.nb.toNat) b
  let s := { s with encBitcnt := s.encBitcnt + 1 }
  if s.nb = 7 then
    packReset (emitByte { last := false, nvalid := 8, data := acc } s)
  else { s with acc := acc, nb := s.nb + 1 }

/-- `push_bit` for each bit of a sequence, first bit first (43_encoder.md R120). -/
def pushBits (w : List Bool) (s : State) : State := w.foldl (fun s b => pushBit b s) s

/-- `pack_close()` (R112) -/
def packClose (s : State) : State :=
  packReset (emitByte { last := true, nvalid := s.nb.setWidth 4, data := s.acc } s)

/-! ### Bit unpacker (42_bitpack.md R113 to R115) -/

/-- `unpack_reset()` (R113) -/
def unpackReset (s : State) : State := { s with shr := 0, rem := 0, endseen := false }

/-- `unpack_load(beat)` (R114): whether the beat is `ok`, and the state after. -/
def unpackLoad (b : ByteBeat) (s : State) : Bool × State :=
  if !b.last then (true, { s with shr := b.data, rem := 8 })
  else if b.nvalid.toNat ≤ 8 then
    (true, { s with shr := b.data, rem := b.nvalid, endseen := true })
  else (false, s)

/-- `pop_bit()` (R115): the bit returned, and the state after. Called only when `REM > 0`. -/
def popBit (s : State) : Bool × State :=
  (s.shr.getLsbD 7,
   { s with shr := s.shr <<< 1, rem := s.rem - 1, decBitcnt := s.decBitcnt + 1 })

/-! ### Reset (70_reset_and_hazards.md R170) -/

/-- The reset event: every element of the block's state takes its reset value. The queues, the
traces and what belongs to the environment are not touched (10_state.md R40 to R43). -/
def resetEvent (s : State) : State :=
  { s with phase := .idle, done := false
           treeValid := false, tableValid := false, rootLeaf := false
           errCode := 0, errMulti := false, errInfo := 0
           doneIe := false, errIe := false
           root := 0, nodeAddr := 0, codeSel := 0, nleaf := 0
           encSymcnt := 0, encBitcnt := 0, decSymcnt := 0, decBitcnt := 0
           node := [], nvalid := [], table := []
           acc := 0, nb := 0, shr := 0, rem := 0, endseen := false, cur := 0 }

end Sys2Proof.Machine
end

