-- ==== Sys2Proof/Machine/Decoder.lean ====
section
/-! DEFINITION. Family BYTB and the decoder's state-selected steps: DEC_FETCH, DEC_BIT, DEC_FINISH
(44_decoder.md R130 to R135). -/

namespace Sys2Proof.Machine

open Host (Outcome)

/-- The decoder may take the beat `b`: `PHASE = DEC`, the source needs a byte, and `b` is the
oldest beat of BYTE_IN (R130, R135). -/
def byteReady (b : ByteBeat) (s : State) : Bool := biReady s && s.byteIn.head? == some b

/-- How every ending of a decoding pass leaves the output, the unpacker and CUR: the end mark
emitted, `unpack_reset()`, `CUR <- ROOT` (R130, R132). -/
def closeDecoder (s : State) : State :=
  { unpackReset (emitSym endMark s) with cur := s.root }

/-- DEC_FETCH's rule for the beat `b` (R130). -/
def fetchByte (b : ByteBeat) (s : State) : State :=
  let r := unpackLoad b (takeByte s)
  if r.1 then r.2
  else { raise .ioBadNvalid (b.nvalid.setWidth 32) (closeDecoder r.2) with phase := .idle }

/-- A symbol emitted, counted, and the walk back at the root (R131). -/
def emitSymbol (c : Symbol) (s : State) : State :=
  { emitSym { eos := false, sym := c } s with decSymcnt := s.decSymcnt + 1, cur := s.root }

/-- DEC_BIT's rule (R131, R134). -/
def decodeBit (s : State) : State :=
  let r := popBit s
  let s := r.2
  let rw := s.nodeAt s.root
  if nodeLeaf rw then emitSymbol (nodeSym rw) s
  else
    let nxt := nodeChild (s.nodeAt s.cur) r.1
    let nw := s.nodeAt nxt
    if nodeLeaf nw then emitSymbol (nodeSym nw) s
    else { s with cur := nxt }

/-- DEC_FINISH's rule (R132). -/
def decodeEnd (s : State) : State :=
  let s := if s.cur ≠ s.root then raise .truncated (s.cur.setWidth 32) s
           else { s with done := true }
  { closeDecoder s with phase := .idle }

/-! ### Meanings -/

/-- DEC_FETCH.FULL (R130); where it is not enabled the decoder waits (R135; log 3). -/
def execDecFetchFull (nvalid : BitVec 4) (data : Byte) (s : State) :
    Outcome State Fault Refusal :=
  let b : ByteBeat := { last := false, nvalid := nvalid, data := data }
  if byteReady b s then .next (fetchByte b s) else .next s

/-- DEC_FETCH.FINAL (R130); where it is not enabled the decoder waits (R135; log 3). -/
def execDecFetchFinal (nvalid : BitVec 3) (data : Byte) (s : State) :
    Outcome State Fault Refusal :=
  let b : ByteBeat := { last := true, nvalid := nvalid.setWidth 4, data := data }
  if byteReady b s then .next (fetchByte b s) else .next s

/-- DEC_FETCH.FINAL8 (R130); where it is not enabled the decoder waits (R135; log 3). -/
def execDecFetchFinal8 (data : Byte) (s : State) : Outcome State Fault Refusal :=
  let b : ByteBeat := { last := true, nvalid := 8, data := data }
  if byteReady b s then .next (fetchByte b s) else .next s

/-- DEC_FETCH.BAD (R130); where it is not enabled the decoder waits (R135; log 3). -/
def execDecFetchBad (nvalid : BitVec 4) (data : Byte) (s : State) :
    Outcome State Fault Refusal :=
  let b : ByteBeat := { last := true, nvalid := nvalid, data := data }
  if byteReady b s then .next (fetchByte b s) else .next s

/-- DEC_BIT (R131): enabled when `PHASE = DEC` and `REM > 0`; else nothing happens (log 3). -/
def execDecBit (s : State) : Outcome State Fault Refusal :=
  if s.phase == .dec && hasBit s then .next (decodeBit s) else .next s

/-- DEC_FINISH (R132): enabled when `PHASE = DEC`, `REM = 0` and `ENDSEEN = 1`; else nothing
happens (log 3). -/
def execDecFinish (s : State) : Outcome State Fault Refusal :=
  if s.phase == .dec && exhausted s then .next (decodeEnd s) else .next s

end Sys2Proof.Machine
end

