-- ==== Sys2Proof/Machine/Encoder.lean ====
section
/-! DEFINITION. Family SYMB: the encoder's steps ENC_SYM and ENC_EOS (43_encoder.md R120 to
R122). -/

namespace Sys2Proof.Machine

open Host (Outcome)

/-- The encoder may take the beat `b`: `PHASE = ENC` and `b` is the oldest beat of SYM_IN
(R122). -/
def symReady (b : SymBeat) (s : State) : Bool := s.phase == .enc && s.symIn.head? == some b

/-- ENC_SYM's rule for the symbol `c` (R120): push the bits of its code, or close the stream and
raise LOOKUP_FAILURE. -/
def encodeSymbol (c : Symbol) (s : State) : State :=
  let s := takeSym s
  let e := s.codeAt c
  if codeV e then
    let s := pushBits e s
    { s with encSymcnt := s.encSymcnt + 1 }
  else { raise .lookupFailure (c.setWidth 32) (packClose s) with phase := .idle }

/-- ENC_EOS's rule (R121). -/
def encodeEnd (s : State) : State :=
  { packClose (takeSym s) with done := true, phase := .idle }

/-! ### Meanings -/

/-- ENC_SYM (R120); where it is not enabled the encoder waits (R122; log 3). -/
def execEncSym (c : Symbol) (s : State) : Outcome State Fault Refusal :=
  if symReady { eos := false, sym := c } s then .next (encodeSymbol c s) else .next s

/-- ENC_EOS (R121), the field `c` ignored; where it is not enabled the encoder waits (R122;
log 3). -/
def execEncEos (c : Symbol) (s : State) : Outcome State Fault Refusal :=
  if symReady { eos := true, sym := c } s then .next (encodeEnd s) else .next s

end Sys2Proof.Machine
end

