-- ==== Sys2Proof/Machine/Generator.lean ====
section
/-! DEFINITION. The code-table generator GEN_RUN and its procedure `visit`
(41_table_generator.md R100 to R104). -/

namespace Sys2Proof.Machine

open Host (Outcome)

/-- The `info` word of TREE_ABSENT, TREE_SHARED and TREE_DEPTH: the node in 8:0 (R101). -/
def nodeInfo (n : NodeIndex) : Word := n.setWidth 32

/-- The `info` word of TREE_DUPSYM: the node in 8:0, the symbol in 23:16 (R101). -/
def dupsymInfo (n : NodeIndex) (c : Symbol) : Word := 0#8 ++ c ++ 0#7 ++ n

/-- What `visit` returns: the work done, or the first error met with its `info`. -/
abbrev VisitResult := Except (ErrorCode × Word) GenWork

/-- The code recorded for a leaf reached by the path `p`: the path itself, and "0" for the root
(R101 test 4, R102). -/
def leafCode (p : Code) : Code := if p = [] then [false] else p

/-- Test 4 of R101 at a leaf `n` of symbol `c`: a second leaf of one symbol fails, else the code
is recorded and the leaf counted. -/
def visitLeaf (n : NodeIndex) (c : Symbol) (p : Code) (g : GenWork) : VisitResult :=
  if Memory.get [] g.table c.toNat ≠ [] then .error (.treeDupsym, dupsymInfo n c)
  else .ok { g with table := Memory.set [] g.table c.toNat (leafCode p), nleaf := g.nleaf + 1 }

/-- `visit(n, d, p)` (R101), its tests in their order. `room = 255 - d` is how many levels may lie
below: no room at an internal node is test 5, `d = 255`. -/
def visit (node : Memory NodeWord) (nvalid : Memory Bool) (room : Nat) (n : NodeIndex) (p : Code)
    (g : GenWork) : VisitResult :=
  if Memory.get false nvalid n.toNat = false then .error (.treeAbsent, nodeInfo n)
  else if n ∈ g.visited then .error (.treeShared, nodeInfo n)
  else
    let w := Memory.get 0 node n.toNat
    let g1 : GenWork := { g with visited := n :: g.visited }
    if nodeLeaf w then visitLeaf n (nodeSym w) p g1
    else
      match room with
      | 0 => .error (.treeDepth, nodeInfo n)
      | r + 1 =>
        match visit node nvalid r (nodeLeft w) (p ++ [false]) g1 with
        | .error e => .error e
        | .ok g2 => visit node nvalid r (nodeRight w) (p ++ [true]) g2

/-- The traversal GEN_RUN makes: from the root, at depth 0 with the empty path (R100). -/
def visitRoot (s : State) : VisitResult :=
  visit s.node s.nvalid 255 s.root [] { visited := [], table := s.table, nleaf := 0 }

/-- The commit of R103. -/
def genCommit (g : GenWork) (s : State) : State :=
  { s with table := g.table, nleaf := g.nleaf, treeValid := true, tableValid := true,
           rootLeaf := nodeLeaf (s.nodeAt s.root), done := true }

/-- The failure of R104. -/
def genFail (e : ErrorCode × Word) (s : State) : State := raise e.1 e.2 (treeInvalidate s)

/-- GEN_RUN's rule (R100). -/
def genRun (s : State) : State :=
  match visitRoot s with
  | .ok g => { genCommit g s with phase := .idle }
  | .error e => { genFail e s with phase := .idle }

/-! ### Meaning -/

/-- GEN_RUN (R100): enabled when `PHASE = GEN`; where it is not, nothing happens (log 3). -/
def execGenRun (s : State) : Outcome State Fault Refusal :=
  if s.phase = .gen then .next (genRun s) else .next s

end Sys2Proof.Machine
end

