-- ==== Sys2Proof/Machine/Procedures.lean ====
section
/-! DEFINITION. Families PROC and EVENT: the datapath procedures as rows of their own
(42_bitpack.md R110 to R115; log 11) and the reset event (70_reset_and_hazards.md R170). -/

namespace Sys2Proof.Machine

open Host (Outcome)

/-- pack_reset (R110) -/
def execPackReset (s : State) : Outcome State Fault Refusal := .next (packReset s)

/-- push_bit (R111) -/
def execPushBit (b : Bool) (s : State) : Outcome State Fault Refusal := .next (pushBit b s)

/-- pack_close (R112) -/
def execPackClose (s : State) : Outcome State Fault Refusal := .next (packClose s)

/-- unpack_reset (R113) -/
def execUnpackReset (s : State) : Outcome State Fault Refusal := .next (unpackReset s)

/-- unpack_load (R114); whether the beat is `ok` goes to the caller, DEC_FETCH (log 11) -/
def execUnpackLoad (b : ByteBeat) (s : State) : Outcome State Fault Refusal :=
  .next (unpackLoad b s).2

/-- pop_bit (R115); the bit goes to the caller, DEC_BIT. With `REM = 0` it is never called and
nothing happens (log 11). -/
def execPopBit (s : State) : Outcome State Fault Refusal :=
  if hasBit s then .next (popBit s).2 else .next s

/-- RESET (R170) -/
def execReset (s : State) : Outcome State Fault Refusal := .next (resetEvent s)

end Sys2Proof.Machine
end

