-- ==== Sys2Proof/Machine/Commands.lean ====
section
/-! DEFINITION. Family CMDW: the eight host commands and the illegal command word
(40_commands.md R85 to R93). -/

namespace Sys2Proof.Machine

open Host (Outcome)

/-- Checks 3 and 4 of 40_commands.md R85 for a command with opcode `op`: busy, then (for the
three start commands) an error pending. `go` is the command's own rule. -/
def commandChecks (op : Word) (start : Bool) (go : State → State) (s : State) : State :=
  if busy s then raise .cmdBusy op s
  else if start && errpend s then raise .cmdErrpend op s
  else go s

/-- NOP's rule (R86) -/
def ruleNop (s : State) : State := s

/-- TREE_CLEAR's rule (R87) -/
def ruleTreeClear (s : State) : State := treeInvalidate { s with nvalid := [], root := 0 }

/-- BUILD_TABLE's rule (R88) -/
def ruleBuildTable (s : State) : State :=
  { treeInvalidate { s with done := false } with phase := .gen }

/-- ENC_START's rule (R89), after check 5 of R85 -/
def ruleEncStart (s : State) : State :=
  if !s.tableValid then raise .noTable 0 s
  else { packReset { s with done := false, encSymcnt := 0, encBitcnt := 0 } with phase := .enc }

/-- DEC_START's rule (R90), after check 5 of R85 -/
def ruleDecStart (s : State) : State :=
  if !s.treeValid then raise .noTree 0 s
  else { unpackReset { s with done := false, decSymcnt := 0, decBitcnt := 0 } with
         cur := s.root, phase := .dec }

/-- ABORT's rule (R91) -/
def ruleAbort (s : State) : State :=
  match s.phase with
  | .idle => s
  | .gen => { raise .ioAbort 1 (treeInvalidate s) with phase := .idle }
  | .enc => { raise .ioAbort 2 (packClose s) with phase := .idle }
  | .dec => { raise .ioAbort 3 { unpackReset (emitSym endMark s) with cur := s.root } with
              phase := .idle }

/-- TREE_CLEAR with its checks -/
def cmdTreeClear (s : State) : State := commandChecks 0x01 false ruleTreeClear s

/-- BUILD_TABLE with its checks -/
def cmdBuildTable (s : State) : State := commandChecks 0x02 true ruleBuildTable s

/-- ENC_START with its checks -/
def cmdEncStart (s : State) : State := commandChecks 0x03 true ruleEncStart s

/-- DEC_START with its checks -/
def cmdDecStart (s : State) : State := commandChecks 0x04 true ruleDecStart s

/-- A write of `v` to CMD: decoded and checked in the order of R85. -/
def commandWrite (v : Word) (s : State) : State :=
  if v.extractLsb' 8 24 ≠ 0 ∨ 0x07 < (v.extractLsb' 0 8).toNat then raise .illegalCmd v s
  else
    match (v.extractLsb' 0 8).toNat with
    | 0x00 => ruleNop s
    | 0x01 => cmdTreeClear s
    | 0x02 => cmdBuildTable s
    | 0x03 => cmdEncStart s
    | 0x04 => cmdDecStart s
    | 0x05 => ruleAbort s
    | 0x06 => ackError s
    | _ => resetEvent s

/-! ### Meanings -/

/-- NOP (R86) -/
def execNop (s : State) : Outcome State Fault Refusal := .next (ruleNop s)

/-- TREE_CLEAR (R85, R87) -/
def execTreeClear (s : State) : Outcome State Fault Refusal := .next (cmdTreeClear s)

/-- BUILD_TABLE (R85, R88) -/
def execBuildTable (s : State) : Outcome State Fault Refusal := .next (cmdBuildTable s)

/-- ENC_START (R85, R89) -/
def execEncStart (s : State) : Outcome State Fault Refusal := .next (cmdEncStart s)

/-- DEC_START (R85, R90) -/
def execDecStart (s : State) : Outcome State Fault Refusal := .next (cmdDecStart s)

/-- ABORT (R91) -/
def execAbort (s : State) : Outcome State Fault Refusal := .next (ruleAbort s)

/-- ACK (R92) -/
def execAck (s : State) : Outcome State Fault Refusal := .next (ackError s)

/-- SOFT_RESET (R93) -/
def execSoftReset (s : State) : Outcome State Fault Refusal := .next (resetEvent s)

/-- CMD.ILLEGAL (R85 check 1) -/
def execCmdIllegal (v : Word) (s : State) : Outcome State Fault Refusal :=
  .next (raise .illegalCmd v s)

end Sys2Proof.Machine
end

