-- ==== Sys2Proof/Machine/Registers.lean ====
section
/-! DEFINITION. Family REGW: register reads and writes (10_state.md section 5, 40_commands.md R94,
R95, 20_memory.md R57). -/

namespace Sys2Proof.Machine

open Host (Outcome)

/-- The registers whose value is unspecified while `PHASE = GEN`: CODE_LEN and CODE_BITS0 to
CODE_BITS7 (70_reset_and_hazards.md R175). -/
def codeWindow (idx : RegIndex) : Bool :=
  idx.toNat == 0x0A || (0x10 ≤ idx.toNat && idx.toNat ≤ 0x17)

/-- The word the rule of a register gives (10_state.md R44); 0 for an unmapped index (R36). The
code windows are given as they read when `PHASE != GEN`. -/
def registerWord (idx : RegIndex) (s : State) : Word :=
  match idx.toNat with
  | 0x00 => Config.idValue
  | 0x01 => 0
  | 0x02 => statusWord s
  | 0x03 => errWord s
  | 0x04 => s.errInfo
  | 0x05 => ieWord s
  | 0x06 => s.root.setWidth 32
  | 0x07 => s.nodeAddr.setWidth 32
  | 0x08 => nodeDataWord (s.nvalidAt s.nodeAddr) (s.nodeAt s.nodeAddr)
  | 0x09 => s.codeSel.setWidth 32
  | 0x0A => codeLenWord (s.codeAt s.codeSel)
  | 0x0B => s.nleaf.setWidth 32
  | 0x0C => s.encSymcnt
  | 0x0D => s.encBitcnt
  | 0x0E => s.decSymcnt
  | 0x0F => s.decBitcnt
  | 0x10 => codeBitsWord 0 (s.codeAt s.codeSel)
  | 0x11 => codeBitsWord 1 (s.codeAt s.codeSel)
  | 0x12 => codeBitsWord 2 (s.codeAt s.codeSel)
  | 0x13 => codeBitsWord 3 (s.codeAt s.codeSel)
  | 0x14 => codeBitsWord 4 (s.codeAt s.codeSel)
  | 0x15 => codeBitsWord 5 (s.codeAt s.codeSel)
  | 0x16 => codeBitsWord 6 (s.codeAt s.codeSel)
  | 0x17 => codeBitsWord 7 (s.codeAt s.codeSel)
  | _ => 0

/-- `regRead(i)` (R94): the word goes out on `h_rdata` (log 4) and no other state changes. A code
window read while `PHASE = GEN` gives a fresh free value (R175; log 6). -/
def regRead (idx : RegIndex) (s : State) : State :=
  if codeWindow idx && s.phase == .gen then
    { s with hRdata := Config.genWindowRead s.draws, draws := s.draws + 1 }
  else { s with hRdata := registerWord idx s }

/-- A write to IE (10_state.md R20) -/
def writeIe (v : Word) (s : State) : State :=
  { s with doneIe := v.getLsbD 0, errIe := v.getLsbD 1 }

/-- A write to ROOT: accepted in IDLE (10_state.md R21), else refused by the write lock
(20_memory.md R57) -/
def writeRoot (v : Word) (s : State) : State :=
  if busy s then raise .writeLocked 0x06 s
  else treeInvalidate { s with root := wordIndex v }

/-- A write to NODE_ADDR (10_state.md R22) -/
def writeNodeAddr (v : Word) (s : State) : State := { s with nodeAddr := wordIndex v }

/-- A write to NODE_DATA: accepted in IDLE (10_state.md R23), else refused by the write lock
(20_memory.md R57) -/
def writeNodeData (v : Word) (s : State) : State :=
  if busy s then raise .writeLocked 0x08 s
  else treeInvalidate (writeNode s.nodeAddr (wordNode v) s)

/-- A write to CODE_SEL (10_state.md R24) -/
def writeCodeSel (v : Word) (s : State) : State := { s with codeSel := wordSymbol v }

/-- `regWrite(i, v)` (R95): the six writable registers; any other index is ignored. -/
def regWrite (idx : RegIndex) (v : Word) (s : State) : State :=
  match idx.toNat with
  | 0x01 => commandWrite v s
  | 0x05 => writeIe v s
  | 0x06 => writeRoot v s
  | 0x07 => writeNodeAddr v s
  | 0x08 => writeNodeData v s
  | 0x09 => writeCodeSel v s
  | _ => s

/-! ### Meanings -/

/-- REG_RD (R94) -/
def execRegRd (idx : RegIndex) (s : State) : Outcome State Fault Refusal := .next (regRead idx s)

/-- REG_WR (R95) -/
def execRegWr (idx : RegIndex) (v : Word) (s : State) : Outcome State Fault Refusal :=
  .next (regWrite idx v s)

/-- REG_WR.CMD (R85) -/
def execRegWrCmd (v : Word) (s : State) : Outcome State Fault Refusal := .next (commandWrite v s)

/-- REG_WR.IE (10_state.md R20) -/
def execRegWrIe (v : Word) (s : State) : Outcome State Fault Refusal := .next (writeIe v s)

/-- REG_WR.ROOT (10_state.md R21, 20_memory.md R57) -/
def execRegWrRoot (v : Word) (s : State) : Outcome State Fault Refusal := .next (writeRoot v s)

/-- REG_WR.NODE_ADDR (10_state.md R22) -/
def execRegWrNodeAddr (v : Word) (s : State) : Outcome State Fault Refusal :=
  .next (writeNodeAddr v s)

/-- REG_WR.NODE_DATA (10_state.md R23, 20_memory.md R57) -/
def execRegWrNodeData (v : Word) (s : State) : Outcome State Fault Refusal :=
  .next (writeNodeData v s)

/-- REG_WR.CODE_SEL (10_state.md R24) -/
def execRegWrCodeSel (v : Word) (s : State) : Outcome State Fault Refusal :=
  .next (writeCodeSel v s)

end Sys2Proof.Machine
end

