-- ==== Sys2Proof/Machine/Dispatch.lean ====
section
/-! DEFINITION. One arm per constructor of `Instr`, each a call of its meaning. -/

namespace Sys2Proof.Machine

def exec (i : Instr) (s : State) : Host.Outcome State Fault Refusal :=
  match i with
  -- CMDW
  | .nop => Sys2Proof.Machine.execNop s
  | .treeClear => Sys2Proof.Machine.execTreeClear s
  | .buildTable => Sys2Proof.Machine.execBuildTable s
  | .encStart => Sys2Proof.Machine.execEncStart s
  | .decStart => Sys2Proof.Machine.execDecStart s
  | .abort => Sys2Proof.Machine.execAbort s
  | .ack => Sys2Proof.Machine.execAck s
  | .softReset => Sys2Proof.Machine.execSoftReset s
  | .cmdIllegal v => Sys2Proof.Machine.execCmdIllegal v s
  -- REGW
  | .regRd idx => Sys2Proof.Machine.execRegRd idx s
  | .regWr idx v => Sys2Proof.Machine.execRegWr idx v s
  | .regWrCmd v => Sys2Proof.Machine.execRegWrCmd v s
  | .regWrIe v => Sys2Proof.Machine.execRegWrIe v s
  | .regWrRoot v => Sys2Proof.Machine.execRegWrRoot v s
  | .regWrNodeAddr v => Sys2Proof.Machine.execRegWrNodeAddr v s
  | .regWrNodeData v => Sys2Proof.Machine.execRegWrNodeData v s
  | .regWrCodeSel v => Sys2Proof.Machine.execRegWrCodeSel v s
  -- SYMB
  | .encSym sym => Sys2Proof.Machine.execEncSym sym s
  | .encEos sym => Sys2Proof.Machine.execEncEos sym s
  -- BYTB
  | .decFetchFull nvalid data => Sys2Proof.Machine.execDecFetchFull nvalid data s
  | .decFetchFinal nvalid data => Sys2Proof.Machine.execDecFetchFinal nvalid data s
  | .decFetchFinal8 data => Sys2Proof.Machine.execDecFetchFinal8 data s
  | .decFetchBad nvalid data => Sys2Proof.Machine.execDecFetchBad nvalid data s
  -- STATE
  | .genRun => Sys2Proof.Machine.execGenRun s
  | .decBit => Sys2Proof.Machine.execDecBit s
  | .decFinish => Sys2Proof.Machine.execDecFinish s
  -- PROC
  | .packReset => Sys2Proof.Machine.execPackReset s
  | .pushBit b => Sys2Proof.Machine.execPushBit b s
  | .packClose => Sys2Proof.Machine.execPackClose s
  | .unpackReset => Sys2Proof.Machine.execUnpackReset s
  | .unpackLoad beat => Sys2Proof.Machine.execUnpackLoad beat s
  | .popBit => Sys2Proof.Machine.execPopBit s
  -- EVENT
  | .reset => Sys2Proof.Machine.execReset s

end Sys2Proof.Machine
end

