-- ==== Sys2Proof/Machine/Agents.lean ====
section
/-! DEFINITION. Who moves, and what a move does: the engine step the state enables
(30_encoding.md R73), the host's and the producers' moves (30_encoding.md R76,
70_reset_and_hazards.md R176), the `rst` input. -/

namespace Sys2Proof.Machine

open Host (Outcome)

/-- The engine step the state enables, at most one (30_encoding.md R73, 43_encoder.md R122,
44_decoder.md): a step that consumes a beat is decoded from the oldest beat of its channel. -/
def engineInstr (s : State) : Option Instr :=
  match s.phase with
  | .idle => none
  | .gen => some .genRun
  | .enc => s.symIn.head?.map fun b => decodeWire (.symb b.toBits)
  | .dec =>
    if hasBit s then some .decBit
    else if exhausted s then some .decFinish
    else s.byteIn.head?.map fun b => decodeWire (.bytb b.toBits)

/-- The engine step that can be taken now: none while `rst` is high (70_reset_and_hazards.md
R170). -/
def enabledInstr (s : State) : Option Instr := if s.rst then none else engineInstr s

/-- A transaction on the register port, ignored while `rst` is high (70_reset_and_hazards.md
R170). -/
def portMove (w : Wire) (s : State) : Outcome State Fault Refusal :=
  if s.rst then .next s else exec (decodeWire w) s

/-- What the move `m`, just taken off the script, does. -/
def runMove (m : Move) (s : State) : Outcome State Fault Refusal :=
  match m with
  | .cmd v => portMove (.cmdw v) s
  | .wr idx v => portMove (regwWrite idx v) s
  | .rd idx => portMove (regwRead idx) s
  | .sym b => .next (appendSym b s)
  | .byte b => .next (appendByte b s)
  | .engine =>
    match enabledInstr s with
    | some i => exec i s
    | none => .next s
  | .run =>
    match enabledInstr s with
    | some i => exec i { s with script := .run :: s.script }
    | none => .next s
  | .rst true => exec .reset { s with rst := true }
  | .rst false => .next { s with rst := false }

/-- The script is used up: the engine is the only agent with moves (70_reset_and_hazards.md R177).
With no engine step enabled an idle block stays as it is, and a pass is stuck (R179; log 2). -/
def runIdle (s : State) : Outcome State Fault Refusal :=
  match enabledInstr s with
  | some i => exec i s
  | none => if s.phase = .idle then .next s else .fault .stuck

/-- One step of the block and its agents (70_reset_and_hazards.md R176; log 1). -/
def agentStep (s : State) : Outcome State Fault Refusal :=
  match s.script with
  | [] => runIdle s
  | m :: rest => runMove m { s with script := rest }

/-- `s` with a word placed where the next step takes its instruction from (log 15): a command word
or a register access as the next move of the script, a beat at the head of its channel with the
phase that takes it. -/
def placeWire (w : Wire) (s : State) : State :=
  match w with
  | .cmdw v => { s with rst := false, script := .cmd v :: s.script }
  | .regw di data =>
    let idx := di.extractLsb' 0 6
    let m : Move := if di.getLsbD 6 then .wr idx data else .rd idx
    { s with rst := false, script := m :: s.script }
  | .symb b =>
    { s with rst := false, phase := .enc, symIn := SymBeat.ofBits b :: s.symIn,
             script := .engine :: s.script }
  | .bytb b =>
    { s with rst := false, phase := .dec, rem := 0, endseen := false,
             byteIn := ByteBeat.ofBits b :: s.byteIn, script := .engine :: s.script }

/-- `placeWire` of the word that `nbits` and `w` name; `s` where they name none. -/
def placeTableWord (nbits w : Nat) (s : State) : State :=
  match tableWire nbits w with
  | some x => placeWire x s
  | none => s

end Sys2Proof.Machine
end

