-- ==== Sys2Proof/Machine/Step.lean ====
section
/-! DEFINITION. One step of the machine, and where a word stands that the next step runs. -/

namespace Sys2Proof.Machine

/-- One step: the next move of the script, or the engine when the script is used up. -/
def step (s : State) : Host.Outcome State Fault Refusal := agentStep s

/-- `s` with the word of `nbits` bits `w` placed so that the next step runs its instruction. -/
def State.withFetchWord (s : State) (nbits w : Nat) : State := placeTableWord nbits w s

end Sys2Proof.Machine
end

