-- ==== Sys2Proof/Safety.lean ====
section
/-! DEFINITION. What claims are stated in: the end of a run (70_reset_and_hazards.md R179), the
packing of a bit sequence (42_bitpack.md R117), the strict binary tree (41_table_generator.md
R105), and the invariants of the block. None of it is part of the machine. -/

namespace Sys2Proof.Machine

open Host (Outcome)

/-! ### Runs and their ends -/

/-- `k` steps, stopping at the first stop. -/
def runSteps : Nat → State → Outcome State Fault Refusal
  | 0, s => .next s
  | k + 1, s =>
    match step s with
    | .next t => runSteps k t
    | .fault f => .fault f
    | .refused r => .refused r

/-- No agent has a move left: the script is used up and no engine step is enabled (R179). -/
def State.noMove (s : State) : Bool := s.script.isEmpty && (enabledInstr s).isNone

/-- The run has ended (R179). -/
def State.runEnded (s : State) : Bool := s.noMove && s.phase == .idle

/-- The run is stuck: it has no move left and a phase is still running. It is no end (R179). -/
def State.runStuck (s : State) : Bool := s.noMove && s.phase != .idle

/-- The latest pass has ended well: DONE, which only a step that ends a phase without an error of its
own sets (R179; 10_state.md R16). A generation phase counts as a pass here, so this holds after a
successful BUILD_TABLE too; it holds no more once ACK has cleared DONE. Both are the model's choice
(log 19). -/
def State.endedWell (s : State) : Bool := s.phase == .idle && s.done

/-- The commands that reset the block: SOFT_RESET in each of its spellings, and the `rst` input. -/
def resets (i : Instr) : Bool :=
  i == .softReset || i == .reset || i == .regWrCmd 0x07 || i == .regWr 0x01 0x07

/-- ACK in each of its spellings. -/
def acknowledges (i : Instr) : Bool := i == .ack || i == .regWrCmd 0x06 || i == .regWr 0x01 0x06

/-! ### Bit sequences and byte beats -/

/-- The first `cnt` bits of a byte, from bit 7 downward (20_memory.md R51). -/
def byteBits (x : Byte) (cnt : Nat) : List Bool :=
  (List.range cnt).map fun j => x.getLsbD (7 - j)

/-- How many stream bits a byte beat carries (30_encoding.md R70). -/
def beatCount (b : ByteBeat) : Nat := if b.last then b.nvalid.toNat else 8

/-- The stream bits of a byte beat, first bit first (20_memory.md R51, R53). -/
def beatBits (b : ByteBeat) : List Bool := byteBits b.data (beatCount b)

/-- The byte `D` with `D[7-j] = x(base + j)` for `j < cnt` and 0 below (42_bitpack.md R117). -/
def packByte (x : List Bool) (base cnt : Nat) : Byte :=
  wordOfBits 8 fun i => decide (7 - i < cnt) && x.getD (base + (7 - i)) false

/-- The beats of a bit sequence (42_bitpack.md R117): a full beat for every 8 bits, then the final
beat with the rest. -/
def packing (x : List Bool) : List ByteBeat :=
  ((List.range (x.length / 8)).map fun m =>
    ({ last := false, nvalid := 8, data := packByte x (8 * m) 8 } : ByteBeat)) ++
  [{ last := true, nvalid := BitVec.ofNat 4 (x.length % 8),
     data := packByte x (8 * (x.length / 8)) (x.length % 8) }]

/-- `k` successive calls of `pop_bit`: the bits returned, and the state after. -/
def popBits : Nat → State → List Bool × State
  | 0, s => ([], s)
  | k + 1, s => ((popBit s).1 :: (popBits k (popBit s).2).1, (popBits k (popBit s).2).2)

/-! ### Strict binary trees (41_table_generator.md R101, R105) -/

/-- The shape of a tree in the tree store: at each node its index, at a leaf its symbol. -/
inductive Shape where
  | leaf (n : NodeIndex) (c : Symbol)
  | node (n : NodeIndex) (left right : Shape)
  deriving DecidableEq, Repr

/-- The shape is what the tree store holds from entry `m` on: every node written, leaves and
children as the node words say. -/
def Shape.fits (s : State) : Shape → NodeIndex → Prop
  | .leaf n c, m =>
    m = n ∧ s.nvalidAt n = true ∧ nodeLeaf (s.nodeAt n) = true ∧ nodeSym (s.nodeAt n) = c
  | .node n l r, m =>
    m = n ∧ s.nvalidAt n = true ∧ nodeLeaf (s.nodeAt n) = false ∧
      l.fits s (nodeLeft (s.nodeAt n)) ∧ r.fits s (nodeRight (s.nodeAt n))

/-- The indices of its nodes. -/
def Shape.nodes : Shape → List NodeIndex
  | .leaf n _ => [n]
  | .node n l r => n :: (l.nodes ++ r.nodes)

/-- Its leaves, left to right: symbol and path, `p` being the path to the shape itself (left = 0,
right = 1). -/
def Shape.leaves : Shape → Code → List (Symbol × Code)
  | .leaf _ c, p => [(c, p)]
  | .node _ l r, p => l.leaves (p ++ [false]) ++ r.leaves (p ++ [true])

/-- The depth of its deepest leaf. -/
def Shape.height : Shape → Nat
  | .leaf _ _ => 0
  | .node _ l r => max l.height r.height + 1

/-- The tree from ROOT is a strict binary tree with distinct leaf symbols and depth at most 255
(41_table_generator.md R101, R105 item 3). -/
def StrictTree (s : State) (t : Shape) : Prop :=
  t.fits s s.root ∧ t.nodes.Nodup ∧ ((t.leaves []).map Prod.fst).Nodup ∧ t.height ≤ 255

/-- The node reached from `n` by a bit sequence, 0 left and 1 right. -/
def walk (s : State) : NodeIndex → List Bool → NodeIndex
  | n, [] => n
  | n, b :: p => walk s (nodeChild (s.nodeAt n) b) p

/-! ### Invariants -/

/-- The sparse arrays have their canonical form (log 9), and no code is longer than 255 bits
(30_encoding.md R68). -/
def State.arraysOk (s : State) : Prop :=
  Memory.wf Config.nNode 0 s.node ∧ Memory.wf Config.nNode false s.nvalid ∧
    Memory.wf Config.nSym [] s.table ∧ ∀ c ∈ s.table, c.2.length ≤ Config.maxLen

/-- A byte beat as the packer drives it (30_encoding.md R70): 8 bits, or as the final beat up to 7
with zeros below them. -/
def drivenByte (b : ByteBeat) : Prop :=
  (b.last = false → b.nvalid = 8) ∧
  (b.last = true → b.nvalid.toNat ≤ 7 ∧
    ∀ i, i < 8 - b.nvalid.toNat → b.data.getLsbD i = false)

/-- The packer and the unpacker hold what 10_state.md R32, R33 say: unfilled bits of ACC are 0,
REM is at most 8, both are empty outside their pass; the output beats are as 30_encoding.md R69,
R70 drive them. -/
def State.datapathOk (s : State) : Prop :=
  (∀ i, i < 8 - s.nb.toNat → s.acc.getLsbD i = false) ∧
  s.rem.toNat ≤ 8 ∧
  (s.phase ≠ .enc → s.acc = 0 ∧ s.nb = 0) ∧
  (s.phase ≠ .dec → s.shr = 0 ∧ s.rem = 0 ∧ s.endseen = false) ∧
  (∀ b ∈ s.byteOut, drivenByte b) ∧
  (∀ b ∈ s.symOut, b.eos = true → b.sym = 0)

/-- The codes that can be recorded (60_exceptions.md R151: all of the table but 0x52). -/
def recordedCodes : List (BitVec 8) :=
  [0x11, 0x12, 0x13, 0x14, 0x15, 0x16, 0x20, 0x30, 0x31, 0x40, 0x50, 0x51, 0x53]

/-- The error record is empty or holds a code of the table; DONE is 0 while a phase runs
(10_state.md R16, R18, R19). -/
def State.recordOk (s : State) : Prop :=
  (s.errCode = 0 → s.errInfo = 0 ∧ s.errMulti = false) ∧
  (s.errCode ≠ 0 → s.errCode ∈ recordedCodes) ∧
  (s.phase ≠ .idle → s.done = false)

/-- The flags of the tree and the table mean what 10_state.md R17 says: when set, the walk of
BUILD_TABLE over the present tree succeeds and TABLE, NLEAF and ROOT_LEAF are what it gives; when
clear, the table is empty. A pass runs only on a validated tree. -/
def State.coherent (s : State) : Prop :=
  s.tableValid = s.treeValid ∧
  (s.treeValid = false → s.table = [] ∧ s.nleaf = 0 ∧ s.rootLeaf = false) ∧
  (s.treeValid = true → ∃ g,
    visit s.node s.nvalid 255 s.root [] { visited := [], table := [], nleaf := 0 } = .ok g ∧
      s.table = g.table ∧ s.nleaf = g.nleaf ∧ s.rootLeaf = nodeLeaf (s.nodeAt s.root)) ∧
  (s.phase = .gen → s.treeValid = false) ∧
  (s.phase = .enc ∨ s.phase = .dec → s.treeValid = true)

/-- Reachable from ROOT through children of internal nodes. -/
inductive Reachable (s : State) : NodeIndex → Prop where
  | root : Reachable s s.root
  | child (n : NodeIndex) (b : Bool) :
    Reachable s n → nodeLeaf (s.nodeAt n) = false → Reachable s (nodeChild (s.nodeAt n) b)

/-- The decoder's pointer (44_decoder.md R133): while a decoding pass runs CUR is ROOT, or an
internal node reachable from ROOT; if the root is internal, CUR is internal. -/
def State.pointerOk (s : State) : Prop :=
  s.phase = .dec →
    (s.cur = s.root ∨ (Reachable s s.cur ∧ nodeLeaf (s.nodeAt s.cur) = false)) ∧
    (nodeLeaf (s.nodeAt s.root) = false → nodeLeaf (s.nodeAt s.cur) = false)

end Sys2Proof.Machine
end

