-- ==== Sys2Proof/Certificates/Slice0/Obligations.lean ====
section
/-! DEFINITION. The statements for the provers. Each names in its docstring the rule of spec/ it
formalises, or the section it rests on. Where a statement writes the next state as `{ s with … }`,
every field not named is unchanged: that is the instruction's frame. -/

open Sys2Proof Sys2Proof.Machine

/-! ### Encoding and decoding -/

/-- Words written out from the tables of 30_encoding.md (R66, R69 to R72) decode to the rows they
stand for: the eight opcodes, and every other word of CMD is the illegal command; a register read,
register writes, symbol beats, byte beats. -/
def Obligations.WordsOfTheFormatsDecode : Prop :=
  (decodeWire (.cmdw 0x00000000) = .nop ∧ decodeWire (.cmdw 0x00000001) = .treeClear ∧
   decodeWire (.cmdw 0x00000002) = .buildTable ∧ decodeWire (.cmdw 0x00000003) = .encStart ∧
   decodeWire (.cmdw 0x00000004) = .decStart ∧ decodeWire (.cmdw 0x00000005) = .abort ∧
   decodeWire (.cmdw 0x00000006) = .ack ∧ decodeWire (.cmdw 0x00000007) = .softReset ∧
   ∀ v : Word, 7 < v.toNat → decodeWire (.cmdw v) = .cmdIllegal v) ∧
  decodeWire (.regw 0b0001010 0) = .regRd 0x0A ∧
  decodeWire (.regw 0b1001000 0x00000007) = .regWrNodeData 0x7 ∧
  decodeWire (.regw 0b1010000 5) = .regWr 0x10 5 ∧
  decodeWire (.symb 0b001100001) = .encSym 0x61 ∧
  decodeWire (.symb 0b100000000) = .encEos 0 ∧
  decodeWire (.bytb 0b0100001101110) = .decFetchFull 8 0x6E ∧
  decodeWire (.bytb 0b1011111011100) = .decFetchFinal 7 0xDC ∧
  decodeWire (.bytb 0b1100010100101) = .decFetchFinal8 0xA5 ∧
  decodeWire (.bytb 0b1100110000000) = .decFetchBad 9 0x80

/-- Decoding the word of a well-formed instruction gives it back, every operand at every value, and
the rows without a word are those of the formats STATE, PROC and EVENT. -/
def Obligations.DecodeOfEncodeIsIdentity : Prop :=
  ∀ i : Instr, i.wellFormed = true →
    (∀ w, encode i = some w → decodeWire w = i) ∧
    (encode i = none ↔ i ∈ [.genRun, .decBit, .decFinish, .packReset, .pushBit false,
      .pushBit true, .packClose, .unpackReset, .popBit, .reset] ∨ ∃ b, i = .unpackLoad b)

/-- Every word of every format decodes to a well-formed instruction, and encoding that gives the
word back; a register read carries no data word, so there only direction and index come back. -/
def Obligations.EncodeOfDecodeIsIdentity : Prop :=
  ∀ w : Wire, (decodeWire w).wellFormed = true ∧
    match w with
    | .regw di data =>
      encode (decodeWire w) = some (.regw di (if di.getLsbD 6 then data else 0))
    | _ => encode (decodeWire w) = some w

/-- R73: which engine step is selected, by the oldest beat of the phase's input channel or by the
state alone; with no beat where one is needed, or in IDLE, none. -/
def Obligations.BeatOrStateSelectsEngineStep : Prop :=
  ∀ s : State,
    (s.phase = .idle → engineInstr s = none) ∧
    (s.phase = .gen → engineInstr s = some .genRun) ∧
    (s.phase = .enc → s.symIn = [] → engineInstr s = none) ∧
    (∀ b q, s.phase = .enc → s.symIn = b :: q →
      (b.eos = false → engineInstr s = some (.encSym b.sym)) ∧
      (b.eos = true → engineInstr s = some (.encEos b.sym))) ∧
    (s.phase = .dec → 0 < s.rem.toNat → engineInstr s = some .decBit) ∧
    (s.phase = .dec → s.rem = 0 → s.endseen = true → engineInstr s = some .decFinish) ∧
    (s.phase = .dec → s.rem = 0 → s.endseen = false → s.byteIn = [] → engineInstr s = none) ∧
    (∀ b q, s.phase = .dec → s.rem = 0 → s.endseen = false → s.byteIn = b :: q →
      (b.last = false → engineInstr s = some (.decFetchFull b.nvalid b.data)) ∧
      (b.last = true → b.nvalid.toNat < 8 →
        engineInstr s = some (.decFetchFinal (b.nvalid.setWidth 3) b.data)) ∧
      (b.last = true → b.nvalid = 8 → engineInstr s = some (.decFetchFinal8 b.data)) ∧
      (b.last = true → 9 ≤ b.nvalid.toNat →
        engineInstr s = some (.decFetchBad b.nvalid b.data)))

/-! ### Steps -/

/-- A step runs the decoded instruction (the moves of the script are the model's, log 1). A host
move runs the instruction its word decodes to, on the state without the move; ENGINE runs the
selected engine step; RUN runs it and stays; with no move left the engine moves. -/
def Obligations.StepRunsDecodedInstruction : Prop :=
  ∀ (s : State) (rest : List Move), s.rst = false →
    (∀ v, s.script = .cmd v :: rest →
      step s = exec (decodeWire (.cmdw v)) { s with script := rest }) ∧
    (∀ idx v, s.script = .wr idx v :: rest →
      step s = exec (decodeWire (.regw (1#1 ++ idx) v)) { s with script := rest }) ∧
    (∀ idx, s.script = .rd idx :: rest →
      step s = exec (decodeWire (.regw (0#1 ++ idx) 0)) { s with script := rest }) ∧
    (∀ i, engineInstr s = some i →
      (s.script = .engine :: rest → step s = exec i { s with script := rest }) ∧
      (s.script = .run :: rest → step s = exec i s) ∧
      (s.script = [] → step s = exec i s)) ∧
    (engineInstr s = none → s.script = .engine :: rest ∨ s.script = .run :: rest →
      step s = .next { s with script := rest })

/-- The producers' appends (10_state.md R40, R42) and the `rst` input (70 R170): a beat goes to the
end of its queue, whatever the phase and the level of `rst`; `rst` high is the reset event; while
it stays high the register port is ignored and no engine step is taken (log 5). -/
def Obligations.ProducersAppendAndResetHolds : Prop :=
  ∀ (s : State) (rest : List Move),
    (∀ b, s.script = .sym b :: rest →
      step s = .next { s with script := rest, symIn := s.symIn ++ [b] }) ∧
    (∀ b, s.script = .byte b :: rest →
      step s = .next { s with script := rest, byteIn := s.byteIn ++ [b] }) ∧
    (s.script = .rst true :: rest →
      step s = exec .reset { s with script := rest, rst := true }) ∧
    (s.script = .rst false :: rest → step s = .next { s with script := rest, rst := false }) ∧
    (s.rst = true → ∀ m, s.script = m :: rest →
      (∃ v, m = .cmd v) ∨ (∃ i v, m = .wr i v) ∨ (∃ i, m = .rd i) ∨ m = .engine ∨ m = .run →
      step s = .next { s with script := rest })

/-- A run that can make no move while a phase runs is stuck, and only that stops a step
(70_reset_and_hazards.md section 6; log 2). -/
def Obligations.StepStopsOnlyWhenStuck : Prop :=
  ∀ s : State,
    (step s = .fault .stuck ↔ s.runStuck = true) ∧ (s.runStuck = false → ∃ t, step s = .next t)

/-! ### Recording errors -/

/-- R150: the first error is kept with its information, a later one only sets ERR_MULTI, and
nothing else changes. -/
def Obligations.RaiseKeepsFirstError : Prop :=
  ∀ (c : ErrorCode) (info : Word) (s : State),
    raise c info s =
      if s.errCode = 0 then { s with errCode := c.code, errInfo := info }
      else { s with errMulti := true }

/-- The codes of 60_exceptions.md section 2, and their classes: the high nibble of a code, any low
nibble (R152). -/
def Obligations.ErrorCodesAndClasses : Prop :=
  ErrorCode.treeAbsent.code = 0x11 ∧ ErrorCode.treeShared.code = 0x12 ∧
  ErrorCode.treeDupsym.code = 0x13 ∧ ErrorCode.treeDepth.code = 0x14 ∧
  ErrorCode.noTree.code = 0x15 ∧ ErrorCode.noTable.code = 0x16 ∧
  ErrorCode.lookupFailure.code = 0x20 ∧ ErrorCode.ioAbort.code = 0x30 ∧
  ErrorCode.ioBadNvalid.code = 0x31 ∧ ErrorCode.truncated.code = 0x40 ∧
  ErrorCode.illegalCmd.code = 0x50 ∧ ErrorCode.cmdBusy.code = 0x51 ∧
  ErrorCode.cmdErrpend.code = 0x52 ∧ ErrorCode.writeLocked.code = 0x53 ∧
  ∀ low : BitVec 4,
    errorClass (0x1#4 ++ low) = some .invalidInput ∧
    errorClass (0x2#4 ++ low) = some .lookupFailure ∧
    errorClass (0x3#4 ++ low) = some .ioFailure ∧
    errorClass (0x4#4 ++ low) = some .truncatedInput ∧
    errorClass (0x5#4 ++ low) = some .protocol

/-! ### Commands -/

/-- R87: TREE_CLEAR in IDLE, an error pending or not: every node invalid, ROOT 0, the flags and the
table cleared (an unlisted entry of NVALID is 0, of TABLE empty); while a phase runs, CMD_BUSY. -/
def Obligations.TreeClearEmptiesTreeAndTable : Prop :=
  ∀ s : State,
    (s.phase = .idle →
      ∃ t, exec .treeClear s = .next t ∧
        t = { s with nvalid := [], root := 0, treeValid := false, tableValid := false,
                     rootLeaf := false, nleaf := 0, table := [] } ∧
        (∀ n, t.nvalidAt n = false) ∧ ∀ c, t.codeAt c = []) ∧
    (s.phase ≠ .idle → exec .treeClear s = .next (raise .cmdBusy 0x01 s))

/-- R88: BUILD_TABLE accepted, and refused while a phase runs or an error is pending. -/
def Obligations.BuildTableStartsGeneration : Prop :=
  ∀ s : State,
    (s.phase = .idle → s.errCode = 0 → exec .buildTable s = .next
      { s with done := false, treeValid := false, tableValid := false, rootLeaf := false,
               nleaf := 0, table := [], phase := .gen }) ∧
    (s.phase ≠ .idle → exec .buildTable s = .next (raise .cmdBusy 0x02 s)) ∧
    (s.phase = .idle → s.errCode ≠ 0 → exec .buildTable s = .next (raise .cmdErrpend 0x02 s))

/-- R89: ENC_START accepted, and refused while a phase runs, with an error pending, or without a
table. -/
def Obligations.EncStartBeginsPass : Prop :=
  ∀ s : State,
    (s.phase = .idle → s.errCode = 0 → s.tableValid = true → exec .encStart s = .next
      { s with done := false, encSymcnt := 0, encBitcnt := 0, acc := 0, nb := 0, phase := .enc }) ∧
    (s.phase ≠ .idle → exec .encStart s = .next (raise .cmdBusy 0x03 s)) ∧
    (s.phase = .idle → s.errCode ≠ 0 → exec .encStart s = .next (raise .cmdErrpend 0x03 s)) ∧
    (s.phase = .idle → s.errCode = 0 → s.tableValid = false →
      exec .encStart s = .next (raise .noTable 0 s))

/-- R90: DEC_START accepted, and refused while a phase runs, with an error pending, or without a
validated tree. -/
def Obligations.DecStartBeginsPass : Prop :=
  ∀ s : State,
    (s.phase = .idle → s.errCode = 0 → s.treeValid = true → exec .decStart s = .next
      { s with done := false, decSymcnt := 0, decBitcnt := 0, shr := 0, rem := 0,
               endseen := false, cur := s.root, phase := .dec }) ∧
    (s.phase ≠ .idle → exec .decStart s = .next (raise .cmdBusy 0x04 s)) ∧
    (s.phase = .idle → s.errCode ≠ 0 → exec .decStart s = .next (raise .cmdErrpend 0x04 s)) ∧
    (s.phase = .idle → s.errCode = 0 → s.treeValid = false →
      exec .decStart s = .next (raise .noTree 0 s))

/-- R91: ABORT in each phase. -/
def Obligations.AbortEndsThePhase : Prop :=
  ∀ s : State,
    (s.phase = .idle → exec .abort s = .next s) ∧
    (s.phase = .gen → exec .abort s = .next
      { raise .ioAbort 1 s with treeValid := false, tableValid := false, rootLeaf := false,
                                nleaf := 0, table := [], phase := .idle }) ∧
    (s.phase = .enc → exec .abort s = .next
      { raise .ioAbort 2 s with
          byteOut := s.byteOut ++ [{ last := true, nvalid := s.nb.setWidth 4, data := s.acc }],
          acc := 0, nb := 0, phase := .idle }) ∧
    (s.phase = .dec → exec .abort s = .next
      { raise .ioAbort 3 s with
          symOut := s.symOut ++ [{ eos := true, sym := 0 }],
          shr := 0, rem := 0, endseen := false, cur := s.root, phase := .idle })

/-- R86, R92: NOP changes nothing, ACK clears DONE and the recorded error and nothing else; both in
every phase and with an error pending. -/
def Obligations.NopAndAckInEveryPhase : Prop :=
  ∀ s : State,
    exec .nop s = .next s ∧
    exec .ack s = .next { s with done := false, errCode := 0, errMulti := false, errInfo := 0 }

/-- SOFT_RESET and the reset event are the same, in every phase (40_commands.md section 2,
70_reset_and_hazards.md section 1): every element of state at its reset value; queues and traces
keep their beats. The model's choices in it: the NODE payloads are 0 (log 7), and what belongs to the
environment stays (the last word read log 4, the level of `rst` log 5, the draws log 6, the script
log 1). -/
def Obligations.ResetCutsThePhase : Prop :=
  ∀ s : State,
    exec .softReset s = exec .reset s ∧
    exec .reset s = .next
      { State.reset with symIn := s.symIn, byteIn := s.byteIn, byteOut := s.byteOut,
                         symOut := s.symOut, hRdata := s.hRdata, rst := s.rst,
                         script := s.script, draws := s.draws }

/-- The illegal command word is ignored and records ILLEGAL_CMD with the word (40_commands.md
section 1, check 1). -/
def Obligations.IllegalCommandIsRecorded : Prop :=
  ∀ (v : Word) (s : State),
    (s.errCode = 0 →
      exec (.cmdIllegal v) s = .next { s with errCode := 0x50, errInfo := v }) ∧
    (s.errCode ≠ 0 → exec (.cmdIllegal v) s = .next { s with errMulti := true })

/-- R85: a write to CMD is checked in this order, the first check that fails deciding: illegal
word, busy, error pending, no table or no tree. A refused command only records its error; an
accepted one is its rule. -/
def Obligations.CommandChecksInOrder : Prop :=
  ∀ (v : Word) (s : State),
    (v.extractLsb' 8 24 ≠ 0 ∨ 7 < (v.extractLsb' 0 8).toNat →
      exec (.regWrCmd v) s = .next (raise .illegalCmd v s)) ∧
    (v = 0 → exec (.regWrCmd v) s = exec .nop s) ∧
    (v = 5 → exec (.regWrCmd v) s = exec .abort s) ∧
    (v = 6 → exec (.regWrCmd v) s = exec .ack s) ∧
    (v = 7 → exec (.regWrCmd v) s = exec .softReset s) ∧
    (v = 1 ∨ v = 2 ∨ v = 3 ∨ v = 4 → s.phase ≠ .idle →
      exec (.regWrCmd v) s = .next (raise .cmdBusy v s)) ∧
    (v = 2 ∨ v = 3 ∨ v = 4 → s.phase = .idle → s.errCode ≠ 0 →
      exec (.regWrCmd v) s = .next (raise .cmdErrpend v s)) ∧
    (v = 3 → s.phase = .idle → s.errCode = 0 → s.tableValid = false →
      exec (.regWrCmd v) s = .next (raise .noTable 0 s)) ∧
    (v = 4 → s.phase = .idle → s.errCode = 0 → s.treeValid = false →
      exec (.regWrCmd v) s = .next (raise .noTree 0 s)) ∧
    (v = 1 → s.phase = .idle → exec (.regWrCmd v) s = .next (ruleTreeClear s)) ∧
    (v = 2 → s.phase = .idle → s.errCode = 0 →
      exec (.regWrCmd v) s = .next (ruleBuildTable s)) ∧
    (v = 3 → s.phase = .idle → s.errCode = 0 → s.tableValid = true →
      exec (.regWrCmd v) s = .next (ruleEncStart s)) ∧
    (v = 4 → s.phase = .idle → s.errCode = 0 → s.treeValid = true →
      exec (.regWrCmd v) s = .next (ruleDecStart s))

/-- A write to CMD and the command its word decodes to are one transaction (10_state.md R12,
40_commands.md R85; log 12), for every word and in every state. -/
def Obligations.CommandWriteIsItsCommand : Prop :=
  ∀ (v : Word) (s : State),
    exec (.regWrCmd v) s = exec (decodeWire (.cmdw v)) s ∧
    exec (.regWr 0x01 v) s = exec (decodeWire (.cmdw v)) s

/-! ### Register accesses -/

/-- R94 with the rules of 10_state.md it names: the word a read returns (on `h_rdata`, log 4), and
nothing else changes. The bits of STATUS and of the code windows, and the code windows during
generation, have statements of their own. -/
def Obligations.RegReadReturnsItsRegister : Prop :=
  ∀ (idx : RegIndex) (s : State), (codeWindow idx = true → s.phase ≠ .gen) →
    ∃ w, exec (.regRd idx) s = .next { s with hRdata := w } ∧
      (idx = 0x00 → w = 0x48554601) ∧
      (idx = 0x01 → w = 0) ∧
      (idx = 0x03 → w.extractLsb' 0 8 = s.errCode ∧ w.extractLsb' 8 23 = 0 ∧
        w.getLsbD 31 = s.errMulti) ∧
      (idx = 0x04 → w = s.errInfo) ∧
      (idx = 0x05 → w.getLsbD 0 = s.doneIe ∧ w.getLsbD 1 = s.errIe ∧ w.extractLsb' 2 30 = 0) ∧
      (idx = 0x06 → w.toNat = s.root.toNat) ∧
      (idx = 0x07 → w.toNat = s.nodeAddr.toNat) ∧
      (idx = 0x08 → w.toNat =
        if s.nvalidAt s.nodeAddr then 2 ^ 31 + (s.nodeAt s.nodeAddr).toNat else 0) ∧
      (idx = 0x09 → w.toNat = s.codeSel.toNat) ∧
      (idx = 0x0B → w.toNat = s.nleaf.toNat) ∧
      (idx = 0x0C → w = s.encSymcnt) ∧
      (idx = 0x0D → w = s.encBitcnt) ∧
      (idx = 0x0E → w = s.decSymcnt) ∧
      (idx = 0x0F → w = s.decBitcnt) ∧
      (0x18 ≤ idx.toNat → w = 0)

/-- R13, R37: the bits of STATUS, `irq` among them, its value after reset, and writes to it
ignored. -/
def Obligations.StatusShowsFlagsAndIrq : Prop :=
  ∀ s : State, ∃ w, exec (.regRd 0x02) s = .next { s with hRdata := w } ∧
    (w.getLsbD 0 = true ↔ s.phase ≠ .idle) ∧
    (w.extractLsb' 1 2).toNat =
      (match s.phase with | .idle => 0 | .gen => 1 | .enc => 2 | .dec => 3) ∧
    w.getLsbD 3 = s.treeValid ∧ w.getLsbD 4 = s.tableValid ∧ w.getLsbD 5 = s.rootLeaf ∧
    w.getLsbD 6 = s.done ∧ (w.getLsbD 7 = true ↔ s.errCode ≠ 0) ∧
    (w.getLsbD 8 = true ↔
      (s.done = true ∧ s.doneIe = true) ∨ (s.errCode ≠ 0 ∧ s.errIe = true)) ∧
    w.extractLsb' 9 23 = 0 ∧ (s = State.reset → w = 0 ∧ irq s = false) ∧
    irq s = w.getLsbD 8 ∧ ∀ v, exec (.regWr 0x02 v) s = .next s

/-- The code windows when `PHASE != GEN` (10_state.md R25, R26): V and LEN of the selected entry,
and bit `32 * k + j` of its code in bit `31 - j` of CODE_BITSk, 0 from LEN on. -/
def Obligations.CodeWindowsShowTheCode : Prop :=
  ∀ s : State, s.phase ≠ .gen →
    (∃ w, exec (.regRd 0x0A) s = .next { s with hRdata := w } ∧
      (w.getLsbD 31 = true ↔ s.codeAt s.codeSel ≠ []) ∧ w.extractLsb' 8 23 = 0 ∧
      w.extractLsb' 0 8 = BitVec.ofNat 8 (s.codeAt s.codeSel).length) ∧
    ∀ k, k < 8 → ∃ w, exec (.regRd (BitVec.ofNat 6 (0x10 + k))) s = .next { s with hRdata := w } ∧
      ∀ j, j < 32 → w.getLsbD (31 - j) =
        if 32 * k + j < (s.codeAt s.codeSel).length then (s.codeAt s.codeSel).getD (32 * k + j) false
        else false

/-- A code-window read during generation completes and changes nothing but the word returned, of
which nothing is said (70_reset_and_hazards.md R175), and the model's count of such draws
(log 6). -/
def Obligations.CodeWindowReadDuringGenIsFree : Prop :=
  ∀ (idx : RegIndex) (s : State), s.phase = .gen → codeWindow idx = true →
    ∃ w d, exec (.regRd idx) s = .next { s with hRdata := w, draws := d }

/-- The registers writable in every phase (10_state.md R20, R22, R24): the field is stored, the other
bits of the word are dropped, the next read returns the field. -/
def Obligations.PlainRegistersStoreTheirField : Prop :=
  ∀ (v : Word) (s : State),
    (∃ t w, exec (.regWrIe v) s = .next t ∧
      t = { s with doneIe := v.getLsbD 0, errIe := v.getLsbD 1 } ∧
      exec (.regRd 0x05) t = .next { t with hRdata := w } ∧ w = v &&& 0x3) ∧
    (∃ t w, exec (.regWrNodeAddr v) s = .next t ∧
      t = { s with nodeAddr := v.extractLsb' 0 9 } ∧
      exec (.regRd 0x07) t = .next { t with hRdata := w } ∧ w = v &&& 0x1FF) ∧
    (∃ t w, exec (.regWrCodeSel v) s = .next t ∧
      t = { s with codeSel := v.extractLsb' 0 8 } ∧
      exec (.regRd 0x09) t = .next { t with hRdata := w } ∧ w = v &&& 0xFF)

/-- An accepted write to ROOT (10_state.md R21, R38): the field stored, the tree and the table
invalidated even when the value is the old one. -/
def Obligations.RootWriteInvalidatesTree : Prop :=
  ∀ (v : Word) (s : State), s.phase = .idle →
    exec (.regWrRoot v) s = .next
      { s with root := v.extractLsb' 0 9, treeValid := false, tableValid := false,
               rootLeaf := false, nleaf := 0, table := [] }

/-- An accepted write to NODE_DATA (10_state.md R23, R38): the entry NODE_ADDR names holds the node
word and is valid, every other entry reads as before, tree and table are invalidated, nothing else
changes, and the next read of NODE_DATA shows the word with bit 31 set. The store is in canonical
form (log 9), an invariant stated by itself. -/
def Obligations.NodeDataWriteStoresOneEntry : Prop :=
  ∀ (v : Word) (s : State), s.phase = .idle → s.arraysOk →
    ∃ t w, exec (.regWrNodeData v) s = .next t ∧
      t.nodeAt s.nodeAddr = v.extractLsb' 0 19 ∧ t.nvalidAt s.nodeAddr = true ∧
      (∀ n, n ≠ s.nodeAddr → t.nodeAt n = s.nodeAt n ∧ t.nvalidAt n = s.nvalidAt n) ∧
      t = { s with node := t.node, nvalid := t.nvalid, treeValid := false, tableValid := false,
                   rootLeaf := false, nleaf := 0, table := [] } ∧
      exec (.regRd 0x08) t = .next { t with hRdata := w } ∧
      w = 0x80000000 ||| (v &&& 0x7FFFF)

/-- The write lock (20_memory.md R57). While a phase runs, writes to ROOT and NODE_DATA only record
WRITE_LOCKED with their index; the other writable registers accept writes in every phase, IE,
NODE_ADDR and CODE_SEL by storing their field. That a write to CMD is accepted is said as: it answers
as the command its word decodes to (40_commands.md R85), which is the model's reading (log 12). -/
def Obligations.WriteLockWhileBusy : Prop :=
  ∀ (v : Word) (s : State),
    (s.phase ≠ .idle →
      exec (.regWrRoot v) s = .next (raise .writeLocked 0x06 s) ∧
      exec (.regWrNodeData v) s = .next (raise .writeLocked 0x08 s)) ∧
    exec (.regWrIe v) s = .next { s with doneIe := v.getLsbD 0, errIe := v.getLsbD 1 } ∧
    exec (.regWrNodeAddr v) s = .next { s with nodeAddr := v.extractLsb' 0 9 } ∧
    exec (.regWrCodeSel v) s = .next { s with codeSel := v.extractLsb' 0 8 } ∧
    exec (.regWrCmd v) s = exec (decodeWire (.cmdw v)) s

/-- R95: a register write by its index: the six writable registers, and a write to any other index
(read-only or unmapped) changes nothing. -/
def Obligations.RegWriteDispatchesByIndex : Prop :=
  ∀ (idx : RegIndex) (v : Word) (s : State),
    (idx = 0x01 → exec (.regWr idx v) s = exec (.regWrCmd v) s) ∧
    (idx = 0x05 → exec (.regWr idx v) s = exec (.regWrIe v) s) ∧
    (idx = 0x06 → exec (.regWr idx v) s = exec (.regWrRoot v) s) ∧
    (idx = 0x07 → exec (.regWr idx v) s = exec (.regWrNodeAddr v) s) ∧
    (idx = 0x08 → exec (.regWr idx v) s = exec (.regWrNodeData v) s) ∧
    (idx = 0x09 → exec (.regWr idx v) s = exec (.regWrCodeSel v) s) ∧
    (idx ≠ 0x01 → idx ≠ 0x05 → idx ≠ 0x06 → idx ≠ 0x07 → idx ≠ 0x08 → idx ≠ 0x09 →
      exec (.regWr idx v) s = .next s)

/-! ### Whole-machine rules -/

/-- While a phase runs no instruction but a reset changes ROOT or the tree store: the tree is
immutable while the generator or the decoder walks it (20_memory.md section 5). -/
def Obligations.TreeImmutableWhileBusy : Prop :=
  ∀ (i : Instr) (s t : State), exec i s = .next t → s.phase ≠ .idle → resets i = false →
    t.root = s.root ∧ t.node = s.node ∧ t.nvalid = s.nvalid

/-- PHASE changes only by ending a phase or by an accepted start command (10_state.md section 3,
00_scope.md R4): out of IDLE, with no error pending, and for a pass with a validated tree. -/
def Obligations.PhaseChangesOnlyByStartOrEnd : Prop :=
  ∀ (i : Instr) (s t : State), exec i s = .next t → t.phase ≠ s.phase →
    t.phase = .idle ∨
    (s.phase = .idle ∧ s.errCode = 0 ∧ t.done = false ∧
      ((t.phase = .gen ∧ i ∈ [.buildTable, .regWrCmd 2, .regWr 0x01 2]) ∨
       (t.phase = .enc ∧ s.tableValid = true ∧ i ∈ [.encStart, .regWrCmd 3, .regWr 0x01 3]) ∨
       (t.phase = .dec ∧ s.treeValid = true ∧ i ∈ [.decStart, .regWrCmd 4, .regWr 0x01 4])))

/-- A recorded error stays until ACK or a reset, with its information; ERR_MULTI is never lost
either (10_state.md R18, R19, first error kept by 60_exceptions.md R150). -/
def Obligations.RecordedErrorIsSticky : Prop :=
  ∀ (i : Instr) (s t : State), exec i s = .next t → s.errCode ≠ 0 →
    resets i = false → acknowledges i = false →
    t.errCode = s.errCode ∧ t.errInfo = s.errInfo ∧ (s.errMulti = true → t.errMulti = true)

/-- The code table is written only by GEN_RUN, and emptied only together with its flags
(10_state.md R31, R38). -/
def Obligations.TableWrittenOnlyByGenerator : Prop :=
  ∀ (i : Instr) (s t : State), exec i s = .next t → t.table ≠ s.table →
    (t.table = [] ∧ t.treeValid = false ∧ t.tableValid = false ∧ t.rootLeaf = false ∧
      t.nleaf = 0) ∨
    (i = .genRun ∧ s.phase = .gen ∧ t.treeValid = true ∧ t.tableValid = true ∧ t.done = true)

/-- The channels (10_state.md R40 to R43): no instruction withdraws or reorders an emitted beat; at
most the oldest beat is taken from an input queue, by the encoder in an encoding pass and by the
decoder when it needs a byte. -/
def Obligations.ChannelsAreFirstInFirstOut : Prop :=
  ∀ (i : Instr) (s t : State), exec i s = .next t →
    (∃ x, t.byteOut = s.byteOut ++ x) ∧ (∃ x, t.symOut = s.symOut ++ x) ∧
    (t.symIn = s.symIn ∨ (∃ b, s.symIn = b :: t.symIn) ∧ s.phase = .enc) ∧
    (t.byteIn = s.byteIn ∨
      (∃ b, s.byteIn = b :: t.byteIn) ∧ s.phase = .dec ∧ s.rem = 0 ∧ s.endseen = false)

/-- The counters (10_state.md R28, R29, 60_exceptions.md R160): the encoder's change only in ENC_SYM,
ENC_START, push_bit and resets, the decoder's only in DEC_BIT, DEC_START, pop_bit and resets. -/
def Obligations.CountersChangeOnlyInTheirPass : Prop :=
  ∀ (i : Instr) (s t : State), exec i s = .next t → resets i = false →
    ((t.encSymcnt ≠ s.encSymcnt ∨ t.encBitcnt ≠ s.encBitcnt) →
      (∃ c, i = .encSym c ∧ s.phase = .enc) ∨ (∃ b, i = .pushBit b) ∨
      (i ∈ [.encStart, .regWrCmd 3, .regWr 0x01 3] ∧ t.encSymcnt = 0 ∧ t.encBitcnt = 0)) ∧
    ((t.decSymcnt ≠ s.decSymcnt ∨ t.decBitcnt ≠ s.decBitcnt) →
      (i = .decBit ∧ s.phase = .dec) ∨ i = .popBit ∨
      (i ∈ [.decStart, .regWrCmd 4, .regWr 0x01 4] ∧ t.decSymcnt = 0 ∧ t.decBitcnt = 0))

/-! ### The code-table generator -/

/-- R101, R102: the tests of `visit(n, d, p)` in their order, `d = 255 - room` the depth; a leaf that
is the root (the empty path) gets the one-bit code "0". -/
def Obligations.VisitTestsInOrder : Prop :=
  ∀ (s : State) (room : Nat) (n : NodeIndex) (p : Code) (g : GenWork),
    let v := visit s.node s.nvalid room n p g
    let g1 : GenWork := { g with visited := n :: g.visited }
    let c := nodeSym (s.nodeAt n)
    (s.nvalidAt n = false → v = .error (.treeAbsent, n.setWidth 32)) ∧
    (s.nvalidAt n = true → n ∈ g.visited → v = .error (.treeShared, n.setWidth 32)) ∧
    (s.nvalidAt n = true → n ∉ g.visited → nodeLeaf (s.nodeAt n) = true →
      Memory.get [] g.table c.toNat ≠ [] →
      v = .error (.treeDupsym, (c.setWidth 32 <<< 16) ||| n.setWidth 32)) ∧
    (s.nvalidAt n = true → n ∉ g.visited → nodeLeaf (s.nodeAt n) = true →
      Memory.get [] g.table c.toNat = [] →
      v = .ok { g1 with table := Memory.set [] g.table c.toNat (if p = [] then [false] else p),
                        nleaf := g.nleaf + 1 }) ∧
    (s.nvalidAt n = true → n ∉ g.visited → nodeLeaf (s.nodeAt n) = false → room = 0 →
      v = .error (.treeDepth, n.setWidth 32)) ∧
    (∀ r, s.nvalidAt n = true → n ∉ g.visited → nodeLeaf (s.nodeAt n) = false → room = r + 1 →
      (∀ e, visit s.node s.nvalid r (nodeLeft (s.nodeAt n)) (p ++ [false]) g1 = .error e →
        v = .error e) ∧
      (∀ g2, visit s.node s.nvalid r (nodeLeft (s.nodeAt n)) (p ++ [false]) g1 = .ok g2 →
        v = visit s.node s.nvalid r (nodeRight (s.nodeAt n)) (p ++ [true]) g2))

/-- R103, R104: GEN_RUN commits what the walk from ROOT at depth 0 gives, or withdraws the table and
records the first error met; either way the phase ends. -/
def Obligations.GenRunCommitsOrFails : Prop :=
  ∀ s : State, s.phase = .gen →
    (∀ g, visit s.node s.nvalid 255 s.root []
        { visited := [], table := s.table, nleaf := 0 } = .ok g →
      exec .genRun s = .next
        { s with table := g.table, nleaf := g.nleaf, treeValid := true, tableValid := true,
                 rootLeaf := nodeLeaf (s.nodeAt s.root), done := true, phase := .idle }) ∧
    (∀ c info, visit s.node s.nvalid 255 s.root []
        { visited := [], table := s.table, nleaf := 0 } = .error (c, info) →
      exec .genRun s = .next
        { raise c info s with treeValid := false, tableValid := false, rootLeaf := false,
                              nleaf := 0, table := [], phase := .idle })

/-- GEN_RUN accepts exactly the strict binary trees with distinct leaf symbols and depth at most 255
(41_table_generator.md sections of `visit` and of what holds after it, item 3). -/
def Obligations.GenRunAcceptsExactlyStrictTrees : Prop :=
  ∀ s : State, s.phase = .gen → s.table = [] →
    ∃ t, exec .genRun s = .next t ∧ (t.treeValid = true ↔ ∃ T, StrictTree s T)

/-- After GEN_RUN over a strict binary tree the table is exactly that tree's: every leaf's symbol has
its path as code ("0" for the single leaf), no other symbol has one, and NLEAF counts the leaves
(41_table_generator.md, what holds after a successful GEN_RUN, items 2 and 5). -/
def Obligations.GenRunTableIsTheLeafPaths : Prop :=
  ∀ (s : State) (T : Shape), s.phase = .gen → s.table = [] → StrictTree s T →
    ∃ t, exec .genRun s = .next t ∧ t.treeValid = true ∧ t.tableValid = true ∧ t.done = true ∧
      t.phase = .idle ∧ t.errCode = s.errCode ∧
      t.nleaf.toNat = (T.leaves []).length ∧
      (t.rootLeaf = true ↔ (T.leaves []).length = 1) ∧
      (∀ x ∈ T.leaves [], t.codeAt x.1 = if x.2 = [] then [false] else x.2) ∧
      (∀ c, c ∉ (T.leaves []).map Prod.fst → t.codeAt c = [])

/-- No code of a table is a prefix of another (41_table_generator.md, what holds after a successful
GEN_RUN, item 1), as long as the flags mean what they say. -/
def Obligations.CodesArePrefixFree : Prop :=
  ∀ s : State, s.coherent → ∀ a b : Symbol, a ≠ b → s.codeAt a ≠ [] → s.codeAt b ≠ [] →
    ¬ s.codeAt a <+: s.codeAt b

/-- Walking a validated tree from ROOT by the bits of a symbol's code reaches that symbol's leaf, and
no leaf earlier (41_table_generator.md, what holds after a successful GEN_RUN, item 4); the
single-leaf tree is the case ROOT_LEAF = 1. -/
def Obligations.CodeLeadsToItsLeaf : Prop :=
  ∀ s : State, s.coherent → s.rootLeaf = false → ∀ c : Symbol, s.codeAt c ≠ [] →
    nodeLeaf (s.nodeAt (walk s s.root (s.codeAt c))) = true ∧
    nodeSym (s.nodeAt (walk s s.root (s.codeAt c))) = c ∧
    ∀ k, k < (s.codeAt c).length →
      nodeLeaf (s.nodeAt (walk s s.root ((s.codeAt c).take k))) = false

/-! ### Bit packer and unpacker -/

/-- R110 to R112: the packer's three procedures. -/
def Obligations.PackerProcedures : Prop :=
  ∀ s : State,
    exec .packReset s = .next { s with acc := 0, nb := 0 } ∧
    (∀ b, ∃ d : Byte, (∀ i, i < 8 → d.getLsbD i = if i = 7 - s.nb.toNat then b else s.acc.getLsbD i) ∧
      (s.nb.toNat = 7 → exec (.pushBit b) s = .next
        { s with encBitcnt := s.encBitcnt + 1, acc := 0, nb := 0,
                 byteOut := s.byteOut ++ [{ last := false, nvalid := 8, data := d }] }) ∧
      (s.nb.toNat < 7 → exec (.pushBit b) s = .next
        { s with encBitcnt := s.encBitcnt + 1, acc := d, nb := s.nb + 1 })) ∧
    exec .packClose s = .next
      { s with byteOut := s.byteOut ++ [{ last := true, nvalid := s.nb.setWidth 4, data := s.acc }],
               acc := 0, nb := 0 }

/-- R113 to R115: the unpacker's three procedures; the bit `pop_bit` returns and the answer of
`unpack_load` are those of the procedures the rows call (log 11). -/
def Obligations.UnpackerProcedures : Prop :=
  ∀ s : State,
    exec .unpackReset s = .next { s with shr := 0, rem := 0, endseen := false } ∧
    (∀ b : ByteBeat,
      (b.last = false →
        (unpackLoad b s).1 = true ∧
        exec (.unpackLoad b) s = .next { s with shr := b.data, rem := 8 }) ∧
      (b.last = true → b.nvalid.toNat ≤ 8 →
        (unpackLoad b s).1 = true ∧
        exec (.unpackLoad b) s = .next
          { s with shr := b.data, rem := b.nvalid, endseen := true }) ∧
      (b.last = true → 9 ≤ b.nvalid.toNat →
        (unpackLoad b s).1 = false ∧ exec (.unpackLoad b) s = .next s)) ∧
    (0 < s.rem.toNat → ∃ d n,
      (popBit s).1 = s.shr.getLsbD 7 ∧
      exec .popBit s = .next { s with shr := d, rem := n, decBitcnt := s.decBitcnt + 1 } ∧
      n.toNat + 1 = s.rem.toNat ∧ d.getLsbD 0 = false ∧
      ∀ i, i < 7 → d.getLsbD (i + 1) = s.shr.getLsbD i)

/-- The packer's law (42_bitpack.md section 1): bits pushed between `pack_reset` and `pack_close`
come out as their packing, and ENC_BITCNT counts them. -/
def Obligations.PackerEmitsThePacking : Prop :=
  ∀ (x : List Bool) (s : State),
    (packClose (pushBits x (packReset s))).byteOut = s.byteOut ++ packing x ∧
    (packClose (pushBits x (packReset s))).encBitcnt = s.encBitcnt + BitVec.ofNat 32 x.length

/-- The unpacker's law (42_bitpack.md section 2): a beat loaded when the source needs a byte gives up
exactly its bits and is then used up; over the beats of a packing these are exactly the bits
packed. -/
def Obligations.UnpackerReturnsThePackedBits : Prop :=
  (∀ (b : ByteBeat) (s : State), s.rem = 0 → s.endseen = false →
    (b.last = true → b.nvalid.toNat ≤ 8) →
    (unpackLoad b s).1 = true ∧
    (popBits (beatCount b) (unpackLoad b s).2).1 = beatBits b ∧
    (popBits (beatCount b) (unpackLoad b s).2).2.rem = 0 ∧
    (popBits (beatCount b) (unpackLoad b s).2).2.endseen = b.last) ∧
  ∀ x : List Bool, (packing x).flatMap beatBits = x

/-! ### Encoder -/

/-- R120. The symbol has a code: the beat is taken, the code's bits follow the pending bits with no
separator, a full beat leaving for every eighth bit; the counters advance; nothing else changes. It
has none: the beat is taken, the stream closed with its partial byte, LOOKUP_FAILURE recorded with
the symbol, the pass over; the symbol is not counted and DONE stays. -/
def Obligations.EncSymAppendsTheCodeOrFails : Prop :=
  ∀ (c : Symbol) (q : List SymBeat) (s : State), s.phase = .enc →
    s.symIn = { eos := false, sym := c } :: q →
    (s.codeAt c ≠ [] →
      ∃ t beats, exec (.encSym c) s = .next t ∧
        t.byteOut = s.byteOut ++ beats ∧ (∀ b ∈ beats, b.last = false ∧ b.nvalid = 8) ∧
        beats.flatMap beatBits ++ byteBits t.acc t.nb.toNat =
          byteBits s.acc s.nb.toNat ++ s.codeAt c ∧
        t = { s with symIn := q, encSymcnt := s.encSymcnt + 1,
                     encBitcnt := s.encBitcnt + BitVec.ofNat 32 (s.codeAt c).length,
                     byteOut := t.byteOut, acc := t.acc, nb := t.nb }) ∧
    (s.codeAt c = [] →
      exec (.encSym c) s = .next
        { raise .lookupFailure (c.setWidth 32) s with
            symIn := q, acc := 0, nb := 0, phase := .idle,
            byteOut := s.byteOut ++
              [{ last := true, nvalid := s.nb.setWidth 4, data := s.acc }] })

/-- R121: the end mark closes the stream and ends the pass with DONE, whatever its SYM field. -/
def Obligations.EncEosClosesTheStream : Prop :=
  ∀ (c : Symbol) (q : List SymBeat) (s : State), s.phase = .enc →
    s.symIn = { eos := true, sym := c } :: q →
    exec (.encEos c) s = .next
      { s with symIn := q, acc := 0, nb := 0, done := true, phase := .idle,
               byteOut := s.byteOut ++ [{ last := true, nvalid := s.nb.setWidth 4, data := s.acc }] }

/-- Where an engine step is not enabled nothing happens: the encoder and the decoder wait
(43_encoder.md and 44_decoder.md, their waiting rules; log 3). A row that takes a beat is enabled
only by that very beat, oldest in its queue: with no beat, or another one there, it waits. -/
def Obligations.EngineStepWaitsWhenNotEnabled : Prop :=
  ∀ s : State,
    let noSym := fun b : SymBeat => s.phase ≠ .enc ∨ s.symIn.head? ≠ some b
    let noByte := fun b : ByteBeat =>
      s.phase ≠ .dec ∨ s.rem ≠ 0 ∨ s.endseen = true ∨ s.byteIn.head? ≠ some b
    (∀ c, noSym { eos := false, sym := c } → exec (.encSym c) s = .next s) ∧
    (∀ c, noSym { eos := true, sym := c } → exec (.encEos c) s = .next s) ∧
    (∀ n d, noByte { last := false, nvalid := n, data := d } →
      exec (.decFetchFull n d) s = .next s) ∧
    (∀ (n : BitVec 3) (d : Byte), noByte { last := true, nvalid := n.setWidth 4, data := d } →
      exec (.decFetchFinal n d) s = .next s) ∧
    (∀ d, noByte { last := true, nvalid := 8, data := d } →
      exec (.decFetchFinal8 d) s = .next s) ∧
    (∀ n d, noByte { last := true, nvalid := n, data := d } →
      exec (.decFetchBad n d) s = .next s) ∧
    (s.phase ≠ .gen → exec .genRun s = .next s) ∧
    (s.phase ≠ .dec ∨ s.rem = 0 → exec .decBit s = .next s) ∧
    (s.phase ≠ .dec ∨ s.rem ≠ 0 ∨ s.endseen = false → exec .decFinish s = .next s)

/-- The encoder's law (43_encoder.md, last rule): a pass over symbols that all have a code, then the
end mark, ends with DONE and no error, emits the packing of the concatenated codes, counts symbols
and bits, and takes exactly its own beats. One script is taken of the many the law speaks of (log 1):
all beats wait on SYM_IN and ENC_START is the one move. Beats appended while the pass runs are
covered step by step, by EncSymAppendsTheCodeOrFails, EncEosClosesTheStream and
ProducersAppendAndResetHolds. -/
def Obligations.EncodingPassEmitsThePacking : Prop :=
  ∀ (w : List Symbol) (q : List SymBeat) (e : Symbol) (s : State),
    s.phase = .idle → s.errCode = 0 → s.tableValid = true → s.rst = false →
    s.script = [.cmd 0x03] →
    s.symIn = (w.map fun c => { eos := false, sym := c }) ++ { eos := true, sym := e } :: q →
    (∀ c ∈ w, s.codeAt c ≠ []) →
    ∃ t, runSteps (w.length + 2) s = .next t ∧
      t = { s with script := [], symIn := q, done := true, acc := 0, nb := 0,
                   encSymcnt := BitVec.ofNat 32 w.length,
                   encBitcnt := BitVec.ofNat 32 (w.flatMap s.codeAt).length,
                   byteOut := s.byteOut ++ packing (w.flatMap s.codeAt) }

/-! ### Decoder -/

/-- R130. A well-formed beat is taken and loaded; a full byte carries 8 bits whatever its NVALID
field says. A final beat with NVALID 9 to 15 is taken, the end mark emitted, the unpacker and CUR
reset, IO_BAD_NVALID recorded with the field, the pass over. -/
def Obligations.DecFetchLoadsOrRejectsTheBeat : Prop :=
  ∀ (q : List ByteBeat) (d : Byte) (s : State), s.phase = .dec → s.rem = 0 → s.endseen = false →
    (∀ n, s.byteIn = { last := false, nvalid := n, data := d } :: q →
      exec (.decFetchFull n d) s = .next { s with byteIn := q, shr := d, rem := 8 }) ∧
    (∀ n : BitVec 3, s.byteIn = { last := true, nvalid := n.setWidth 4, data := d } :: q →
      exec (.decFetchFinal n d) s = .next
        { s with byteIn := q, shr := d, rem := n.setWidth 4, endseen := true }) ∧
    (s.byteIn = { last := true, nvalid := 8, data := d } :: q →
      exec (.decFetchFinal8 d) s = .next
        { s with byteIn := q, shr := d, rem := 8, endseen := true }) ∧
    (∀ n : BitVec 4, 9 ≤ n.toNat → s.byteIn = { last := true, nvalid := n, data := d } :: q →
      exec (.decFetchBad n d) s = .next
        { raise .ioBadNvalid (n.setWidth 32) s with
            byteIn := q, symOut := s.symOut ++ [{ eos := true, sym := 0 }],
            shr := 0, rem := 0, endseen := false, cur := s.root, phase := .idle })

/-- R131, R134: one bit popped and counted. With a single-leaf tree the root's symbol is emitted
whatever the bit; else CUR moves to the left child on 0 and the right child on 1, and at a leaf the
symbol is emitted and CUR returns to ROOT. -/
def Obligations.DecBitWalksOneEdge : Prop :=
  ∀ s : State, s.phase = .dec → 0 < s.rem.toNat →
    ∃ n : BitVec 4, n.toNat + 1 = s.rem.toNat ∧
    ∃ d : Byte, (d.getLsbD 0 = false ∧ ∀ i, i < 7 → d.getLsbD (i + 1) = s.shr.getLsbD i) ∧
    let s1 : State := { s with shr := d, rem := n, decBitcnt := s.decBitcnt + 1 }
    let nxt := if s.shr.getLsbD 7 then nodeRight (s.nodeAt s.cur) else nodeLeft (s.nodeAt s.cur)
    let emit := fun m : NodeIndex =>
      { s1 with symOut := s.symOut ++ [{ eos := false, sym := nodeSym (s.nodeAt m) }],
                decSymcnt := s.decSymcnt + 1, cur := s.root }
    (nodeLeaf (s.nodeAt s.root) = true → exec .decBit s = .next (emit s.root)) ∧
    (nodeLeaf (s.nodeAt s.root) = false → nodeLeaf (s.nodeAt nxt) = true →
      exec .decBit s = .next (emit nxt)) ∧
    (nodeLeaf (s.nodeAt s.root) = false → nodeLeaf (s.nodeAt nxt) = false →
      exec .decBit s = .next { s1 with cur := nxt })

/-- R132: at the end of the stream, TRUNCATED in the middle of a walk and DONE at the root; on both
arms the end mark, the unpacker and CUR reset, the pass over. -/
def Obligations.DecFinishDetectsTruncation : Prop :=
  ∀ s : State, s.phase = .dec → s.rem = 0 → s.endseen = true →
    (s.cur = s.root → exec .decFinish s = .next
      { s with done := true, symOut := s.symOut ++ [{ eos := true, sym := 0 }],
               shr := 0, rem := 0, endseen := false, cur := s.root, phase := .idle }) ∧
    (s.cur ≠ s.root → exec .decFinish s = .next
      { raise .truncated (s.cur.setWidth 32) s with
          symOut := s.symOut ++ [{ eos := true, sym := 0 }],
          shr := 0, rem := 0, endseen := false, cur := s.root, phase := .idle })

/-- While a decoding pass runs, every entry DEC_BIT reads has been written (44_decoder.md, the
invariant of a decoding pass): the root, the current node and, below an internal one, the child. -/
def Obligations.DecBitReadsOnlyValidEntries : Prop :=
  ∀ s : State, s.coherent → s.pointerOk → s.phase = .dec →
    s.nvalidAt s.root = true ∧ s.nvalidAt s.cur = true ∧
    (nodeLeaf (s.nodeAt s.cur) = false → ∀ b, s.nvalidAt (nodeChild (s.nodeAt s.cur) b) = true)

/-- The round trip (44_decoder.md, last rule): the beats of an encoding pass, fed unchanged to a
decoding pass with the same validated tree, come back as exactly the symbols and the end mark, with
DONE, no error and equal bit counts. One script is taken for each pass (log 1): all beats wait and the
start command is the one move. Beats appended while a pass runs are covered step by step, by
DecFetchLoadsOrRejectsTheBeat, DecBitWalksOneEdge and ProducersAppendAndResetHolds. -/
def Obligations.DecodingInvertsEncoding : Prop :=
  ∀ (w : List Symbol) (s : State),
    s.coherent → s.treeValid = true → s.phase = .idle → s.errCode = 0 → s.rst = false →
    s.script = [.cmd 0x03] →
    s.symIn = (w.map fun c => { eos := false, sym := c }) ++ [{ eos := true, sym := 0 }] →
    (∀ c ∈ w, s.codeAt c ≠ []) →
    ∃ t beats, runSteps (w.length + 2) s = .next t ∧ t.byteOut = s.byteOut ++ beats ∧
      ∃ k u, runSteps k { t with script := [.cmd 0x04], byteIn := beats } = .next u ∧
        u.phase = .idle ∧ u.done = true ∧ u.errCode = 0 ∧ u.byteIn = [] ∧
        u.symOut = s.symOut ++ (w.map fun c => { eos := false, sym := c }) ++
          [{ eos := true, sym := 0 }] ∧
        u.decSymcnt = BitVec.ofNat 32 w.length ∧ u.decBitcnt = t.encBitcnt

/-! ### Reset and invariants -/

/-- What reset leaves (70_reset_and_hazards.md R170): every register reads 0 but ID, `irq` is low;
and all invariants hold. -/
def Obligations.ResetStateReadsZero : Prop :=
  irq State.reset = false ∧ State.reset.phase = .idle ∧
  ∀ idx : RegIndex, ∃ w, exec (.regRd idx) State.reset = .next { State.reset with hRdata := w } ∧
    w = if idx = 0x00 then 0x48554601 else 0

/-- The invariants hold right after reset. -/
def Obligations.ResetMeetsTheInvariants : Prop :=
  State.reset.arraysOk ∧ State.reset.datapathOk ∧ State.reset.recordOk ∧ State.reset.coherent ∧
    State.reset.pointerOk

/-- Every step keeps the tree store and the code table in canonical form, with codes of at most 255
bits (10_state.md R30, R31; log 9). -/
def Obligations.StepKeepsArraysCanonical : Prop :=
  ∀ s t : State, step s = .next t → s.arraysOk → t.arraysOk

/-- Every step keeps the packer, the unpacker and the output beats as 10_state.md R32, R33 and
30_encoding.md R69, R70 say. -/
def Obligations.StepKeepsDatapathWellFormed : Prop :=
  ∀ s t : State, step s = .next t → s.datapathOk → t.datapathOk

/-- Every step keeps the error record empty or holding a code of the table other than 0x52, and DONE 0
while a phase runs (10_state.md sections 4 and 5, 60_exceptions.md sections 1 and 2). -/
def Obligations.StepKeepsErrorRecord : Prop :=
  ∀ s t : State, step s = .next t → s.recordOk → t.recordOk

/-- Every step keeps the flags and the code table coherent with the tree (10_state.md R17,
20_memory.md section 8): whenever TREE_VALID is set, the table is exactly that of the present
tree. -/
def Obligations.StepKeepsTableCoherent : Prop :=
  ∀ s t : State, step s = .next t → s.coherent → t.coherent

/-- Every step keeps the decoder's pointer at the root or on a reachable internal node while a
decoding pass runs (44_decoder.md, the invariant of a decoding pass). -/
def Obligations.StepKeepsDecoderPointer : Prop :=
  ∀ s t : State, step s = .next t → s.coherent → s.pointerOk → t.pointerOk
end

