-- ==== Sys2Proof/Laws/Memory.lean ====
section
/-! SUPPORT. The laws of the sparse arrays: read after write, a write leaves every other entry
alone, the canonical form is kept, and canonical arrays with equal reads are equal. -/

namespace Sys2Proof.Machine

variable {α : Type} {d : α} {size : Nat}

@[simp] theorem Memory.get_nil (a : Nat) : Memory.get d [] a = d := rfl

theorem Memory.get_cons (k : Nat) (v : α) (m : Memory α) (a : Nat) :
    Memory.get d ((k, v) :: m) a = if k = a then v else Memory.get d m a := rfl

/-- An index below every listed one is unlisted. -/
theorem Memory.get_of_forall_lt {m : Memory α} {a : Nat} (h : ∀ c ∈ m, a < c.1) :
    Memory.get d m a = d := by
  induction m with
  | nil => rfl
  | cons x m ih =>
    obtain ⟨k, v⟩ := x
    have hk : a < k := h (k, v) (by simp)
    rw [Memory.get_cons, if_neg (by omega)]
    exact ih fun c hc => h c (by simp [hc])

/-- A value other than the default stands in a pair. -/
theorem Memory.mem_of_get_ne {m : Memory α} {a : Nat} (h : Memory.get d m a ≠ d) :
    (a, Memory.get d m a) ∈ m := by
  induction m with
  | nil => exact absurd rfl h
  | cons x m ih =>
    obtain ⟨k, v⟩ := x
    rw [Memory.get_cons] at h ⊢
    split at h
    · rename_i hk; subst hk; simp
    · rename_i hk; rw [if_neg hk]; exact List.mem_cons_of_mem _ (ih h)

variable [DecidableEq α]

/-- A write leaves every other index alone. -/
theorem Memory.get_set_other {m : Memory α} {a b : Nat} {v : α} (h : a ≠ b) :
    Memory.get d (Memory.set d m a v) b = Memory.get d m b := by
  induction m with
  | nil => unfold Memory.set; split <;> simp [Memory.get_cons, h]
  | cons x m ih =>
    obtain ⟨k, w⟩ := x
    unfold Memory.set
    split
    · split
      · rfl
      · simp [Memory.get_cons, h]
    · split
      · rename_i hk; subst hk
        split <;> simp [Memory.get_cons, h]
      · simp [Memory.get_cons, ih]

/-- A value other than the default reads back. -/
theorem Memory.get_set_same_of_ne {m : Memory α} {a : Nat} {v : α} (h : v ≠ d) :
    Memory.get d (Memory.set d m a v) a = v := by
  induction m with
  | nil => simp [Memory.set, h, Memory.get_cons]
  | cons x m ih =>
    obtain ⟨k, w⟩ := x
    unfold Memory.set
    rw [if_neg h, if_neg h]
    split
    · simp [Memory.get_cons]
    · split
      · simp [Memory.get_cons]
      · rename_i h1 h2
        rw [Memory.get_cons, if_neg (Ne.symm h2), ih]

/-- Any value reads back from an array in canonical form. -/
theorem Memory.get_set_same {m : Memory α} {a : Nat} {v : α} (hm : Memory.wf size d m) :
    Memory.get d (Memory.set d m a v) a = v := by
  by_cases h : v = d
  · subst h
    induction m with
    | nil => simp [Memory.set]
    | cons x m ih =>
      obtain ⟨k, w⟩ := x
      obtain ⟨hs, hb⟩ := hm
      rw [List.pairwise_cons] at hs
      unfold Memory.set
      split
      · rename_i hk
        simp only [if_true]
        refine Memory.get_of_forall_lt fun c hc => ?_
        rcases List.mem_cons.1 hc with rfl | hc
        · exact hk
        · exact Nat.lt_trans hk (hs.1 c hc)
      · split
        · rename_i hk; subst hk
          simp only [if_true]
          exact Memory.get_of_forall_lt hs.1
        · rename_i h1 h2
          rw [Memory.get_cons, if_neg (Ne.symm h2)]
          exact ih ⟨hs.2, fun c hc => hb c (by simp [hc])⟩
  · exact Memory.get_set_same_of_ne h

/-- The empty array is in canonical form. -/
theorem Memory.wf_nil : Memory.wf size d ([] : Memory α) := by simp [Memory.wf]

/-- Every pair of an array after a write is the one written or an old one. -/
theorem Memory.mem_set {m : Memory α} {a : Nat} {v : α} {c : Nat × α}
    (hc : c ∈ Memory.set d m a v) : c = (a, v) ∨ c ∈ m := by
  induction m with
  | nil => unfold Memory.set at hc; split at hc <;> simp_all
  | cons x m ih =>
    obtain ⟨k, w⟩ := x
    unfold Memory.set at hc
    split at hc
    · split at hc
      · exact .inr hc
      · simpa using hc
    · split at hc
      · split at hc
        · exact .inr (by simp [hc])
        · rcases List.mem_cons.1 hc with rfl | h
          · exact .inl rfl
          · exact .inr (by simp [h])
      · rcases List.mem_cons.1 hc with rfl | h
        · exact .inr (by simp)
        · exact (ih h).imp_right fun h => by simp [h]

/-- A write inside the array keeps the canonical form. -/
theorem Memory.wf_set {m : Memory α} {a : Nat} {v : α} (hm : Memory.wf size d m) (ha : a < size) :
    Memory.wf size d (Memory.set d m a v) := by
  induction m with
  | nil =>
    unfold Memory.set
    split
    · exact Memory.wf_nil
    · rename_i h; simp [Memory.wf, ha, h]
  | cons x m ih =>
    obtain ⟨k, w⟩ := x
    obtain ⟨hs, hb⟩ := hm
    rw [List.pairwise_cons] at hs
    have hb' : ∀ c ∈ m, c.1 < size ∧ c.2 ≠ d := fun c hc => hb c (by simp [hc])
    unfold Memory.set
    split
    · rename_i hk
      split
      · exact ⟨List.pairwise_cons.2 hs, hb⟩
      · rename_i hv
        refine ⟨List.pairwise_cons.2 ⟨fun c hc => ?_, List.pairwise_cons.2 hs⟩, fun c hc => ?_⟩
        · rcases List.mem_cons.1 hc with rfl | hc
          · exact hk
          · exact Nat.lt_trans hk (hs.1 c hc)
        · rcases List.mem_cons.1 hc with rfl | hc
          · exact ⟨ha, hv⟩
          · exact hb c hc
    · split
      · rename_i h1 hk; subst hk
        split
        · exact ⟨hs.2, hb'⟩
        · rename_i hv
          refine ⟨List.pairwise_cons.2 ⟨hs.1, hs.2⟩, fun c hc => ?_⟩
          rcases List.mem_cons.1 hc with rfl | hc
          · exact ⟨ha, hv⟩
          · exact hb' c hc
      · rename_i h1 h2
        obtain ⟨i1, i2⟩ := ih ⟨hs.2, hb'⟩
        refine ⟨List.pairwise_cons.2 ⟨fun c hc => ?_, i1⟩, fun c hc => ?_⟩
        · rcases Memory.mem_set hc with rfl | hc
          · show k < a; omega
          · exact hs.1 c hc
        · rcases List.mem_cons.1 hc with rfl | hc
          · exact hb (k, w) (by simp)
          · exact i2 c hc

/-- Canonical arrays that read alike at every index are the same list. -/
theorem Memory.ext_of_wf {m₁ m₂ : Memory α} (h₁ : Memory.wf size d m₁) (h₂ : Memory.wf size d m₂)
    (h : ∀ a, Memory.get d m₁ a = Memory.get d m₂ a) : m₁ = m₂ := by
  induction m₁ generalizing m₂ with
  | nil =>
    cases m₂ with
    | nil => rfl
    | cons x m =>
      have := h x.1
      obtain ⟨k, v⟩ := x
      rw [Memory.get_nil, Memory.get_cons, if_pos rfl] at this
      exact absurd this.symm (h₂.2 (k, v) (by simp)).2
  | cons x m ih =>
    obtain ⟨k, v⟩ := x
    obtain ⟨s₁, b₁⟩ := h₁
    rw [List.pairwise_cons] at s₁
    cases m₂ with
    | nil =>
      have := h k
      rw [Memory.get_nil, Memory.get_cons, if_pos rfl] at this
      exact absurd this (b₁ (k, v) (by simp)).2
    | cons y n =>
      obtain ⟨l, w⟩ := y
      obtain ⟨s₂, b₂⟩ := h₂
      rw [List.pairwise_cons] at s₂
      have hkl : k = l := by
        rcases Nat.lt_trichotomy k l with hlt | heq | hgt
        · have := h k
          rw [Memory.get_cons, if_pos rfl, Memory.get_cons, if_neg (by omega),
            Memory.get_of_forall_lt fun c hc => Nat.lt_trans hlt (s₂.1 c hc)] at this
          exact absurd this (b₁ (k, v) (by simp)).2
        · exact heq
        · have := h l
          rw [Memory.get_cons, if_neg (by omega), Memory.get_cons, if_pos rfl,
            Memory.get_of_forall_lt fun c hc => Nat.lt_trans hgt (s₁.1 c hc)] at this
          exact absurd this.symm (b₂ (l, w) (by simp)).2
      subst hkl
      have hvw : v = w := by simpa [Memory.get_cons] using h k
      subst hvw
      congr 1
      refine ih ⟨s₁.2, fun c hc => b₁ c (by simp [hc])⟩ ⟨s₂.2, fun c hc => b₂ c (by simp [hc])⟩ ?_
      intro a
      have := h a
      rw [Memory.get_cons, Memory.get_cons] at this
      by_cases hka : k = a
      · subst hka
        rw [Memory.get_of_forall_lt s₁.1, Memory.get_of_forall_lt s₂.1]
      · rwa [if_neg hka, if_neg hka] at this

end Sys2Proof.Machine
end

