-- ==== Sys2Proof/Laws/Operands.lean ====
section
/-! SUPPORT. Bits of the words and bytes that Machine/Operands.lean and Safety.lean build, and the
fields of a beat after it has been a number. -/

namespace Sys2Proof.Machine

/-- The bits of a word built from a rule are those the rule gives. -/
@[simp] theorem wordOfBits_getLsbD (n : Nat) (f : Nat → Bool) (i : Nat) :
    (wordOfBits n f).getLsbD i = (decide (i < n) && f i) := by
  induction n with
  | zero => simp [wordOfBits]
  | succ k ih =>
    unfold wordOfBits
    rw [BitVec.getLsbD_cons, ih]
    by_cases h : i = k
    · subst h; simp
    · have : i < k + 1 ↔ i < k := by omega
      simp [h, this]

/-- `setBit` writes one bit of the eight and leaves the others. -/
@[simp] theorem setBit_getLsbD (x : Byte) (i : Nat) (b : Bool) (j : Nat) :
    (setBit x i b).getLsbD j = (decide (j < 8) && if j = i then b else x.getLsbD j) := by
  simp [setBit]

/-- Code bit `32 * k + j` stands in bit `31 - j` of CODE_BITSk (10_state.md R26). -/
theorem codeBitsWord_getLsbD (k : Nat) (c : Code) (j : Nat) (h : j < 32) :
    (codeBitsWord k c).getLsbD (31 - j) = codeBit c (32 * k + j) := by
  have h1 : 31 - (31 - j) = j := by omega
  simp [codeBitsWord, h1]
  omega

/-- Two bytes with the same bits are equal. -/
theorem byte_ext (x y : Byte) (h : ∀ i, i < 8 → x.getLsbD i = y.getLsbD i) : x = y :=
  BitVec.eq_of_getLsbD_eq h

@[simp] theorem byteBits_length (x : Byte) (n : Nat) : (byteBits x n).length = n := by
  simp [byteBits]

theorem byteBits_getElem (x : Byte) (n i : Nat) (h : i < (byteBits x n).length) :
    (byteBits x n)[i] = x.getLsbD (7 - i) := by
  simp [byteBits]

@[simp] theorem byteBits_zero (x : Byte) : byteBits x 0 = [] := rfl

/-- One more bit of a byte. -/
theorem byteBits_succ (x : Byte) (n : Nat) :
    byteBits x (n + 1) = byteBits x n ++ [x.getLsbD (7 - n)] := by
  simp [byteBits, List.range_succ]

/-- The first bits of a byte depend on those bits alone. -/
theorem byteBits_congr (x y : Byte) (n : Nat)
    (h : ∀ j, j < n → x.getLsbD (7 - j) = y.getLsbD (7 - j)) : byteBits x n = byteBits y n := by
  unfold byteBits
  exact List.map_congr_left fun j hj => h j (List.mem_range.1 hj)

/-- The bits of a symbol beat's number (30_encoding.md R69). -/
theorem symBeat_toBits_getLsbD (b : SymBeat) (i : Nat) :
    b.toBits.getLsbD i = if i < 8 then b.sym.getLsbD i else (decide (i = 8) && b.eos) := by
  refine (BitVec.getLsbD_append (x := BitVec.ofBool b.eos) (y := b.sym) (i := i)).trans ?_
  by_cases h : i < 8
  · simp [h]
  · by_cases h8 : i = 8
    · simp [h8]
    · have h9 : i - 8 ≠ 0 := by omega
      cases b.eos <;> simp [h, h8, h9]

/-- The bits of a byte beat's number (30_encoding.md R70). -/
theorem byteBeat_toBits_getLsbD (b : ByteBeat) (i : Nat) :
    b.toBits.getLsbD i = if i < 8 then b.data.getLsbD i
      else if i < 12 then b.nvalid.getLsbD (i - 8) else (decide (i = 12) && b.last) := by
  refine (BitVec.getLsbD_append (x := BitVec.ofBool b.last ++ b.nvalid) (y := b.data)
    (i := i)).trans ?_
  rw [BitVec.getLsbD_append]
  by_cases h : i < 8
  · simp [h]
  · by_cases h12 : i < 12
    · have : i - 8 < 4 := by omega
      simp [h, h12, this]
    · have h4 : ¬ i - 8 < 4 := by omega
      by_cases h8 : i = 12
      · simp [h8]
      · have h9 : i - 8 - 4 ≠ 0 := by omega
        cases b.last <;> simp [h, h12, h4, h8, h9]

/-- A symbol beat comes back from its number. -/
@[simp] theorem symBeat_ofBits_toBits (b : SymBeat) : SymBeat.ofBits b.toBits = b := by
  obtain ⟨e, c⟩ := b
  simp only [SymBeat.ofBits, SymBeat.mk.injEq]
  refine ⟨(symBeat_toBits_getLsbD _ 8).trans (by simp), BitVec.eq_of_getLsbD_eq fun i hi => ?_⟩
  rw [BitVec.getLsbD_extractLsb']
  simp [symBeat_toBits_getLsbD, hi]

/-- A byte beat comes back from its number. -/
@[simp] theorem byteBeat_ofBits_toBits (b : ByteBeat) : ByteBeat.ofBits b.toBits = b := by
  obtain ⟨l, n, d⟩ := b
  simp only [ByteBeat.ofBits, ByteBeat.mk.injEq]
  refine ⟨(byteBeat_toBits_getLsbD _ 12).trans (by simp), BitVec.eq_of_getLsbD_eq fun i hi => ?_,
    BitVec.eq_of_getLsbD_eq fun i hi => ?_⟩ <;> rw [BitVec.getLsbD_extractLsb']
  · have h : 8 + i < 12 := by omega
    simp [byteBeat_toBits_getLsbD, hi, h]
  · simp [byteBeat_toBits_getLsbD, hi]

end Sys2Proof.Machine
end

