-- ==== Sys2Proof/Laws/State.lean ====
section
/-! SUPPORT. What each plain update of the state does to every field: for each operation one lemma,
a conjunction that simp uses field by field. -/

namespace Sys2Proof.Machine

variable (s : State)

/-- The fields after tree_invalidate (10_state.md R38). -/
@[simp] theorem treeInvalidate_fields :
    (treeInvalidate s).phase = s.phase ∧ (treeInvalidate s).done = s.done ∧
    (treeInvalidate s).treeValid = false ∧ (treeInvalidate s).tableValid = false ∧
    (treeInvalidate s).rootLeaf = false ∧ (treeInvalidate s).errCode = s.errCode ∧
    (treeInvalidate s).errMulti = s.errMulti ∧ (treeInvalidate s).errInfo = s.errInfo ∧
    (treeInvalidate s).doneIe = s.doneIe ∧ (treeInvalidate s).errIe = s.errIe ∧
    (treeInvalidate s).root = s.root ∧ (treeInvalidate s).nodeAddr = s.nodeAddr ∧
    (treeInvalidate s).codeSel = s.codeSel ∧ (treeInvalidate s).nleaf = 0 ∧
    (treeInvalidate s).encSymcnt = s.encSymcnt ∧ (treeInvalidate s).encBitcnt = s.encBitcnt ∧
    (treeInvalidate s).decSymcnt = s.decSymcnt ∧ (treeInvalidate s).decBitcnt = s.decBitcnt ∧
    (treeInvalidate s).node = s.node ∧ (treeInvalidate s).nvalid = s.nvalid ∧
    (treeInvalidate s).table = [] ∧ (treeInvalidate s).acc = s.acc ∧
    (treeInvalidate s).nb = s.nb ∧ (treeInvalidate s).shr = s.shr ∧
    (treeInvalidate s).rem = s.rem ∧ (treeInvalidate s).endseen = s.endseen ∧
    (treeInvalidate s).cur = s.cur ∧ (treeInvalidate s).symIn = s.symIn ∧
    (treeInvalidate s).byteIn = s.byteIn ∧ (treeInvalidate s).byteOut = s.byteOut ∧
    (treeInvalidate s).symOut = s.symOut ∧ (treeInvalidate s).hRdata = s.hRdata ∧
    (treeInvalidate s).rst = s.rst ∧ (treeInvalidate s).script = s.script ∧
    (treeInvalidate s).draws = s.draws := by
  simp [treeInvalidate]

/-- The fields after raise (60_exceptions.md R150). -/
@[simp] theorem raise_fields (c : ErrorCode) (i : Word) :
    (raise c i s).phase = s.phase ∧ (raise c i s).done = s.done ∧
    (raise c i s).treeValid = s.treeValid ∧ (raise c i s).tableValid = s.tableValid ∧
    (raise c i s).rootLeaf = s.rootLeaf ∧
    (raise c i s).errCode = (if s.errCode = 0 then c.code else s.errCode) ∧
    (raise c i s).errMulti = (if s.errCode = 0 then s.errMulti else true) ∧
    (raise c i s).errInfo = (if s.errCode = 0 then i else s.errInfo) ∧
    (raise c i s).doneIe = s.doneIe ∧ (raise c i s).errIe = s.errIe ∧
    (raise c i s).root = s.root ∧ (raise c i s).nodeAddr = s.nodeAddr ∧
    (raise c i s).codeSel = s.codeSel ∧ (raise c i s).nleaf = s.nleaf ∧
    (raise c i s).encSymcnt = s.encSymcnt ∧ (raise c i s).encBitcnt = s.encBitcnt ∧
    (raise c i s).decSymcnt = s.decSymcnt ∧ (raise c i s).decBitcnt = s.decBitcnt ∧
    (raise c i s).node = s.node ∧ (raise c i s).nvalid = s.nvalid ∧
    (raise c i s).table = s.table ∧ (raise c i s).acc = s.acc ∧ (raise c i s).nb = s.nb ∧
    (raise c i s).shr = s.shr ∧ (raise c i s).rem = s.rem ∧ (raise c i s).endseen = s.endseen ∧
    (raise c i s).cur = s.cur ∧ (raise c i s).symIn = s.symIn ∧ (raise c i s).byteIn = s.byteIn ∧
    (raise c i s).byteOut = s.byteOut ∧ (raise c i s).symOut = s.symOut ∧
    (raise c i s).hRdata = s.hRdata ∧ (raise c i s).rst = s.rst ∧
    (raise c i s).script = s.script ∧ (raise c i s).draws = s.draws := by
  simp [raise]

/-- The fields after ACK (40_commands.md R92). -/
@[simp] theorem ackError_fields :
    (ackError s).phase = s.phase ∧ (ackError s).done = false ∧
    (ackError s).treeValid = s.treeValid ∧ (ackError s).tableValid = s.tableValid ∧
    (ackError s).rootLeaf = s.rootLeaf ∧ (ackError s).errCode = 0 ∧
    (ackError s).errMulti = false ∧ (ackError s).errInfo = 0 ∧ (ackError s).doneIe = s.doneIe ∧
    (ackError s).errIe = s.errIe ∧ (ackError s).root = s.root ∧
    (ackError s).nodeAddr = s.nodeAddr ∧ (ackError s).codeSel = s.codeSel ∧
    (ackError s).nleaf = s.nleaf ∧ (ackError s).encSymcnt = s.encSymcnt ∧
    (ackError s).encBitcnt = s.encBitcnt ∧ (ackError s).decSymcnt = s.decSymcnt ∧
    (ackError s).decBitcnt = s.decBitcnt ∧ (ackError s).node = s.node ∧
    (ackError s).nvalid = s.nvalid ∧ (ackError s).table = s.table ∧ (ackError s).acc = s.acc ∧
    (ackError s).nb = s.nb ∧ (ackError s).shr = s.shr ∧ (ackError s).rem = s.rem ∧
    (ackError s).endseen = s.endseen ∧ (ackError s).cur = s.cur ∧ (ackError s).symIn = s.symIn ∧
    (ackError s).byteIn = s.byteIn ∧ (ackError s).byteOut = s.byteOut ∧
    (ackError s).symOut = s.symOut ∧ (ackError s).hRdata = s.hRdata ∧ (ackError s).rst = s.rst ∧
    (ackError s).script = s.script ∧ (ackError s).draws = s.draws := by
  simp [ackError]

/-- The fields after emit BYTE_OUT (10_state.md R41). -/
@[simp] theorem emitByte_fields (b : ByteBeat) :
    (emitByte b s).phase = s.phase ∧ (emitByte b s).done = s.done ∧
    (emitByte b s).treeValid = s.treeValid ∧ (emitByte b s).tableValid = s.tableValid ∧
    (emitByte b s).rootLeaf = s.rootLeaf ∧ (emitByte b s).errCode = s.errCode ∧
    (emitByte b s).errMulti = s.errMulti ∧ (emitByte b s).errInfo = s.errInfo ∧
    (emitByte b s).doneIe = s.doneIe ∧ (emitByte b s).errIe = s.errIe ∧
    (emitByte b s).root = s.root ∧ (emitByte b s).nodeAddr = s.nodeAddr ∧
    (emitByte b s).codeSel = s.codeSel ∧ (emitByte b s).nleaf = s.nleaf ∧
    (emitByte b s).encSymcnt = s.encSymcnt ∧ (emitByte b s).encBitcnt = s.encBitcnt ∧
    (emitByte b s).decSymcnt = s.decSymcnt ∧ (emitByte b s).decBitcnt = s.decBitcnt ∧
    (emitByte b s).node = s.node ∧ (emitByte b s).nvalid = s.nvalid ∧
    (emitByte b s).table = s.table ∧ (emitByte b s).acc = s.acc ∧ (emitByte b s).nb = s.nb ∧
    (emitByte b s).shr = s.shr ∧ (emitByte b s).rem = s.rem ∧
    (emitByte b s).endseen = s.endseen ∧ (emitByte b s).cur = s.cur ∧
    (emitByte b s).symIn = s.symIn ∧ (emitByte b s).byteIn = s.byteIn ∧
    (emitByte b s).byteOut = s.byteOut ++ [b] ∧ (emitByte b s).symOut = s.symOut ∧
    (emitByte b s).hRdata = s.hRdata ∧ (emitByte b s).rst = s.rst ∧
    (emitByte b s).script = s.script ∧ (emitByte b s).draws = s.draws := by
  simp [emitByte]

/-- The fields after emit SYM_OUT (10_state.md R43). -/
@[simp] theorem emitSym_fields (b : SymBeat) :
    (emitSym b s).phase = s.phase ∧ (emitSym b s).done = s.done ∧
    (emitSym b s).treeValid = s.treeValid ∧ (emitSym b s).tableValid = s.tableValid ∧
    (emitSym b s).rootLeaf = s.rootLeaf ∧ (emitSym b s).errCode = s.errCode ∧
    (emitSym b s).errMulti = s.errMulti ∧ (emitSym b s).errInfo = s.errInfo ∧
    (emitSym b s).doneIe = s.doneIe ∧ (emitSym b s).errIe = s.errIe ∧
    (emitSym b s).root = s.root ∧ (emitSym b s).nodeAddr = s.nodeAddr ∧
    (emitSym b s).codeSel = s.codeSel ∧ (emitSym b s).nleaf = s.nleaf ∧
    (emitSym b s).encSymcnt = s.encSymcnt ∧ (emitSym b s).encBitcnt = s.encBitcnt ∧
    (emitSym b s).decSymcnt = s.decSymcnt ∧ (emitSym b s).decBitcnt = s.decBitcnt ∧
    (emitSym b s).node = s.node ∧ (emitSym b s).nvalid = s.nvalid ∧
    (emitSym b s).table = s.table ∧ (emitSym b s).acc = s.acc ∧ (emitSym b s).nb = s.nb ∧
    (emitSym b s).shr = s.shr ∧ (emitSym b s).rem = s.rem ∧ (emitSym b s).endseen = s.endseen ∧
    (emitSym b s).cur = s.cur ∧ (emitSym b s).symIn = s.symIn ∧ (emitSym b s).byteIn = s.byteIn ∧
    (emitSym b s).byteOut = s.byteOut ∧ (emitSym b s).symOut = s.symOut ++ [b] ∧
    (emitSym b s).hRdata = s.hRdata ∧ (emitSym b s).rst = s.rst ∧
    (emitSym b s).script = s.script ∧ (emitSym b s).draws = s.draws := by
  simp [emitSym]

/-- The fields after take SYM_IN (10_state.md R40). -/
@[simp] theorem takeSym_fields :
    (takeSym s).phase = s.phase ∧ (takeSym s).done = s.done ∧
    (takeSym s).treeValid = s.treeValid ∧ (takeSym s).tableValid = s.tableValid ∧
    (takeSym s).rootLeaf = s.rootLeaf ∧ (takeSym s).errCode = s.errCode ∧
    (takeSym s).errMulti = s.errMulti ∧ (takeSym s).errInfo = s.errInfo ∧
    (takeSym s).doneIe = s.doneIe ∧ (takeSym s).errIe = s.errIe ∧ (takeSym s).root = s.root ∧
    (takeSym s).nodeAddr = s.nodeAddr ∧ (takeSym s).codeSel = s.codeSel ∧
    (takeSym s).nleaf = s.nleaf ∧ (takeSym s).encSymcnt = s.encSymcnt ∧
    (takeSym s).encBitcnt = s.encBitcnt ∧ (takeSym s).decSymcnt = s.decSymcnt ∧
    (takeSym s).decBitcnt = s.decBitcnt ∧ (takeSym s).node = s.node ∧
    (takeSym s).nvalid = s.nvalid ∧ (takeSym s).table = s.table ∧ (takeSym s).acc = s.acc ∧
    (takeSym s).nb = s.nb ∧ (takeSym s).shr = s.shr ∧ (takeSym s).rem = s.rem ∧
    (takeSym s).endseen = s.endseen ∧ (takeSym s).cur = s.cur ∧
    (takeSym s).symIn = s.symIn.tail ∧ (takeSym s).byteIn = s.byteIn ∧
    (takeSym s).byteOut = s.byteOut ∧ (takeSym s).symOut = s.symOut ∧
    (takeSym s).hRdata = s.hRdata ∧ (takeSym s).rst = s.rst ∧ (takeSym s).script = s.script ∧
    (takeSym s).draws = s.draws := by
  simp [takeSym]

/-- The fields after take BYTE_IN (10_state.md R42). -/
@[simp] theorem takeByte_fields :
    (takeByte s).phase = s.phase ∧ (takeByte s).done = s.done ∧
    (takeByte s).treeValid = s.treeValid ∧ (takeByte s).tableValid = s.tableValid ∧
    (takeByte s).rootLeaf = s.rootLeaf ∧ (takeByte s).errCode = s.errCode ∧
    (takeByte s).errMulti = s.errMulti ∧ (takeByte s).errInfo = s.errInfo ∧
    (takeByte s).doneIe = s.doneIe ∧ (takeByte s).errIe = s.errIe ∧ (takeByte s).root = s.root ∧
    (takeByte s).nodeAddr = s.nodeAddr ∧ (takeByte s).codeSel = s.codeSel ∧
    (takeByte s).nleaf = s.nleaf ∧ (takeByte s).encSymcnt = s.encSymcnt ∧
    (takeByte s).encBitcnt = s.encBitcnt ∧ (takeByte s).decSymcnt = s.decSymcnt ∧
    (takeByte s).decBitcnt = s.decBitcnt ∧ (takeByte s).node = s.node ∧
    (takeByte s).nvalid = s.nvalid ∧ (takeByte s).table = s.table ∧ (takeByte s).acc = s.acc ∧
    (takeByte s).nb = s.nb ∧ (takeByte s).shr = s.shr ∧ (takeByte s).rem = s.rem ∧
    (takeByte s).endseen = s.endseen ∧ (takeByte s).cur = s.cur ∧ (takeByte s).symIn = s.symIn ∧
    (takeByte s).byteIn = s.byteIn.tail ∧ (takeByte s).byteOut = s.byteOut ∧
    (takeByte s).symOut = s.symOut ∧ (takeByte s).hRdata = s.hRdata ∧ (takeByte s).rst = s.rst ∧
    (takeByte s).script = s.script ∧ (takeByte s).draws = s.draws := by
  simp [takeByte]

/-- The fields after a producer's append to SYM_IN (10_state.md R40). -/
@[simp] theorem appendSym_fields (b : SymBeat) :
    (appendSym b s).phase = s.phase ∧ (appendSym b s).done = s.done ∧
    (appendSym b s).treeValid = s.treeValid ∧ (appendSym b s).tableValid = s.tableValid ∧
    (appendSym b s).rootLeaf = s.rootLeaf ∧ (appendSym b s).errCode = s.errCode ∧
    (appendSym b s).errMulti = s.errMulti ∧ (appendSym b s).errInfo = s.errInfo ∧
    (appendSym b s).doneIe = s.doneIe ∧ (appendSym b s).errIe = s.errIe ∧
    (appendSym b s).root = s.root ∧ (appendSym b s).nodeAddr = s.nodeAddr ∧
    (appendSym b s).codeSel = s.codeSel ∧ (appendSym b s).nleaf = s.nleaf ∧
    (appendSym b s).encSymcnt = s.encSymcnt ∧ (appendSym b s).encBitcnt = s.encBitcnt ∧
    (appendSym b s).decSymcnt = s.decSymcnt ∧ (appendSym b s).decBitcnt = s.decBitcnt ∧
    (appendSym b s).node = s.node ∧ (appendSym b s).nvalid = s.nvalid ∧
    (appendSym b s).table = s.table ∧ (appendSym b s).acc = s.acc ∧ (appendSym b s).nb = s.nb ∧
    (appendSym b s).shr = s.shr ∧ (appendSym b s).rem = s.rem ∧
    (appendSym b s).endseen = s.endseen ∧ (appendSym b s).cur = s.cur ∧
    (appendSym b s).symIn = s.symIn ++ [b] ∧ (appendSym b s).byteIn = s.byteIn ∧
    (appendSym b s).byteOut = s.byteOut ∧ (appendSym b s).symOut = s.symOut ∧
    (appendSym b s).hRdata = s.hRdata ∧ (appendSym b s).rst = s.rst ∧
    (appendSym b s).script = s.script ∧ (appendSym b s).draws = s.draws := by
  simp [appendSym]

/-- The fields after a producer's append to BYTE_IN (10_state.md R42). -/
@[simp] theorem appendByte_fields (b : ByteBeat) :
    (appendByte b s).phase = s.phase ∧ (appendByte b s).done = s.done ∧
    (appendByte b s).treeValid = s.treeValid ∧ (appendByte b s).tableValid = s.tableValid ∧
    (appendByte b s).rootLeaf = s.rootLeaf ∧ (appendByte b s).errCode = s.errCode ∧
    (appendByte b s).errMulti = s.errMulti ∧ (appendByte b s).errInfo = s.errInfo ∧
    (appendByte b s).doneIe = s.doneIe ∧ (appendByte b s).errIe = s.errIe ∧
    (appendByte b s).root = s.root ∧ (appendByte b s).nodeAddr = s.nodeAddr ∧
    (appendByte b s).codeSel = s.codeSel ∧ (appendByte b s).nleaf = s.nleaf ∧
    (appendByte b s).encSymcnt = s.encSymcnt ∧ (appendByte b s).encBitcnt = s.encBitcnt ∧
    (appendByte b s).decSymcnt = s.decSymcnt ∧ (appendByte b s).decBitcnt = s.decBitcnt ∧
    (appendByte b s).node = s.node ∧ (appendByte b s).nvalid = s.nvalid ∧
    (appendByte b s).table = s.table ∧ (appendByte b s).acc = s.acc ∧
    (appendByte b s).nb = s.nb ∧ (appendByte b s).shr = s.shr ∧ (appendByte b s).rem = s.rem ∧
    (appendByte b s).endseen = s.endseen ∧ (appendByte b s).cur = s.cur ∧
    (appendByte b s).symIn = s.symIn ∧ (appendByte b s).byteIn = s.byteIn ++ [b] ∧
    (appendByte b s).byteOut = s.byteOut ∧ (appendByte b s).symOut = s.symOut ∧
    (appendByte b s).hRdata = s.hRdata ∧ (appendByte b s).rst = s.rst ∧
    (appendByte b s).script = s.script ∧ (appendByte b s).draws = s.draws := by
  simp [appendByte]

/-- The fields after pack_reset (42_bitpack.md R110). -/
@[simp] theorem packReset_fields :
    (packReset s).phase = s.phase ∧ (packReset s).done = s.done ∧
    (packReset s).treeValid = s.treeValid ∧ (packReset s).tableValid = s.tableValid ∧
    (packReset s).rootLeaf = s.rootLeaf ∧ (packReset s).errCode = s.errCode ∧
    (packReset s).errMulti = s.errMulti ∧ (packReset s).errInfo = s.errInfo ∧
    (packReset s).doneIe = s.doneIe ∧ (packReset s).errIe = s.errIe ∧
    (packReset s).root = s.root ∧ (packReset s).nodeAddr = s.nodeAddr ∧
    (packReset s).codeSel = s.codeSel ∧ (packReset s).nleaf = s.nleaf ∧
    (packReset s).encSymcnt = s.encSymcnt ∧ (packReset s).encBitcnt = s.encBitcnt ∧
    (packReset s).decSymcnt = s.decSymcnt ∧ (packReset s).decBitcnt = s.decBitcnt ∧
    (packReset s).node = s.node ∧ (packReset s).nvalid = s.nvalid ∧
    (packReset s).table = s.table ∧ (packReset s).acc = 0 ∧ (packReset s).nb = 0 ∧
    (packReset s).shr = s.shr ∧ (packReset s).rem = s.rem ∧ (packReset s).endseen = s.endseen ∧
    (packReset s).cur = s.cur ∧ (packReset s).symIn = s.symIn ∧ (packReset s).byteIn = s.byteIn ∧
    (packReset s).byteOut = s.byteOut ∧ (packReset s).symOut = s.symOut ∧
    (packReset s).hRdata = s.hRdata ∧ (packReset s).rst = s.rst ∧
    (packReset s).script = s.script ∧ (packReset s).draws = s.draws := by
  simp [packReset]

/-- The fields after unpack_reset (42_bitpack.md R113). -/
@[simp] theorem unpackReset_fields :
    (unpackReset s).phase = s.phase ∧ (unpackReset s).done = s.done ∧
    (unpackReset s).treeValid = s.treeValid ∧ (unpackReset s).tableValid = s.tableValid ∧
    (unpackReset s).rootLeaf = s.rootLeaf ∧ (unpackReset s).errCode = s.errCode ∧
    (unpackReset s).errMulti = s.errMulti ∧ (unpackReset s).errInfo = s.errInfo ∧
    (unpackReset s).doneIe = s.doneIe ∧ (unpackReset s).errIe = s.errIe ∧
    (unpackReset s).root = s.root ∧ (unpackReset s).nodeAddr = s.nodeAddr ∧
    (unpackReset s).codeSel = s.codeSel ∧ (unpackReset s).nleaf = s.nleaf ∧
    (unpackReset s).encSymcnt = s.encSymcnt ∧ (unpackReset s).encBitcnt = s.encBitcnt ∧
    (unpackReset s).decSymcnt = s.decSymcnt ∧ (unpackReset s).decBitcnt = s.decBitcnt ∧
    (unpackReset s).node = s.node ∧ (unpackReset s).nvalid = s.nvalid ∧
    (unpackReset s).table = s.table ∧ (unpackReset s).acc = s.acc ∧ (unpackReset s).nb = s.nb ∧
    (unpackReset s).shr = 0 ∧ (unpackReset s).rem = 0 ∧ (unpackReset s).endseen = false ∧
    (unpackReset s).cur = s.cur ∧ (unpackReset s).symIn = s.symIn ∧
    (unpackReset s).byteIn = s.byteIn ∧ (unpackReset s).byteOut = s.byteOut ∧
    (unpackReset s).symOut = s.symOut ∧ (unpackReset s).hRdata = s.hRdata ∧
    (unpackReset s).rst = s.rst ∧ (unpackReset s).script = s.script ∧
    (unpackReset s).draws = s.draws := by
  simp [unpackReset]

/-- The fields after MemWrite(TREE, n, w) (00_scope.md section 7). -/
@[simp] theorem writeNode_fields (n : NodeIndex) (w : NodeWord) :
    (writeNode n w s).phase = s.phase ∧ (writeNode n w s).done = s.done ∧
    (writeNode n w s).treeValid = s.treeValid ∧ (writeNode n w s).tableValid = s.tableValid ∧
    (writeNode n w s).rootLeaf = s.rootLeaf ∧ (writeNode n w s).errCode = s.errCode ∧
    (writeNode n w s).errMulti = s.errMulti ∧ (writeNode n w s).errInfo = s.errInfo ∧
    (writeNode n w s).doneIe = s.doneIe ∧ (writeNode n w s).errIe = s.errIe ∧
    (writeNode n w s).root = s.root ∧ (writeNode n w s).nodeAddr = s.nodeAddr ∧
    (writeNode n w s).codeSel = s.codeSel ∧ (writeNode n w s).nleaf = s.nleaf ∧
    (writeNode n w s).encSymcnt = s.encSymcnt ∧ (writeNode n w s).encBitcnt = s.encBitcnt ∧
    (writeNode n w s).decSymcnt = s.decSymcnt ∧ (writeNode n w s).decBitcnt = s.decBitcnt ∧
    (writeNode n w s).node = Memory.set 0 s.node n.toNat w ∧
    (writeNode n w s).nvalid = Memory.set false s.nvalid n.toNat true ∧
    (writeNode n w s).table = s.table ∧ (writeNode n w s).acc = s.acc ∧
    (writeNode n w s).nb = s.nb ∧ (writeNode n w s).shr = s.shr ∧ (writeNode n w s).rem = s.rem ∧
    (writeNode n w s).endseen = s.endseen ∧ (writeNode n w s).cur = s.cur ∧
    (writeNode n w s).symIn = s.symIn ∧ (writeNode n w s).byteIn = s.byteIn ∧
    (writeNode n w s).byteOut = s.byteOut ∧ (writeNode n w s).symOut = s.symOut ∧
    (writeNode n w s).hRdata = s.hRdata ∧ (writeNode n w s).rst = s.rst ∧
    (writeNode n w s).script = s.script ∧ (writeNode n w s).draws = s.draws := by
  simp [writeNode]

/-- The fields after the reset event (70_reset_and_hazards.md R170). -/
@[simp] theorem resetEvent_fields :
    (resetEvent s).phase = .idle ∧ (resetEvent s).done = false ∧
    (resetEvent s).treeValid = false ∧ (resetEvent s).tableValid = false ∧
    (resetEvent s).rootLeaf = false ∧ (resetEvent s).errCode = 0 ∧
    (resetEvent s).errMulti = false ∧ (resetEvent s).errInfo = 0 ∧
    (resetEvent s).doneIe = false ∧ (resetEvent s).errIe = false ∧ (resetEvent s).root = 0 ∧
    (resetEvent s).nodeAddr = 0 ∧ (resetEvent s).codeSel = 0 ∧ (resetEvent s).nleaf = 0 ∧
    (resetEvent s).encSymcnt = 0 ∧ (resetEvent s).encBitcnt = 0 ∧ (resetEvent s).decSymcnt = 0 ∧
    (resetEvent s).decBitcnt = 0 ∧ (resetEvent s).node = [] ∧ (resetEvent s).nvalid = [] ∧
    (resetEvent s).table = [] ∧ (resetEvent s).acc = 0 ∧ (resetEvent s).nb = 0 ∧
    (resetEvent s).shr = 0 ∧ (resetEvent s).rem = 0 ∧ (resetEvent s).endseen = false ∧
    (resetEvent s).cur = 0 ∧ (resetEvent s).symIn = s.symIn ∧ (resetEvent s).byteIn = s.byteIn ∧
    (resetEvent s).byteOut = s.byteOut ∧ (resetEvent s).symOut = s.symOut ∧
    (resetEvent s).hRdata = s.hRdata ∧ (resetEvent s).rst = s.rst ∧
    (resetEvent s).script = s.script ∧ (resetEvent s).draws = s.draws := by
  simp [resetEvent]

/-- The fields after pop_bit (42_bitpack.md R115). -/
@[simp] theorem popBit_fields :
    ((popBit s).2).phase = s.phase ∧ ((popBit s).2).done = s.done ∧
    ((popBit s).2).treeValid = s.treeValid ∧ ((popBit s).2).tableValid = s.tableValid ∧
    ((popBit s).2).rootLeaf = s.rootLeaf ∧ ((popBit s).2).errCode = s.errCode ∧
    ((popBit s).2).errMulti = s.errMulti ∧ ((popBit s).2).errInfo = s.errInfo ∧
    ((popBit s).2).doneIe = s.doneIe ∧ ((popBit s).2).errIe = s.errIe ∧
    ((popBit s).2).root = s.root ∧ ((popBit s).2).nodeAddr = s.nodeAddr ∧
    ((popBit s).2).codeSel = s.codeSel ∧ ((popBit s).2).nleaf = s.nleaf ∧
    ((popBit s).2).encSymcnt = s.encSymcnt ∧ ((popBit s).2).encBitcnt = s.encBitcnt ∧
    ((popBit s).2).decSymcnt = s.decSymcnt ∧ ((popBit s).2).decBitcnt = s.decBitcnt + 1 ∧
    ((popBit s).2).node = s.node ∧ ((popBit s).2).nvalid = s.nvalid ∧
    ((popBit s).2).table = s.table ∧ ((popBit s).2).acc = s.acc ∧ ((popBit s).2).nb = s.nb ∧
    ((popBit s).2).shr = s.shr <<< 1 ∧ ((popBit s).2).rem = s.rem - 1 ∧
    ((popBit s).2).endseen = s.endseen ∧ ((popBit s).2).cur = s.cur ∧
    ((popBit s).2).symIn = s.symIn ∧ ((popBit s).2).byteIn = s.byteIn ∧
    ((popBit s).2).byteOut = s.byteOut ∧ ((popBit s).2).symOut = s.symOut ∧
    ((popBit s).2).hRdata = s.hRdata ∧ ((popBit s).2).rst = s.rst ∧
    ((popBit s).2).script = s.script ∧ ((popBit s).2).draws = s.draws := by
  simp [popBit]

end Sys2Proof.Machine
end

