-- ==== Sys2Proof/Laws/Ops.lean ====
section
/-! SUPPORT. What the packer's and the unpacker's operations do, said once for later proofs to
cite. -/

namespace Sys2Proof.Machine

/-- What pushing bits can change: the packer, the bit counter and the output. -/
structure Pushed (w : List Bool) (s t : State) (beats : List ByteBeat) : Prop where
  frame : t = { s with encBitcnt := s.encBitcnt + BitVec.ofNat 32 w.length,
                       byteOut := s.byteOut ++ beats, acc := t.acc, nb := t.nb }
  full : ∀ b ∈ beats, b.last = false ∧ b.nvalid = 8
  bits : beats.flatMap beatBits ++ byteBits t.acc t.nb.toNat = byteBits s.acc s.nb.toNat ++ w

/-- `push_bit` of the eighth bit (42_bitpack.md R111). -/
theorem pushBit_full (b : Bool) (s : State) (h : s.nb = 7) :
    pushBit b s = { s with encBitcnt := s.encBitcnt + 1, acc := 0, nb := 0,
                           byteOut := s.byteOut ++ [{ last := false, nvalid := 8,
                                                      data := setBit s.acc 0 b }] } := by
  unfold pushBit
  simp only [h, if_true]
  rfl

/-- `push_bit` of an earlier bit (42_bitpack.md R111). -/
theorem pushBit_part (b : Bool) (s : State) (h : s.nb ≠ 7) :
    pushBit b s = { s with encBitcnt := s.encBitcnt + 1,
                           acc := setBit s.acc (7 - s.nb.toNat) b, nb := s.nb + 1 } :=
  if_neg h

theorem nb_lt (s : State) (h : s.nb ≠ 7) :
    s.nb.toNat < 7 ∧ (s.nb + 1).toNat = s.nb.toNat + 1 := by
  have h1 := s.nb.isLt
  have hne : s.nb.toNat ≠ 7 := fun hc => h (BitVec.eq_of_toNat_eq hc)
  refine ⟨by omega, ?_⟩
  rw [BitVec.toNat_add]
  show (s.nb.toNat + 1) % 8 = _
  omega

/-- The pending bits with one more set behind them. -/
theorem byteBits_setBit (x : Byte) (n : Nat) (h : n < 8) (b : Bool) :
    byteBits (setBit x (7 - n) b) (n + 1) = byteBits x n ++ [b] := by
  rw [byteBits_succ]
  congr 1
  · apply byteBits_congr
    intro j hj
    rw [setBit_getLsbD, if_neg (by omega), decide_eq_true (by omega), Bool.true_and]
  · rw [setBit_getLsbD, if_pos rfl, decide_eq_true (by omega), Bool.true_and]

/-- `push_bit` appends one bit to the pending ones (42_bitpack.md R111). -/
theorem pushBit_pushed (b : Bool) (s : State) : ∃ beats, Pushed [b] s (pushBit b s) beats := by
  by_cases h7 : s.nb = 7
  · refine ⟨[{ last := false, nvalid := 8, data := setBit s.acc 0 b }], ?_, by simp, ?_⟩
    · rw [pushBit_full b s h7]; rfl
    · have := byteBits_setBit s.acc s.nb.toNat s.nb.isLt b
      rw [pushBit_full b s h7]
      rw [h7] at this ⊢
      simpa [beatBits, beatCount] using this
  · obtain ⟨hlt, h1⟩ := nb_lt s h7
    refine ⟨[], ?_, by simp, ?_⟩
    · rw [pushBit_part b s h7]; simp
    · rw [pushBit_part b s h7]
      show [] ++ byteBits _ (s.nb + 1).toNat = _
      rw [h1]
      exact byteBits_setBit s.acc s.nb.toNat s.nb.isLt b

/-- Pushing a sequence appends its bits to the pending ones (43_encoder.md R120). -/
theorem pushBits_pushed (w : List Bool) (s : State) :
    ∃ beats, Pushed w s (pushBits w s) beats := by
  induction w generalizing s with
  | nil => exact ⟨[], by simp [pushBits], by simp, by simp [pushBits]⟩
  | cons b w ih =>
    obtain ⟨x, hx⟩ := pushBit_pushed b s
    obtain ⟨y, hy⟩ := ih (pushBit b s)
    have hw : pushBits (b :: w) s = pushBits w (pushBit b s) := rfl
    rw [hw]
    generalize pushBits w (pushBit b s) = u at hy ⊢
    generalize pushBit b s = t at hx hy
    refine ⟨x ++ y, ?_, ?_, ?_⟩
    · rw [hy.frame, hx.frame]
      simp [BitVec.ofNat_add]
      ac_rfl
    · intro c hc
      rcases List.mem_append.1 hc with h | h
      · exact hx.full c h
      · exact hy.full c h
    · rw [List.flatMap_append, List.append_assoc, hy.bits, ← List.append_assoc, hx.bits]
      simp

/-- The unfilled bits of ACC stay 0 (10_state.md R32). -/
theorem pushBit_acc (b : Bool) (s : State)
    (h : ∀ i, i < 8 - s.nb.toNat → s.acc.getLsbD i = false) (i : Nat)
    (hi : i < 8 - (pushBit b s).nb.toNat) : (pushBit b s).acc.getLsbD i = false := by
  by_cases h7 : s.nb = 7
  · rw [pushBit_full b s h7]; simp
  · obtain ⟨hlt, h1⟩ := nb_lt s h7
    rw [pushBit_part b s h7] at hi ⊢
    simp only [h1] at hi
    rw [setBit_getLsbD, if_neg (by omega), h i (by omega), Bool.and_false]

theorem pushBits_acc (w : List Bool) (s : State)
    (h : ∀ i, i < 8 - s.nb.toNat → s.acc.getLsbD i = false) (i : Nat)
    (hi : i < 8 - (pushBits w s).nb.toNat) : (pushBits w s).acc.getLsbD i = false := by
  induction w generalizing s with
  | nil => exact h i hi
  | cons b w ih => exact ih (pushBit b s) (fun i hi => pushBit_acc b s h i hi) hi

/-- What `pop_bit` leaves when a bit is there (42_bitpack.md R115). -/
theorem popBit_spec (s : State) (h : s.rem ≠ 0) :
    (popBit s).1 = s.shr.getLsbD 7 ∧ (popBit s).2.rem.toNat + 1 = s.rem.toNat ∧
    (popBit s).2.shr = s.shr <<< 1 ∧
    (popBit s).2 = { s with shr := (popBit s).2.shr, rem := (popBit s).2.rem,
                            decBitcnt := s.decBitcnt + 1 } := by
  refine ⟨rfl, ?_, rfl, rfl⟩
  have h0 : s.rem.toNat ≠ 0 := fun hc => h (BitVec.eq_of_toNat_eq hc)
  have := s.rem.isLt
  show (s.rem - 1).toNat + 1 = _
  rw [BitVec.toNat_sub]
  simp
  omega

/-- The answers of `unpack_load` (42_bitpack.md R114). -/
theorem unpackLoad_ok (b : ByteBeat) (s : State) :
    (unpackLoad b s).1 = true ↔ (b.last = true → b.nvalid.toNat ≤ 8) := by
  unfold unpackLoad
  cases b.last
  · simp
  · by_cases h : b.nvalid.toNat ≤ 8 <;> simp [h]

/-- A node write keeps the tree store canonical (10_state.md R30; log 9). -/
theorem writeNode_wf (n : NodeIndex) (w : NodeWord) (s : State)
    (h : Memory.wf Config.nNode 0 s.node ∧ Memory.wf Config.nNode false s.nvalid) :
    Memory.wf Config.nNode 0 (writeNode n w s).node ∧
    Memory.wf Config.nNode false (writeNode n w s).nvalid :=
  ⟨Memory.wf_set h.1 n.isLt, Memory.wf_set h.2 n.isLt⟩

/-- The arrays of a reset state are canonical. -/
theorem resetEvent_wf (s : State) :
    Memory.wf Config.nNode 0 (resetEvent s).node ∧
    Memory.wf Config.nNode false (resetEvent s).nvalid ∧
    Memory.wf Config.nSym [] (resetEvent s).table := by
  rw [show (resetEvent s).node = [] from rfl, show (resetEvent s).nvalid = [] from rfl,
    show (resetEvent s).table = [] from rfl]
  exact ⟨Memory.wf_nil, Memory.wf_nil, Memory.wf_nil⟩

/-! ### Field by field -/

/-- The fields after `pack_close` (42_bitpack.md R112). -/
@[simp] theorem packClose_fields (s : State) :
    (packClose s).phase = s.phase ∧ (packClose s).done = s.done ∧
    (packClose s).treeValid = s.treeValid ∧ (packClose s).tableValid = s.tableValid ∧
    (packClose s).rootLeaf = s.rootLeaf ∧ (packClose s).errCode = s.errCode ∧
    (packClose s).errMulti = s.errMulti ∧ (packClose s).errInfo = s.errInfo ∧
    (packClose s).doneIe = s.doneIe ∧ (packClose s).errIe = s.errIe ∧
    (packClose s).root = s.root ∧ (packClose s).nodeAddr = s.nodeAddr ∧
    (packClose s).codeSel = s.codeSel ∧ (packClose s).nleaf = s.nleaf ∧
    (packClose s).encSymcnt = s.encSymcnt ∧ (packClose s).encBitcnt = s.encBitcnt ∧
    (packClose s).decSymcnt = s.decSymcnt ∧ (packClose s).decBitcnt = s.decBitcnt ∧
    (packClose s).node = s.node ∧ (packClose s).nvalid = s.nvalid ∧
    (packClose s).table = s.table ∧ (packClose s).acc = 0 ∧ (packClose s).nb = 0 ∧
    (packClose s).shr = s.shr ∧ (packClose s).rem = s.rem ∧ (packClose s).endseen = s.endseen ∧
    (packClose s).cur = s.cur ∧ (packClose s).symIn = s.symIn ∧ (packClose s).byteIn = s.byteIn ∧
    (packClose s).byteOut = s.byteOut ++ [{ last := true, nvalid := s.nb.setWidth 4, data := s.acc }] ∧
    (packClose s).symOut = s.symOut ∧ (packClose s).hRdata = s.hRdata ∧
    (packClose s).rst = s.rst ∧ (packClose s).script = s.script ∧ (packClose s).draws = s.draws := by
  simp [packClose]

/-- The fields `push_bit` calls leave alone (42_bitpack.md R111). -/
@[simp] theorem pushBits_fields (w : List Bool) (s : State) :
    (pushBits w s).phase = s.phase ∧ (pushBits w s).done = s.done ∧
    (pushBits w s).treeValid = s.treeValid ∧ (pushBits w s).tableValid = s.tableValid ∧
    (pushBits w s).rootLeaf = s.rootLeaf ∧ (pushBits w s).errCode = s.errCode ∧
    (pushBits w s).errMulti = s.errMulti ∧ (pushBits w s).errInfo = s.errInfo ∧
    (pushBits w s).doneIe = s.doneIe ∧ (pushBits w s).errIe = s.errIe ∧
    (pushBits w s).root = s.root ∧ (pushBits w s).nodeAddr = s.nodeAddr ∧
    (pushBits w s).codeSel = s.codeSel ∧ (pushBits w s).nleaf = s.nleaf ∧
    (pushBits w s).encSymcnt = s.encSymcnt ∧ (pushBits w s).decSymcnt = s.decSymcnt ∧
    (pushBits w s).decBitcnt = s.decBitcnt ∧ (pushBits w s).node = s.node ∧
    (pushBits w s).nvalid = s.nvalid ∧ (pushBits w s).table = s.table ∧
    (pushBits w s).shr = s.shr ∧ (pushBits w s).rem = s.rem ∧ (pushBits w s).endseen = s.endseen ∧
    (pushBits w s).cur = s.cur ∧ (pushBits w s).symIn = s.symIn ∧
    (pushBits w s).byteIn = s.byteIn ∧ (pushBits w s).symOut = s.symOut ∧
    (pushBits w s).hRdata = s.hRdata ∧ (pushBits w s).rst = s.rst ∧
    (pushBits w s).script = s.script ∧ (pushBits w s).draws = s.draws := by
  obtain ⟨x, h⟩ := pushBits_pushed w s
  rw [h.frame]
  simp

/-- The fields `push_bit` leaves alone (42_bitpack.md R111). -/
@[simp] theorem pushBit_fields (b : Bool) (s : State) :
    (pushBit b s).phase = s.phase ∧ (pushBit b s).done = s.done ∧
    (pushBit b s).treeValid = s.treeValid ∧ (pushBit b s).tableValid = s.tableValid ∧
    (pushBit b s).rootLeaf = s.rootLeaf ∧ (pushBit b s).errCode = s.errCode ∧
    (pushBit b s).errMulti = s.errMulti ∧ (pushBit b s).errInfo = s.errInfo ∧
    (pushBit b s).doneIe = s.doneIe ∧ (pushBit b s).errIe = s.errIe ∧
    (pushBit b s).root = s.root ∧ (pushBit b s).nodeAddr = s.nodeAddr ∧
    (pushBit b s).codeSel = s.codeSel ∧ (pushBit b s).nleaf = s.nleaf ∧
    (pushBit b s).encSymcnt = s.encSymcnt ∧ (pushBit b s).decSymcnt = s.decSymcnt ∧
    (pushBit b s).decBitcnt = s.decBitcnt ∧ (pushBit b s).node = s.node ∧
    (pushBit b s).nvalid = s.nvalid ∧ (pushBit b s).table = s.table ∧ (pushBit b s).shr = s.shr ∧
    (pushBit b s).rem = s.rem ∧ (pushBit b s).endseen = s.endseen ∧ (pushBit b s).cur = s.cur ∧
    (pushBit b s).symIn = s.symIn ∧ (pushBit b s).byteIn = s.byteIn ∧
    (pushBit b s).symOut = s.symOut ∧ (pushBit b s).hRdata = s.hRdata ∧
    (pushBit b s).rst = s.rst ∧ (pushBit b s).script = s.script ∧ (pushBit b s).draws = s.draws := by
  exact pushBits_fields [b] s

/-- The fields `unpack_load` leaves alone (42_bitpack.md R114). -/
@[simp] theorem unpackLoad_fields (b : ByteBeat) (s : State) :
    ((unpackLoad b s).2).phase = s.phase ∧ ((unpackLoad b s).2).done = s.done ∧
    ((unpackLoad b s).2).treeValid = s.treeValid ∧
    ((unpackLoad b s).2).tableValid = s.tableValid ∧ ((unpackLoad b s).2).rootLeaf = s.rootLeaf ∧
    ((unpackLoad b s).2).errCode = s.errCode ∧ ((unpackLoad b s).2).errMulti = s.errMulti ∧
    ((unpackLoad b s).2).errInfo = s.errInfo ∧ ((unpackLoad b s).2).doneIe = s.doneIe ∧
    ((unpackLoad b s).2).errIe = s.errIe ∧ ((unpackLoad b s).2).root = s.root ∧
    ((unpackLoad b s).2).nodeAddr = s.nodeAddr ∧ ((unpackLoad b s).2).codeSel = s.codeSel ∧
    ((unpackLoad b s).2).nleaf = s.nleaf ∧ ((unpackLoad b s).2).encSymcnt = s.encSymcnt ∧
    ((unpackLoad b s).2).encBitcnt = s.encBitcnt ∧ ((unpackLoad b s).2).decSymcnt = s.decSymcnt ∧
    ((unpackLoad b s).2).decBitcnt = s.decBitcnt ∧ ((unpackLoad b s).2).node = s.node ∧
    ((unpackLoad b s).2).nvalid = s.nvalid ∧ ((unpackLoad b s).2).table = s.table ∧
    ((unpackLoad b s).2).acc = s.acc ∧ ((unpackLoad b s).2).nb = s.nb ∧
    ((unpackLoad b s).2).cur = s.cur ∧ ((unpackLoad b s).2).symIn = s.symIn ∧
    ((unpackLoad b s).2).byteIn = s.byteIn ∧ ((unpackLoad b s).2).byteOut = s.byteOut ∧
    ((unpackLoad b s).2).symOut = s.symOut ∧ ((unpackLoad b s).2).hRdata = s.hRdata ∧
    ((unpackLoad b s).2).rst = s.rst ∧ ((unpackLoad b s).2).script = s.script ∧
    ((unpackLoad b s).2).draws = s.draws := by
  unfold unpackLoad
  split
  · simp
  · split <;> simp

end Sys2Proof.Machine
end

