-- ==== Sys2Proof/Laws/Effect.lean ====
section
/-! SUPPORT. What one instruction can do, said once: every next state of `exec` is one of the
updates listed in `Effect`. -/

namespace Sys2Proof.Machine

open Host (Outcome)

/-- The row an instruction shares its meaning with: a write to CMD is its command
(40_commands.md R85), a register write its target (R95). -/
def canon : Instr → Instr
  | .regWrCmd v => decodeCmdw v
  | .regWr idx v =>
    match idx.toNat with
    | 0x01 => decodeCmdw v
    | 0x05 => .regWrIe v
    | 0x06 => .regWrRoot v
    | 0x07 => .regWrNodeAddr v
    | 0x08 => .regWrNodeData v
    | 0x09 => .regWrCodeSel v
    | _ => .nop
  | i => i

theorem exec_decodeCmdw (v : Word) (s : State) :
    exec (decodeCmdw v) s = .next (commandWrite v s) := by
  unfold decodeCmdw commandWrite
  by_cases h : v.extractLsb' 8 24 = 0
  · rw [if_pos h]
    split <;> rename_i h2
    case h_9 =>
      rw [if_pos]
      · rfl
      · right
        have : (v.extractLsb' 0 8).toNat < 256 := (v.extractLsb' 0 8).isLt
        by_contra hc
        have h8 : (v.extractLsb' 0 8).toNat ≤ 7 := Nat.le_of_not_lt hc
        generalize (v.extractLsb' 0 8).toNat = n at *
        interval_cases n <;> simp_all
    all_goals (rw [if_neg (by rw [h2]; simp [h]), h2]; rfl)
  · rw [if_neg h, if_pos (.inl h)]; rfl

/-- Every instruction answers as its canonical row does. -/
theorem exec_canon (i : Instr) (s : State) : exec i s = exec (canon i) s := by
  cases i
  case regWrCmd v => exact (exec_decodeCmdw v s).symm
  case regWr idx v =>
    show Outcome.next (regWrite idx v s) = _
    unfold canon regWrite
    dsimp only
    generalize idx.toNat = n
    split
    case h_1 => exact (exec_decodeCmdw v s).symm
    case h_7 => first | rfl | (split <;> first | contradiction | rfl)
    all_goals rfl
  all_goals rfl

/-- The canonical rows. -/
theorem canon_not_regWr (i : Instr) :
    (∀ idx v, canon i ≠ .regWr idx v) ∧ ∀ v, canon i ≠ .regWrCmd v := by
  have hc : ∀ w : Word, (∀ idx v, decodeCmdw w ≠ .regWr idx v) ∧ ∀ v, decodeCmdw w ≠ .regWrCmd v := by
    intro w
    unfold decodeCmdw
    split
    · split <;> exact ⟨fun _ _ h => (by cases h), fun _ h => by cases h⟩
    · exact ⟨fun _ _ h => (by cases h), fun _ h => by cases h⟩
  cases i
  case regWrCmd w => exact hc w
  case regWr idx w =>
    unfold canon
    dsimp only
    split
    case h_1 => exact hc w
    all_goals exact ⟨fun _ _ h => (by cases h), fun _ h => by cases h⟩
  all_goals exact ⟨fun _ _ h => (by cases h), fun _ h => by cases h⟩

/-- The next states of an instruction `i` in state `s`, `i` a canonical row. -/
inductive Effect (s : State) : Instr → State → Prop where
  /-- nothing happens -/
  | same (i : Instr) : Effect s i s
  | illegal (v : Word) : Effect s (.cmdIllegal v) (raise .illegalCmd v s)
  | cmdBusy (i : Instr) (op : Word) : s.phase ≠ .idle → Effect s i (raise .cmdBusy op s)
  | cmdErrpend (i : Instr) (op : Word) : s.errCode ≠ 0 → Effect s i (raise .cmdErrpend op s)
  | noTable : Effect s .encStart (raise .noTable 0 s)
  | noTree : Effect s .decStart (raise .noTree 0 s)
  | writeLocked (i : Instr) (idx : Word) :
    s.phase ≠ .idle → Effect s i (raise .writeLocked idx s)
  | treeClear : s.phase = .idle →
    Effect s .treeClear (treeInvalidate { s with nvalid := [], root := 0 })
  | buildTable : s.phase = .idle → s.errCode = 0 →
    Effect s .buildTable { treeInvalidate s with done := false, phase := .gen }
  | encStart : s.phase = .idle → s.errCode = 0 → s.tableValid = true →
    Effect s .encStart
      { s with done := false, encSymcnt := 0, encBitcnt := 0, acc := 0, nb := 0, phase := .enc }
  | decStart : s.phase = .idle → s.errCode = 0 → s.treeValid = true →
    Effect s .decStart
      { s with done := false, decSymcnt := 0, decBitcnt := 0, shr := 0, rem := 0,
               endseen := false, cur := s.root, phase := .dec }
  | abortGen : s.phase = .gen →
    Effect s .abort { raise .ioAbort 1 (treeInvalidate s) with phase := .idle }
  | abortEnc : s.phase = .enc →
    Effect s .abort { raise .ioAbort 2 (packClose s) with phase := .idle }
  | abortDec : s.phase = .dec →
    Effect s .abort { raise .ioAbort 3 (closeDecoder s) with phase := .idle }
  | ack : Effect s .ack (ackError s)
  | reset (i : Instr) : resets i = true → Effect s i (resetEvent s)
  | readFree (idx : RegIndex) (w : Word) (d : Nat) :
    Effect s (.regRd idx) { s with hRdata := w, draws := d }
  | writeIe (v : Word) :
    Effect s (.regWrIe v) { s with doneIe := v.getLsbD 0, errIe := v.getLsbD 1 }
  | writeNodeAddr (v : Word) : Effect s (.regWrNodeAddr v) { s with nodeAddr := wordIndex v }
  | writeCodeSel (v : Word) : Effect s (.regWrCodeSel v) { s with codeSel := wordSymbol v }
  | writeRoot (v : Word) : s.phase = .idle →
    Effect s (.regWrRoot v) (treeInvalidate { s with root := wordIndex v })
  | writeNodeData (v : Word) : s.phase = .idle →
    Effect s (.regWrNodeData v) (treeInvalidate (writeNode s.nodeAddr (wordNode v) s))
  | encSym (c : Symbol) : symReady { eos := false, sym := c } s = true →
    codeV (s.codeAt c) = true →
    Effect s (.encSym c)
      { pushBits (s.codeAt c) (takeSym s) with
          encSymcnt := (pushBits (s.codeAt c) (takeSym s)).encSymcnt + 1 }
  | lookupFailure (c : Symbol) : symReady { eos := false, sym := c } s = true →
    codeV (s.codeAt c) = false →
    Effect s (.encSym c)
      { raise .lookupFailure (c.setWidth 32) (packClose (takeSym s)) with phase := .idle }
  | encEos (c : Symbol) : symReady { eos := true, sym := c } s = true →
    Effect s (.encEos c) { packClose (takeSym s) with done := true, phase := .idle }
  | fetch (i : Instr) (b : ByteBeat) : byteReady b s = true →
    (b.last = true → b.nvalid.toNat ≤ 8) →
    Effect s i
      { takeByte s with shr := b.data, rem := if b.last then b.nvalid else 8,
                        endseen := b.last }
  | fetchBad (i : Instr) (b : ByteBeat) : byteReady b s = true → b.last = true →
    8 < b.nvalid.toNat →
    Effect s i
      { raise .ioBadNvalid (b.nvalid.setWidth 32) (closeDecoder (takeByte s)) with phase := .idle }
  | genOk (g : GenWork) : s.phase = .gen → visitRoot s = .ok g →
    Effect s .genRun { genCommit g s with phase := .idle }
  | genError (c : ErrorCode) (info : Word) : s.phase = .gen →
    visitRoot s = .error (c, info) → Effect s .genRun
      { raise c info (treeInvalidate s) with phase := .idle }
  | decBit : s.phase = .dec → s.rem ≠ 0 → Effect s .decBit (decodeBit s)
  | truncated : s.phase = .dec → s.rem = 0 → s.endseen = true → s.cur ≠ s.root →
    Effect s .decFinish
      { raise .truncated (s.cur.setWidth 32) (closeDecoder s) with phase := .idle }
  | decFinish : s.phase = .dec → s.rem = 0 → s.endseen = true → s.cur = s.root →
    Effect s .decFinish { closeDecoder s with done := true, phase := .idle }
  | packReset : Effect s .packReset (packReset s)
  | pushBit (b : Bool) : Effect s (.pushBit b) (pushBit b s)
  | packClose : Effect s .packClose (packClose s)
  | unpackReset : Effect s .unpackReset (unpackReset s)
  | unpackLoad (b : ByteBeat) : Effect s (.unpackLoad b) (unpackLoad b s).2
  | popBit : s.rem ≠ 0 → Effect s .popBit (popBit s).2

theorem busy_eq_true (s : State) : busy s = true ↔ s.phase ≠ .idle := by
  unfold busy
  cases s.phase <;> decide

theorem errpend_eq_true (s : State) : errpend s = true ↔ s.errCode ≠ 0 := by
  simp [errpend]

/-- The checks of a command once: refused as busy, refused with an error pending, or its rule. -/
theorem commandChecks_cases (op : Word) (start : Bool) (go : State → State) (s : State) :
    (s.phase ≠ .idle ∧ commandChecks op start go s = raise .cmdBusy op s) ∨
    (s.phase = .idle ∧ start = true ∧ s.errCode ≠ 0 ∧
      commandChecks op start go s = raise .cmdErrpend op s) ∨
    (s.phase = .idle ∧ (start = true → s.errCode = 0) ∧ commandChecks op start go s = go s) := by
  unfold commandChecks
  by_cases hb : busy s = true
  · exact .inl ⟨(busy_eq_true s).1 hb, if_pos hb⟩
  · have hp : s.phase = .idle := by
      by_contra h; exact hb ((busy_eq_true s).2 h)
    rw [if_neg hb]
    by_cases he : (start && errpend s) = true
    · obtain ⟨h1, h2⟩ := Bool.and_eq_true _ _ ▸ he
      exact .inr (.inl ⟨hp, h1, (errpend_eq_true s).1 h2, if_pos he⟩)
    · refine .inr (.inr ⟨hp, fun h => ?_, if_neg he⟩)
      by_contra hc
      exact he (by simp [h, (errpend_eq_true s).2 hc])

/-- What fetching a beat does: it is loaded, or it ends the pass. -/
theorem fetchByte_effect (i : Instr) (b : ByteBeat) (s : State) (h : byteReady b s = true) :
    Effect s i (fetchByte b s) := by
  have hbi : biReady s = true := by simp [byteReady] at h; exact h.1
  have he : s.endseen = false := by simp [biReady] at hbi; exact hbi.2
  unfold fetchByte unpackLoad
  cases hl : b.last with
  | false =>
    have := Effect.fetch i b h (by simp [hl])
    simpa [hl, takeByte, he] using this
  | true =>
    by_cases hn : b.nvalid.toNat ≤ 8
    · have := Effect.fetch i b h (fun _ => hn)
      simpa [hl, hn] using this
    · have := Effect.fetchBad i b h hl (Nat.lt_of_not_le hn)
      simpa [hl, hn] using this

/-- Every next state of an instruction is an effect of its canonical row. -/
theorem exec_effect {i : Instr} {s t : State} (h : exec i s = .next t) :
    Effect s (canon i) t := by
  rw [exec_canon] at h
  have hw := canon_not_regWr i
  generalize canon i = j at h hw
  cases j
  case nop => cases h; exact .same _
  case treeClear =>
    obtain ⟨hp, e⟩ | ⟨-, hc, -⟩ | ⟨hp, -, e⟩ := commandChecks_cases 0x01 false ruleTreeClear s
    · cases h; unfold cmdTreeClear; rw [e]; exact .cmdBusy _ _ hp
    · cases hc
    · cases h; unfold cmdTreeClear; rw [e]; exact .treeClear hp
  case buildTable =>
    obtain ⟨hp, e⟩ | ⟨-, -, hc, e⟩ | ⟨hp, hc, e⟩ := commandChecks_cases 0x02 true ruleBuildTable s
    · cases h; unfold cmdBuildTable; rw [e]; exact .cmdBusy _ _ hp
    · cases h; unfold cmdBuildTable; rw [e]; exact .cmdErrpend _ _ hc
    · cases h; unfold cmdBuildTable; rw [e]; exact .buildTable hp (hc rfl)
  case encStart =>
    obtain ⟨hp, e⟩ | ⟨-, -, hc, e⟩ | ⟨hp, hc, e⟩ := commandChecks_cases 0x03 true ruleEncStart s
    · cases h; unfold cmdEncStart; rw [e]; exact .cmdBusy _ _ hp
    · cases h; unfold cmdEncStart; rw [e]; exact .cmdErrpend _ _ hc
    · cases h; unfold cmdEncStart; rw [e]; unfold ruleEncStart
      by_cases ht : s.tableValid = true
      · rw [if_neg (by simp [ht])]; exact .encStart hp (hc rfl) ht
      · rw [if_pos (by simp [ht])]; exact .noTable
  case decStart =>
    obtain ⟨hp, e⟩ | ⟨-, -, hc, e⟩ | ⟨hp, hc, e⟩ := commandChecks_cases 0x04 true ruleDecStart s
    · cases h; unfold cmdDecStart; rw [e]; exact .cmdBusy _ _ hp
    · cases h; unfold cmdDecStart; rw [e]; exact .cmdErrpend _ _ hc
    · cases h; unfold cmdDecStart; rw [e]; unfold ruleDecStart
      by_cases ht : s.treeValid = true
      · rw [if_neg (by simp [ht])]; exact .decStart hp (hc rfl) ht
      · rw [if_pos (by simp [ht])]; exact .noTree
  case abort =>
    cases h; unfold ruleAbort
    split
    · exact .same _
    · exact .abortGen ‹_›
    · exact .abortEnc ‹_›
    · exact .abortDec ‹_›
  case ack => cases h; exact .ack
  case softReset => cases h; exact .reset _ rfl
  case reset => cases h; exact .reset _ rfl
  case cmdIllegal v => cases h; exact .illegal v
  case regRd idx =>
    cases h; unfold regRead
    split
    · exact .readFree _ _ _
    · exact .readFree _ _ s.draws
  case regWr idx v => exact absurd rfl (hw.1 idx v)
  case regWrCmd v => exact absurd rfl (hw.2 v)
  case regWrIe v => cases h; exact .writeIe v
  case regWrNodeAddr v => cases h; exact .writeNodeAddr v
  case regWrCodeSel v => cases h; exact .writeCodeSel v
  case regWrRoot v =>
    cases h; unfold writeRoot
    by_cases hb : busy s = true
    · rw [if_pos hb]; exact .writeLocked _ _ ((busy_eq_true s).1 hb)
    · rw [if_neg hb]; exact .writeRoot v (by by_contra hc; exact hb ((busy_eq_true s).2 hc))
  case regWrNodeData v =>
    cases h; unfold writeNodeData
    by_cases hb : busy s = true
    · rw [if_pos hb]; exact .writeLocked _ _ ((busy_eq_true s).1 hb)
    · rw [if_neg hb]; exact .writeNodeData v (by by_contra hc; exact hb ((busy_eq_true s).2 hc))
  case encSym c =>
    simp only [exec, execEncSym] at h
    split at h
    · rename_i hr
      cases h; unfold encodeSymbol
      cases hv : codeV (s.codeAt c)
      · have : codeV ((takeSym s).codeAt c) = false := hv
        simp only [this]
        exact .lookupFailure c hr hv
      · have : codeV ((takeSym s).codeAt c) = true := hv
        simp only [this, if_true]
        exact .encSym c hr hv
    · cases h; exact .same _
  case encEos c =>
    simp only [exec, execEncEos] at h
    split at h <;> cases h
    · exact .encEos c ‹_›
    · exact .same _
  case decFetchFull n d =>
    simp only [exec, execDecFetchFull] at h
    split at h <;> cases h
    · exact fetchByte_effect _ _ _ ‹_›
    · exact .same _
  case decFetchFinal n d =>
    simp only [exec, execDecFetchFinal] at h
    split at h <;> cases h
    · exact fetchByte_effect _ _ _ ‹_›
    · exact .same _
  case decFetchFinal8 d =>
    simp only [exec, execDecFetchFinal8] at h
    split at h <;> cases h
    · exact fetchByte_effect _ _ _ ‹_›
    · exact .same _
  case decFetchBad n d =>
    simp only [exec, execDecFetchBad] at h
    split at h <;> cases h
    · exact fetchByte_effect _ _ _ ‹_›
    · exact .same _
  case genRun =>
    simp only [exec, execGenRun] at h
    split at h <;> cases h
    · unfold genRun
      split
      · exact .genOk _ ‹_› ‹_›
      · exact .genError _ _ ‹_› ‹_›
    · exact .same _
  case decBit =>
    simp only [exec, execDecBit] at h
    split at h <;> cases h
    · rename_i hc
      simp [hasBit] at hc
      exact .decBit hc.1 hc.2
    · exact .same _
  case decFinish =>
    simp only [exec, execDecFinish] at h
    split at h <;> cases h
    · rename_i hc
      simp [exhausted] at hc
      unfold decodeEnd
      by_cases hr : s.cur = s.root
      · simp only [hr, ne_eq, not_true_eq_false, if_false]
        exact .decFinish hc.1 hc.2.1 hc.2.2 hr
      · simp only [hr, ne_eq, not_false_eq_true, if_true]
        exact .truncated hc.1 hc.2.1 hc.2.2 hr
    · exact .same _
  case packReset => cases h; exact .packReset
  case pushBit b => cases h; exact .pushBit b
  case packClose => cases h; exact .packClose
  case unpackReset => cases h; exact .unpackReset
  case unpackLoad b => cases h; exact .unpackLoad b
  case popBit =>
    simp only [exec, execPopBit] at h
    split at h <;> cases h
    · rename_i hc
      exact .popBit (by simpa [hasBit] using hc)
    · exact .same _

/-! ### Field by field -/

/-- The fields after the ending of a decoding pass (44_decoder.md R130, R132). -/
@[simp] theorem closeDecoder_fields (s : State) :
    (closeDecoder s).phase = s.phase ∧ (closeDecoder s).done = s.done ∧
    (closeDecoder s).treeValid = s.treeValid ∧ (closeDecoder s).tableValid = s.tableValid ∧
    (closeDecoder s).rootLeaf = s.rootLeaf ∧ (closeDecoder s).errCode = s.errCode ∧
    (closeDecoder s).errMulti = s.errMulti ∧ (closeDecoder s).errInfo = s.errInfo ∧
    (closeDecoder s).doneIe = s.doneIe ∧ (closeDecoder s).errIe = s.errIe ∧
    (closeDecoder s).root = s.root ∧ (closeDecoder s).nodeAddr = s.nodeAddr ∧
    (closeDecoder s).codeSel = s.codeSel ∧ (closeDecoder s).nleaf = s.nleaf ∧
    (closeDecoder s).encSymcnt = s.encSymcnt ∧ (closeDecoder s).encBitcnt = s.encBitcnt ∧
    (closeDecoder s).decSymcnt = s.decSymcnt ∧ (closeDecoder s).decBitcnt = s.decBitcnt ∧
    (closeDecoder s).node = s.node ∧ (closeDecoder s).nvalid = s.nvalid ∧
    (closeDecoder s).table = s.table ∧ (closeDecoder s).acc = s.acc ∧ (closeDecoder s).nb = s.nb ∧
    (closeDecoder s).shr = 0 ∧ (closeDecoder s).rem = 0 ∧ (closeDecoder s).endseen = false ∧
    (closeDecoder s).cur = s.root ∧ (closeDecoder s).symIn = s.symIn ∧
    (closeDecoder s).byteIn = s.byteIn ∧ (closeDecoder s).byteOut = s.byteOut ∧
    (closeDecoder s).symOut = s.symOut ++ [endMark] ∧ (closeDecoder s).hRdata = s.hRdata ∧
    (closeDecoder s).rst = s.rst ∧ (closeDecoder s).script = s.script ∧
    (closeDecoder s).draws = s.draws := by
  simp [closeDecoder]

/-- The fields after the commit (41_table_generator.md R103). -/
@[simp] theorem genCommit_fields (g : GenWork) (s : State) :
    (genCommit g s).phase = s.phase ∧ (genCommit g s).done = true ∧
    (genCommit g s).treeValid = true ∧ (genCommit g s).tableValid = true ∧
    (genCommit g s).rootLeaf = nodeLeaf (s.nodeAt s.root) ∧ (genCommit g s).errCode = s.errCode ∧
    (genCommit g s).errMulti = s.errMulti ∧ (genCommit g s).errInfo = s.errInfo ∧
    (genCommit g s).doneIe = s.doneIe ∧ (genCommit g s).errIe = s.errIe ∧
    (genCommit g s).root = s.root ∧ (genCommit g s).nodeAddr = s.nodeAddr ∧
    (genCommit g s).codeSel = s.codeSel ∧ (genCommit g s).nleaf = g.nleaf ∧
    (genCommit g s).encSymcnt = s.encSymcnt ∧ (genCommit g s).encBitcnt = s.encBitcnt ∧
    (genCommit g s).decSymcnt = s.decSymcnt ∧ (genCommit g s).decBitcnt = s.decBitcnt ∧
    (genCommit g s).node = s.node ∧ (genCommit g s).nvalid = s.nvalid ∧
    (genCommit g s).table = g.table ∧ (genCommit g s).acc = s.acc ∧ (genCommit g s).nb = s.nb ∧
    (genCommit g s).shr = s.shr ∧ (genCommit g s).rem = s.rem ∧
    (genCommit g s).endseen = s.endseen ∧ (genCommit g s).cur = s.cur ∧
    (genCommit g s).symIn = s.symIn ∧ (genCommit g s).byteIn = s.byteIn ∧
    (genCommit g s).byteOut = s.byteOut ∧ (genCommit g s).symOut = s.symOut ∧
    (genCommit g s).hRdata = s.hRdata ∧ (genCommit g s).rst = s.rst ∧
    (genCommit g s).script = s.script ∧ (genCommit g s).draws = s.draws := by
  simp [genCommit]

/-- The fields DEC_BIT leaves alone, and its counter of bits (44_decoder.md R131). -/
@[simp] theorem decodeBit_fields (s : State) :
    (decodeBit s).phase = s.phase ∧ (decodeBit s).done = s.done ∧
    (decodeBit s).treeValid = s.treeValid ∧ (decodeBit s).tableValid = s.tableValid ∧
    (decodeBit s).rootLeaf = s.rootLeaf ∧ (decodeBit s).errCode = s.errCode ∧
    (decodeBit s).errMulti = s.errMulti ∧ (decodeBit s).errInfo = s.errInfo ∧
    (decodeBit s).doneIe = s.doneIe ∧ (decodeBit s).errIe = s.errIe ∧
    (decodeBit s).root = s.root ∧ (decodeBit s).nodeAddr = s.nodeAddr ∧
    (decodeBit s).codeSel = s.codeSel ∧ (decodeBit s).nleaf = s.nleaf ∧
    (decodeBit s).encSymcnt = s.encSymcnt ∧ (decodeBit s).encBitcnt = s.encBitcnt ∧
    (decodeBit s).decBitcnt = s.decBitcnt + 1 ∧ (decodeBit s).node = s.node ∧
    (decodeBit s).nvalid = s.nvalid ∧ (decodeBit s).table = s.table ∧ (decodeBit s).acc = s.acc ∧
    (decodeBit s).nb = s.nb ∧ (decodeBit s).shr = s.shr <<< 1 ∧ (decodeBit s).rem = s.rem - 1 ∧
    (decodeBit s).endseen = s.endseen ∧ (decodeBit s).symIn = s.symIn ∧
    (decodeBit s).byteIn = s.byteIn ∧ (decodeBit s).byteOut = s.byteOut ∧
    (decodeBit s).hRdata = s.hRdata ∧ (decodeBit s).rst = s.rst ∧
    (decodeBit s).script = s.script ∧ (decodeBit s).draws = s.draws := by
  unfold decodeBit emitSymbol
  dsimp only
  split
  · simp
  · split <;> simp

end Sys2Proof.Machine
end

