-- ==== Sys2Proof/Laws/Step.lean ====
section
/-! SUPPORT. What one step can do, said once. -/

namespace Sys2Proof.Machine

open Host (Outcome)

/-- The rows of format PROC, which no agent selects (42_bitpack.md). -/
def isProcedure : Instr → Bool
  | .packReset | .pushBit _ | .packClose | .unpackReset | .unpackLoad _ | .popBit => true
  | _ => false

/-- No word decodes to a procedure. -/
theorem decodeWire_not_procedure (w : Wire) : isProcedure (canon (decodeWire w)) = false := by
  have hc : ∀ v : Word, isProcedure (decodeCmdw v) = false := by
    intro v
    unfold decodeCmdw
    split
    · split <;> rfl
    · rfl
  cases w with
  | cmdw v =>
    show isProcedure (canon (decodeCmdw v)) = false
    unfold decodeCmdw
    split
    · split <;> rfl
    · rfl
  | regw di data =>
    show isProcedure (canon (decodeRegw di data)) = false
    unfold decodeRegw
    dsimp only
    split
    · split
      case h_1 => exact hc data
      case h_7 =>
        unfold canon
        dsimp only
        split
        case h_1 => exact hc data
        all_goals rfl
      all_goals rfl
    · rfl
  | symb b =>
    show isProcedure (canon (decodeSymb b)) = false
    unfold decodeSymb
    dsimp only
    split <;> rfl
  | bytb b =>
    show isProcedure (canon (decodeBytb b)) = false
    unfold decodeBytb
    dsimp only
    split
    · rfl
    · split
      · rfl
      · split <;> rfl

theorem engineInstr_not_procedure {s : State} {i : Instr} (h : engineInstr s = some i) :
    isProcedure (canon i) = false := by
  unfold engineInstr at h
  split at h
  · cases h
  · cases h; rfl
  · obtain ⟨b, -, rfl⟩ := Option.map_eq_some_iff.1 h
    exact decodeWire_not_procedure _
  · split at h
    · cases h; rfl
    · split at h
      · cases h; rfl
      · obtain ⟨b, -, rfl⟩ := Option.map_eq_some_iff.1 h
        exact decodeWire_not_procedure _

/-- Every next state of a step: an instruction's effect on the state with the environment's own
fields moved on, a producer's append, or that move alone. -/
theorem step_cases {s t : State} (h : step s = .next t) :
    ∃ sc r,
      (∃ i, isProcedure i = false ∧ Effect { s with script := sc, rst := r } i t) ∨
      (∃ b, t = appendSym b { s with script := sc, rst := r }) ∨
      (∃ b, t = appendByte b { s with script := sc, rst := r }) ∨
      t = { s with script := sc, rst := r } := by
  have hport : ∀ (w : Wire) (sc : List Move),
      portMove w { s with script := sc } = .next t →
      ∃ sc r,
        (∃ i, isProcedure i = false ∧ Effect { s with script := sc, rst := r } i t) ∨
        (∃ b, t = appendSym b { s with script := sc, rst := r }) ∨
        (∃ b, t = appendByte b { s with script := sc, rst := r }) ∨
        t = { s with script := sc, rst := r } := by
    intro w sc hp
    unfold portMove at hp
    split at hp
    · cases hp
      exact ⟨sc, s.rst, .inr (.inr (.inr rfl))⟩
    · exact ⟨sc, s.rst, .inl ⟨_, decodeWire_not_procedure w, exec_effect hp⟩⟩
  have heng : ∀ (sc sc' : List Move) (i : Instr),
      enabledInstr { s with script := sc } = some i →
      exec i { s with script := sc' } = .next t →
      ∃ i, isProcedure i = false ∧ Effect { s with script := sc', rst := s.rst } i t := by
    intro sc sc' i hi hx
    unfold enabledInstr at hi
    split at hi
    · cases hi
    · exact ⟨_, engineInstr_not_procedure hi, exec_effect hx⟩
  unfold step agentStep at h
  split at h
  · unfold runIdle at h
    split at h
    · exact ⟨s.script, s.rst, .inl (heng s.script s.script _ ‹_› h)⟩
    · split at h
      · cases h
        exact ⟨s.script, s.rst, .inr (.inr (.inr rfl))⟩
      · cases h
  · rename_i m rest hs
    cases m with
    | cmd v => exact hport _ _ h
    | wr idx v => exact hport _ _ h
    | rd idx => exact hport _ _ h
    | sym b => cases h; exact ⟨rest, s.rst, .inr (.inl ⟨b, rfl⟩)⟩
    | byte b => cases h; exact ⟨rest, s.rst, .inr (.inr (.inl ⟨b, rfl⟩))⟩
    | engine =>
      simp only [runMove] at h
      split at h
      · exact ⟨rest, s.rst, .inl (heng rest rest _ ‹_› h)⟩
      · cases h; exact ⟨rest, s.rst, .inr (.inr (.inr rfl))⟩
    | run =>
      simp only [runMove] at h
      split at h
      · exact ⟨.run :: rest, s.rst, .inl (heng rest (.run :: rest) _ ‹_› h)⟩
      · cases h; exact ⟨rest, s.rst, .inr (.inr (.inr rfl))⟩
    | rst l =>
      cases l with
      | true => exact ⟨rest, true, .inl ⟨.reset, rfl, exec_effect (i := .reset) h⟩⟩
      | false => cases h; exact ⟨rest, false, .inr (.inr (.inr rfl))⟩

end Sys2Proof.Machine
end

