-- ==== Sys2Proof/Machine/HostRef.lean ====
section
/-! DEFINITION. The host-side reference procedures (45_host_reference.md R140 to R148) and the
pseudo-operations of the host script (30_encoding.md R77). None of them is part of the block: they
are functions of the host, which drive the block through its moves (log 14). -/

namespace Sys2Proof.Machine

/-- What stops a host procedure (R147). -/
inductive HostError where
  /-- InvalidInput: an empty frequency map -/
  | invalidInput
  /-- a read of the host's own source or a write to its own sink failed -/
  | ioFailure
  /-- the block's tree store is not validated (R145) -/
  | noTree
  /-- a `require` of R144 or the test of R145 failed; `err` is what ERR reads -/
  | passFailed (err : Word)
  /-- the wait for `BUSY = 0` of R144 or R145 has no end: the pass waits for a beat that no one sends
  (70_reset_and_hazards.md R179). That the host answers so is the model's choice (log 14). -/
  | waitsForever
  deriving DecidableEq, Repr

/-- What a host procedure answers, and the block after it. The block is there after a failure too:
an error of the host's own leaves its trace in it (R147). -/
abbrev HostRun (α : Type) := Except HostError α × State

/-- A source of the host: what its reads deliver, and whether the read after them fails instead of
finding the end (R140, R147). -/
structure Source (α : Type) where
  items : List α
  fails : Bool
  deriving DecidableEq, Repr

/-- A sink of the host: the number of writes it takes before one fails, none where none fails
(R147). -/
abbrev Sink := Option Nat

/-- One of `n` writes to the sink has failed. -/
def sinkFailed (sink : Sink) (n : Nat) : Bool :=
  match sink with
  | none => false
  | some room => room < n

/-! ### Lines and pseudo-operations (30_encoding.md R76, R77) -/

/-- `LEAF s` -/
def leafWord (c : Symbol) : NodeWord := 1#1 ++ 0#10 ++ c

/-- `INT l, r` -/
def intWord (l r : NodeIndex) : NodeWord := 0#1 ++ l ++ r

/-- `SYM s` -/
def lineSym (c : Symbol) : Move := .sym { eos := false, sym := c }

/-- `EOS` -/
def lineEos : Move := .sym { eos := true, sym := 0 }

/-- `BYTE d` -/
def lineByte (d : Byte) : Move := .byte { last := false, nvalid := 8, data := d }

/-- `LASTBYTE n, d` -/
def lineLastByte (n : BitVec 4) (d : Byte) : Move := .byte { last := true, nvalid := n, data := d }

/-- `RESET` -/
def lineReset : List Move := [.rst true, .rst false]

/-- `NODE n, w` -/
def opNode (n : NodeIndex) (w : NodeWord) : List Move :=
  [.wr 0x07 (n.setWidth 32), .wr 0x08 (w.setWidth 32)]

/-- `LOADTREE root; n0: w0; n1: w1; ...` -/
def opLoadTree (root : NodeIndex) (nodes : List (NodeIndex × NodeWord)) : List Move :=
  .cmd 0x01 :: (nodes.flatMap fun x => opNode x.1 x.2) ++ [.wr 0x06 (root.setWidth 32)]

/-- `BUILD` -/
def opBuild : List Move := [.cmd 0x02, .run]

/-- `ENCODE s0 s1 ... sk` -/
def opEncode (w : List Symbol) : List Move := .cmd 0x03 :: w.map lineSym ++ [lineEos, .run]

/-- `DECODE b0 ... bk ; n, d` -/
def opDecode (w : List Byte) (n : BitVec 4) (d : Byte) : List Move :=
  .cmd 0x04 :: w.map lineByte ++ [lineLastByte n d, .run]

/-- `CODE s` -/
def opCode (c : Symbol) : List Move :=
  [.wr 0x09 (c.setWidth 32), .rd 0x0A, .rd 0x10, .rd 0x11, .rd 0x12, .rd 0x13, .rd 0x14, .rd 0x15,
    .rd 0x16, .rd 0x17]

/-! ### Frequencies (R140) -/

/-- A frequency map: symbol value to count; a symbol that does not occur is unlisted. -/
abbrev FreqMap := Memory Nat

/-- One symbol counted. -/
def countSymbol (f : FreqMap) (c : Symbol) : FreqMap :=
  Memory.set 0 f c.toNat (Memory.get 0 f c.toNat + 1)

/-- `frequencies(S)` (R140). -/
def frequencies (w : List Symbol) : FreqMap := w.foldl countSymbol []

/-- `frequencies` of a source whose reads may fail: the partial map is discarded (R140). -/
def frequenciesOf (src : Source Symbol) : Except HostError FreqMap :=
  if src.fails then .error .ioFailure else .ok (frequencies src.items)

/-! ### The tree builder (R141, R142) -/

/-- A tree of the host's builder. Each node carries its `seq`, the order of creation (R142), and
its weight. -/
inductive HostTree where
  | leaf (seq : Nat) (sym : Symbol) (weight : Nat)
  | node (seq : Nat) (left right : HostTree) (weight : Nat)
  deriving DecidableEq, Repr

/-- The weight of a node. -/
def HostTree.weight : HostTree → Nat
  | .leaf _ _ w => w
  | .node _ _ _ w => w

/-- The order of creation of a node. -/
def HostTree.seq : HostTree → Nat
  | .leaf q _ _ => q
  | .node q _ _ _ => q

/-- Removed before: the lower `(weight, seq)` (R142). -/
def HostTree.before (a b : HostTree) : Bool :=
  a.weight < b.weight || (a.weight == b.weight && a.seq < b.seq)

/-- The queue with an element inserted, the next to remove first. -/
def queueInsert (t : HostTree) : List HostTree → List HostTree
  | [] => [t]
  | x :: q => if t.before x then t :: x :: q else x :: queueInsert t q

/-- The leaves in ascending order of symbol, `seq` from `q` on (R142), inserted into a queue. -/
def leafQueue : FreqMap → Nat → List HostTree → List HostTree
  | [], _, queue => queue
  | (c, n) :: f, q, queue => leafQueue f (q + 1) (queueInsert (.leaf q (BitVec.ofNat 8 c) n) queue)

/-- Step 2 of R141, `rounds` merges: the two lowest become left and right of a new node with the
next `seq`. -/
def mergeQueue : Nat → Nat → List HostTree → List HostTree
  | rounds + 1, q, t1 :: t2 :: queue =>
    mergeQueue rounds (q + 1) (queueInsert (.node q t1 t2 (t1.weight + t2.weight)) queue)
  | _, _, queue => queue

/-- `build_tree(F)` (R141): a map of `k` symbols takes `k - 1` merges. -/
def buildTree (f : FreqMap) : Except HostError HostTree :=
  match mergeQueue (f.length - 1) f.length (leafQueue f 0 []) with
  | [t] => .ok t
  | _ => .error .invalidInput

/-! ### Loading (R143) -/

/-- The node words of a tree by `seq`: node index = `seq`. -/
def HostTree.words : HostTree → List (NodeIndex × NodeWord)
  | .leaf q c _ => [(BitVec.ofNat 9 q, leafWord c)]
  | .node q l r _ =>
    (BitVec.ofNat 9 q, intWord (BitVec.ofNat 9 l.seq) (BitVec.ofNat 9 r.seq))
      :: (l.words ++ r.words)

/-- Insertion by node index. -/
def insertNode (x : NodeIndex × NodeWord) :
    List (NodeIndex × NodeWord) → List (NodeIndex × NodeWord)
  | [] => [x]
  | y :: w => if x.1.toNat ≤ y.1.toNat then x :: y :: w else y :: insertNode x w

/-- `load_tree(T)` (R143): TREE_CLEAR, the nodes in the order of their index, then ROOT. -/
def loadTree (t : HostTree) : List Move :=
  opLoadTree (BitVec.ofNat 9 t.seq) (t.words.foldr insertNode [])

/-! ### Driving the block (R144, R145)

The host's moves are the only ones while a procedure runs (log 14). -/

/-- How many steps the block can still take before its script is used up and no engine step is
enabled, at most (Laws/HostRef.lean): each move of the script, each waiting beat with the bits of a
byte beat, each bit in the unpacker, the end of a running phase. -/
def stepsLeft (s : State) : Nat :=
  10 * s.script.length + s.symIn.length + 9 * s.byteIn.length + s.rem.toNat +
    (if s.phase = .idle then 0 else 1)

/-- An I/O failure of the host's own source or sink (R147): the host makes no further move, and while
a pass is running it reports the failure by `CMD ABORT`. -/
def reportFailure (s : State) : State :=
  if s.phase = .idle then { s with script := [] }
  else
    match step { s with script := [.cmd 0x05] } with
    | .next t => t
    | _ => s

/-- Steps until the script is used up, `fuel` of them at most. As soon as a write to the host's sink
has failed, which `failed` tells from the block's traces, the failure is reported (R147). -/
def drive (failed : State → Bool) : Nat → State → HostRun Unit
  | fuel, s =>
    if failed s then (.error .ioFailure, reportFailure s)
    else if s.script.isEmpty then (.ok (), s)
    else
      match fuel with
      | 0 => (.error .waitsForever, s)
      | k + 1 =>
        match step s with
        | .next t => drive failed k t
        | _ => (.error .waitsForever, s)

/-- The host gives the block a script and lets it run. -/
def perform (w : List Move) (failed : State → Bool) (s : State) : HostRun Unit :=
  let s := { s with script := w }
  drive failed (stepsLeft s) s

/-- The next part of a procedure, where the part before it has not failed. -/
def hostThen {α β : Type} (r : HostRun α) (f : α → State → HostRun β) : HostRun β :=
  match r.1 with
  | .ok a => f a r.2
  | .error e => (.error e, r.2)

/-- `wait until STATUS.BUSY = 0`, then `require` (R144, R145). -/
def waitThenRequire (c : State → Bool) (s : State) : HostRun Unit :=
  if s.phase ≠ .idle then (.error .waitsForever, s)
  else if c s then (.ok (), s)
  else (.error (.passFailed (errWord s)), s)

/-- A source feeding a running pass: the moves that start the pass and append what the source
delivers, then, where it has not failed, the moves `rest`; a failed read is reported (R147), after
the engine has done what it can with the beats fed (log 14). -/
def feedPass (start fed rest : List Move) (fails : Bool) (failed : State → Bool) (s : State) :
    HostRun Unit :=
  if fails then
    hostThen (perform (start ++ fed ++ [.run]) failed s) fun _ t => (.error .ioFailure, reportFailure t)
  else perform (start ++ fed ++ rest) failed s

/-- Loading a tree and building its table (R144 from `load_tree` to the `require`). -/
def loadAndBuild (t : HostTree) (s : State) : HostRun Unit :=
  hostThen (perform (loadTree t ++ opBuild) (fun _ => false) s) fun _ s =>
    waitThenRequire (fun s => s.done) s

/-- `CMD ACK` of R144. -/
def acknowledge (s : State) : HostRun Unit := perform [.cmd 0x06] (fun _ => false) s

/-- `encode(tree, source)` (R146; R144 from `CMD ENC_START` on) with the tree in the store: the byte
beats of the encoding pass. Each of them is a write to the host's sink. A recorded error is not
acknowledged, so with one pending ENC_START is refused, and the last `require` fails (log 14). -/
def encodeStream (src : Source Symbol) (sink : Sink) (s : State) : HostRun (List ByteBeat) :=
  let beats := fun t : State => t.byteOut.drop s.byteOut.length
  hostThen
    (feedPass [.cmd 0x03] (src.items.map lineSym) [lineEos, .run] src.fails
      (fun t => sinkFailed sink (beats t).length) s) fun _ t =>
    hostThen (waitThenRequire (fun t => t.done && !errpend t) t) fun _ t => (.ok (beats t), t)

/-- `compress(S)` (R144): the byte beats of the encoding pass. The source is read twice from its
start, and each reading may fail at its own place. Beats left in SYM_IN by an earlier pass are the
first of this one, as 70_reset_and_hazards.md H7 says. The waits have no bound but that no step is
left, and when a failed source or sink is reported is the model's choice (log 14). -/
def compress (first second : Source Symbol) (sink : Sink) (s : State) : HostRun (List ByteBeat) :=
  match frequenciesOf first >>= buildTree with
  | .error e => (.error e, s)
  | .ok t =>
    hostThen (loadAndBuild t s) fun _ s =>
      hostThen (acknowledge s) fun _ s => encodeStream second sink s

/-- The symbols before the end mark. -/
def symbolsOf : List SymBeat → List Symbol
  | [] => []
  | b :: w => if b.eos then [] else b.sym :: symbolsOf w

/-- `decompress(beats)` (R145), which is `decode(tree, bitstream)` of R146: the symbols of the decoding
pass. Each of them is a write to the host's sink. Beats left in BYTE_IN by an earlier pass are the first of this one, as
70_reset_and_hazards.md H7 says. The wait has no bound but that no step is left, and when a failed
source or sink is reported is the model's choice (log 14). -/
def decompress (src : Source ByteBeat) (sink : Sink) (s : State) : HostRun (List Symbol) :=
  let syms := fun t : State => symbolsOf (t.symOut.drop s.symOut.length)
  if s.treeValid = false then (.error .noTree, s)
  else
    hostThen
      (feedPass [.cmd 0x04] (src.items.map .byte) [.run] src.fails
        (fun t => sinkFailed sink (syms t).length) s) fun _ t =>
      hostThen (waitThenRequire (fun t => !errpend t) t) fun _ t => (.ok (syms t), t)

end Sys2Proof.Machine
end

