-- ==== Sys2Proof/Laws/HostRef.lean ====
section
/-! SUPPORT. The bound of the host's waiting is none: `stepsLeft` falls with every step, so a script
is always used up before it runs out (log 14). -/

namespace Sys2Proof.Machine

open Host (Outcome)

/-- `stepsLeft` without the moves of the script: what the engine still has to do. -/
def engineWork (s : State) : Nat :=
  s.symIn.length + 9 * s.byteIn.length + s.rem.toNat + (if s.phase = .idle then 0 else 1)

theorem stepsLeft_eq (s : State) : stepsLeft s = 10 * s.script.length + engineWork s := by
  unfold stepsLeft engineWork
  omega

/-- The beat the encoder may take is the oldest of SYM_IN. -/
theorem symIn_of_symReady {b : SymBeat} {s : State} (h : symReady b s = true) :
    s.phase = .enc ∧ s.symIn = b :: s.symIn.tail := by
  simp [symReady] at h
  refine ⟨h.1, ?_⟩
  cases hq : s.symIn with
  | nil => simp [hq] at h
  | cons x q => simp [hq] at h; rw [h.2]; rfl

/-- The beat the decoder may take is the oldest of BYTE_IN, and the unpacker is empty. -/
theorem byteIn_of_byteReady {b : ByteBeat} {s : State} (h : byteReady b s = true) :
    s.phase = .dec ∧ s.rem = 0 ∧ s.byteIn = b :: s.byteIn.tail := by
  simp [byteReady, biReady] at h
  refine ⟨h.1.1.1, h.1.1.2, ?_⟩
  cases hq : s.byteIn with
  | nil => simp [hq] at h
  | cons x q => simp [hq] at h; rw [h.2]; rfl

/-- A beat the decoder may take decodes to the arm of DEC_FETCH that fetches it. -/
theorem exec_decodeBytb {b : ByteBeat} {s : State} (h : byteReady b s = true) :
    exec (decodeWire (.bytb b.toBits)) s = .next (fetchByte b s) := by
  obtain ⟨l, n, d⟩ := b
  simp only [decodeWire, decodeBytb, byteBeat_ofBits_toBits]
  cases l
  · exact if_pos h
  · by_cases h8 : n.toNat < 8
    · have hn : (n.extractLsb' 0 3).setWidth 4 = n := by
        apply BitVec.eq_of_toNat_eq
        simp [BitVec.extractLsb'_toNat]
        omega
      simp only [h8, Bool.not_true, Bool.false_eq_true, if_true, if_false]
      show (if byteReady { last := true, nvalid := (n.extractLsb' 0 3).setWidth 4, data := d } s
        then Outcome.next _ else _) = _
      rw [hn]
      exact if_pos h
    · by_cases h9 : n.toNat = 8
      · have hn : n = 8 := BitVec.eq_of_toNat_eq h9
        subst hn
        exact if_pos h
      · simp only [h8, h9, Bool.not_true, Bool.false_eq_true, if_false]
        exact if_pos h

/-- What fetching a beat leaves to do: less. -/
theorem fetchByte_engineWork {b : ByteBeat} {s : State} (h : byteReady b s = true) :
    engineWork (fetchByte b s) < engineWork s ∧ (fetchByte b s).script = s.script := by
  obtain ⟨hp, hr, hq⟩ := byteIn_of_byteReady h
  unfold engineWork fetchByte unpackLoad
  rw [hq]
  have h0 : s.rem.toNat = 0 := by rw [hr]; rfl
  cases b.last
  · simp [takeByte, hp, h0]
    omega
  · by_cases hn : b.nvalid.toNat ≤ 8
    · simp [takeByte, hp, hn, h0]
      omega
    · simp [takeByte, hp, hn, h0]

/-- An effect leaves the script alone and adds at most a running phase to what the engine has to
do. -/
theorem effect_engineWork {i : Instr} {s t : State} (h : Effect s i t)
    (hi : isProcedure i = false) : t.script = s.script ∧ engineWork t ≤ engineWork s + 1 := by
  unfold engineWork
  cases h
  case packReset => cases hi
  case pushBit => cases hi
  case packClose => cases hi
  case unpackReset => cases hi
  case unpackLoad => cases hi
  case popBit => cases hi
  case fetch b hr hn =>
    obtain ⟨hp, h0, hq⟩ := byteIn_of_byteReady hr
    have h8 : (if b.last then b.nvalid else 8).toNat ≤ 8 := by
      split
      · exact hn ‹_›
      · decide
    rw [hq]
    simp [hp] at h8 ⊢
    omega
  case fetchBad b hr _ _ =>
    obtain ⟨-, -, hq⟩ := byteIn_of_byteReady hr
    rw [hq]
    simp
    omega
  case decBit hp hr =>
    have := (popBit_spec s hr).2.1
    have h1 : (decodeBit s).rem = (popBit s).2.rem := by simp
    rw [h1]
    simp [hp] at this ⊢
    omega
  all_goals simp
  all_goals (repeat' split)
  all_goals omega

/-- A step of the engine leaves less to do. -/
theorem engineInstr_engineWork {i : Instr} {s t : State} (hi : engineInstr s = some i)
    (h : exec i s = .next t) : t.script = s.script ∧ engineWork t < engineWork s := by
  unfold engineInstr at hi
  split at hi
  case h_1 => cases hi
  case h_2 hp =>
    cases hi
    cases (show Outcome.next (genRun s) = .next t by rw [← h]; exact (if_pos hp).symm)
    unfold engineWork genRun genFail
    split <;> simp [hp]
  case h_3 hp =>
    obtain ⟨b, hq, rfl⟩ := Option.map_eq_some_iff.1 hi
    obtain ⟨e, c⟩ := b
    have hq' : s.symIn = { eos := e, sym := c } :: s.symIn.tail := by
      cases hs : s.symIn <;> simp [hs] at hq ⊢
      exact hq
    have hr : symReady { eos := e, sym := c } s = true := by
      simp [symReady, hp, hq]
    have hw : engineWork s = s.symIn.tail.length + 1 + 9 * s.byteIn.length + s.rem.toNat + 1 := by
      unfold engineWork
      rw [hq']
      simp [hp]
    rw [hw]
    cases e
    · have hd : exec (decodeWire (.symb ({ eos := false, sym := c } : SymBeat).toBits)) s =
          .next (encodeSymbol c s) := by
        simp [decodeWire, decodeSymb, exec, execEncSym, hr]
      cases hd.symm.trans h
      unfold engineWork encodeSymbol
      dsimp only
      split <;> simp [hp]
    · have hd : exec (decodeWire (.symb ({ eos := true, sym := c } : SymBeat).toBits)) s =
          .next (encodeEnd s) := by
        simp [decodeWire, decodeSymb, exec, execEncEos, hr]
      cases hd.symm.trans h
      unfold engineWork encodeEnd
      simp
  case h_4 hp =>
    split at hi
    case isTrue hb =>
      cases hi
      have hr : s.rem ≠ 0 := by simpa [hasBit] using hb
      cases (show Outcome.next (decodeBit s) = .next t by
        rw [← h]; exact (if_pos (by simp [hp, hb])).symm)
      have := (popBit_spec s hr).2.1
      have h1 : (decodeBit s).rem = (popBit s).2.rem := by simp
      unfold engineWork
      rw [h1]
      simp [hp] at this ⊢
      omega
    case isFalse hb =>
      split at hi
      case isTrue hx =>
        cases hi
        cases (show Outcome.next (decodeEnd s) = .next t by
          rw [← h]; exact (if_pos (by simp [hp, hx])).symm)
        unfold engineWork decodeEnd
        dsimp only
        split <;> simp [hp]
      case isFalse hx =>
        obtain ⟨b, hq, rfl⟩ := Option.map_eq_some_iff.1 hi
        have hr : byteReady b s = true := by
          simp [byteReady, biReady, hp, hq]
          simp [hasBit] at hb
          simp [exhausted, hb] at hx
          exact ⟨hb, hx⟩
        have hd := exec_decodeBytb hr
        cases hd.symm.trans h
        exact (fetchByte_engineWork hr).symm

/-- Every instruction answers a next state. -/
theorem exec_next (i : Instr) (s : State) : ∃ t, exec i s = .next t := by
  cases i <;> first
    | exact ⟨_, rfl⟩
    | (simp only [exec, execGenRun, execEncSym, execEncEos, execDecFetchFull, execDecFetchFinal,
        execDecFetchFinal8, execDecFetchBad, execDecBit, execDecFinish, execPopBit]
       split <;> exact ⟨_, rfl⟩)

/-- With a move left a step answers, and less is left to do. -/
theorem step_stepsLeft {s : State} (h : s.script ≠ []) :
    ∃ t, step s = .next t ∧ stepsLeft t < stepsLeft s := by
  have hport : ∀ (w : Wire) (s : State),
      ∃ t, portMove w s = .next t ∧ t.script = s.script ∧ engineWork t ≤ engineWork s + 1 := by
    intro w s
    unfold portMove
    split
    · exact ⟨s, rfl, rfl, Nat.le_succ _⟩
    · obtain ⟨t, ht⟩ := exec_next (decodeWire w) s
      exact ⟨t, ht, effect_engineWork (exec_effect ht) (decodeWire_not_procedure w)⟩
  have heng : ∀ {i : Instr} {s : State} {ms : List Move}, enabledInstr s = some i →
      ∃ t, exec i { s with script := ms } = .next t ∧ t.script = ms ∧
        engineWork t < engineWork s := by
    intro i s ms hi
    unfold enabledInstr at hi
    split at hi
    · cases hi
    · obtain ⟨t, ht⟩ := exec_next i { s with script := ms }
      exact ⟨t, ht, engineInstr_engineWork (s := { s with script := ms }) hi ht⟩
  cases hs : s.script with
  | nil => exact absurd hs h
  | cons m rest =>
    have hl : stepsLeft s = 10 * rest.length + 10 + engineWork s := by
      rw [stepsLeft_eq, hs, List.length_cons]
      omega
    have hstep : step s = runMove m { s with script := rest } := by
      simp [step, agentStep, hs]
    rw [hl, hstep]
    have hsame : engineWork { s with script := rest } = engineWork s := rfl
    have hdone : stepsLeft { s with script := rest } < 10 * rest.length + 10 + engineWork s := by
      rw [stepsLeft_eq, hsame]
      show 10 * rest.length + _ < _
      omega
    have hw : ∀ w, ∃ t, portMove w { s with script := rest } = .next t ∧
        stepsLeft t < 10 * rest.length + 10 + engineWork s := by
      intro w
      obtain ⟨t, ht, h1, h2⟩ := hport w { s with script := rest }
      refine ⟨t, ht, ?_⟩
      rw [stepsLeft_eq, h1]
      rw [hsame] at h2
      show 10 * rest.length + _ < _
      omega
    cases m with
    | cmd v => exact hw _
    | wr idx v => exact hw _
    | rd idx => exact hw _
    | sym b =>
      refine ⟨_, rfl, ?_⟩
      simp [stepsLeft, engineWork]
      omega
    | byte b =>
      refine ⟨_, rfl, ?_⟩
      simp [stepsLeft, engineWork]
      omega
    | engine =>
      simp only [runMove]
      split
      · obtain ⟨t, ht, h1, h2⟩ := heng (ms := rest) ‹_›
        refine ⟨t, ht, ?_⟩
        rw [stepsLeft_eq, h1]
        rw [hsame] at h2
        omega
      · exact ⟨_, rfl, hdone⟩
    | run =>
      simp only [runMove]
      split
      · obtain ⟨t, ht, h1, h2⟩ := heng (ms := .run :: rest) ‹_›
        refine ⟨t, ht, ?_⟩
        rw [stepsLeft_eq, h1, List.length_cons]
        rw [hsame] at h2
        omega
      · exact ⟨_, rfl, hdone⟩
    | rst l =>
      cases l
      · exact ⟨_, rfl, hdone⟩
      · refine ⟨_, rfl, ?_⟩
        simp [stepsLeft, engineWork]
        omega

/-- `drive` with `stepsLeft` steps uses the script up, or stops at a failed write: its bound is never
what ends it. -/
theorem drive_uses_up_the_script (failed : State → Bool) (fuel : Nat) (s : State)
    (h : stepsLeft s ≤ fuel) :
    (∃ t, drive failed fuel s = (.ok (), t) ∧ t.script = []) ∨
    ∃ t, drive failed fuel s = (.error .ioFailure, t) := by
  induction fuel generalizing s with
  | zero =>
    unfold drive
    by_cases hf : failed s = true
    · exact .inr ⟨_, if_pos hf⟩
    · have hs : s.script = [] := by
        by_contra hc
        obtain ⟨t, -, ht⟩ := step_stepsLeft hc
        omega
      exact .inl ⟨s, by simp [hf, hs], hs⟩
  | succ k ih =>
    unfold drive
    by_cases hf : failed s = true
    · exact .inr ⟨_, if_pos hf⟩
    · by_cases hs : s.script = []
      · exact .inl ⟨s, by simp [hf, hs], hs⟩
      · obtain ⟨t, ht, hl⟩ := step_stepsLeft hs
        have hne : s.script.isEmpty = false := by simp [hs]
        rw [if_neg hf, hne, if_neg (by decide)]
        simp only [ht]
        exact ih t (by omega)

/-- So the host's moves are all made, or its sink has failed. -/
theorem perform_uses_up_the_script (w : List Move) (failed : State → Bool) (s : State) :
    (∃ t, perform w failed s = (.ok (), t) ∧ t.script = []) ∨
    ∃ t, perform w failed s = (.error .ioFailure, t) :=
  drive_uses_up_the_script failed _ _ (Nat.le_refl _)

end Sys2Proof.Machine
end

