-- ==== Sys2Proof/Laws/PerInstr.lean ====
section
/-! SUPPORT. One lemma for each instruction: its word carries the fixed fields that its row of
spec/opcode_table.json gives. -/

namespace Sys2Proof.Laws.EncodedRow

/-- A fixed field of a row: its lowest bit, its width, its value. -/
structure Field where
  lo : Nat
  width : Nat
  value : Nat

/-- The number a word is, in the numbering of the table (of a register access the direction and the
index). -/
def number : Wire → Nat
  | .cmdw v => v.toNat
  | .regw di _ => di.toNat
  | .symb b => b.toNat
  | .bytb b => b.toNat

/-- The fixed fields of the row of an instruction, as the table lists them. -/
def fields : Instr → List Field
  | .nop => [⟨0, 32, 0⟩]
  | .treeClear => [⟨0, 32, 1⟩]
  | .buildTable => [⟨0, 32, 2⟩]
  | .encStart => [⟨0, 32, 3⟩]
  | .decStart => [⟨0, 32, 4⟩]
  | .abort => [⟨0, 32, 5⟩]
  | .ack => [⟨0, 32, 6⟩]
  | .softReset => [⟨0, 32, 7⟩]
  | .cmdIllegal _ => []
  | .regRd _ => [⟨6, 1, 0⟩]
  | .regWr _ _ => [⟨6, 1, 1⟩]
  | .regWrCmd _ => [⟨0, 7, 0x41⟩]
  | .regWrIe _ => [⟨0, 7, 0x45⟩]
  | .regWrRoot _ => [⟨0, 7, 0x46⟩]
  | .regWrNodeAddr _ => [⟨0, 7, 0x47⟩]
  | .regWrNodeData _ => [⟨0, 7, 0x48⟩]
  | .regWrCodeSel _ => [⟨0, 7, 0x49⟩]
  | .encSym _ => [⟨8, 1, 0⟩]
  | .encEos _ => [⟨8, 1, 1⟩]
  | .decFetchFull _ _ => [⟨12, 1, 0⟩]
  | .decFetchFinal _ _ => [⟨11, 2, 2⟩]
  | .decFetchFinal8 _ => [⟨8, 5, 0x18⟩]
  | .decFetchBad _ _ => [⟨11, 2, 3⟩]
  | .genRun | .decBit | .decFinish => []
  | .packReset | .pushBit _ | .packClose | .unpackReset | .unpackLoad _ | .popBit => []
  | .reset => []

/-- The word of a well-formed instruction has its row's fixed fields. -/
def Statement (i : Instr) : Prop :=
  i.wellFormed = true → ∀ w, encode i = some w →
    ∀ f ∈ fields i, number w / 2 ^ f.lo % 2 ^ f.width = f.value

/-- Fields side by side as a number. -/
theorem toNat_join {n m : Nat} (x : BitVec n) (y : BitVec m) :
    (x ++ y).toNat = x.toNat * 2 ^ m + y.toNat := by
  rw [BitVec.toNat_append, ← Nat.shiftLeft_add_eq_or_of_lt y.isLt, Nat.shiftLeft_eq]

theorem nop : Statement .nop := by
  intro _ w h f hf; cases h; simp [fields] at hf; subst hf; rfl
theorem treeClear : Statement .treeClear := by
  intro _ w h f hf; cases h; simp [fields] at hf; subst hf; rfl
theorem buildTable : Statement .buildTable := by
  intro _ w h f hf; cases h; simp [fields] at hf; subst hf; rfl
theorem encStart : Statement .encStart := by
  intro _ w h f hf; cases h; simp [fields] at hf; subst hf; rfl
theorem decStart : Statement .decStart := by
  intro _ w h f hf; cases h; simp [fields] at hf; subst hf; rfl
theorem abort : Statement .abort := by
  intro _ w h f hf; cases h; simp [fields] at hf; subst hf; rfl
theorem ack : Statement .ack := by
  intro _ w h f hf; cases h; simp [fields] at hf; subst hf; rfl
theorem softReset : Statement .softReset := by
  intro _ w h f hf; cases h; simp [fields] at hf; subst hf; rfl
theorem cmdIllegal (v : Word) : Statement (.cmdIllegal v) := by
  intro _ w h f hf; simp [fields] at hf
theorem regRd (idx : RegIndex) : Statement (.regRd idx) := by
  intro _ w h f hf; cases h; simp [fields] at hf; subst hf
  simp only [regwRead, number, toNat_join]
  have := idx.isLt
  simp
  omega
theorem regWr (idx : RegIndex) (v : Word) : Statement (.regWr idx v) := by
  intro _ w h f hf; cases h; simp [fields] at hf; subst hf
  simp only [regwWrite, number, toNat_join]
  have := idx.isLt
  simp
  omega
theorem regWrCmd (v : Word) : Statement (.regWrCmd v) := by
  intro _ w h f hf; cases h; simp [fields] at hf; subst hf
  simp only [regwWrite, number, toNat_join]
  decide
theorem regWrIe (v : Word) : Statement (.regWrIe v) := by
  intro _ w h f hf; cases h; simp [fields] at hf; subst hf
  simp only [regwWrite, number, toNat_join]
  decide
theorem regWrRoot (v : Word) : Statement (.regWrRoot v) := by
  intro _ w h f hf; cases h; simp [fields] at hf; subst hf
  simp only [regwWrite, number, toNat_join]
  decide
theorem regWrNodeAddr (v : Word) : Statement (.regWrNodeAddr v) := by
  intro _ w h f hf; cases h; simp [fields] at hf; subst hf
  simp only [regwWrite, number, toNat_join]
  decide
theorem regWrNodeData (v : Word) : Statement (.regWrNodeData v) := by
  intro _ w h f hf; cases h; simp [fields] at hf; subst hf
  simp only [regwWrite, number, toNat_join]
  decide
theorem regWrCodeSel (v : Word) : Statement (.regWrCodeSel v) := by
  intro _ w h f hf; cases h; simp [fields] at hf; subst hf
  simp only [regwWrite, number, toNat_join]
  decide
theorem encSym (c : Symbol) : Statement (.encSym c) := by
  intro _ w h f hf; cases h; simp [fields] at hf; subst hf
  simp only [number, toNat_join]
  have := c.isLt
  simp
  omega
theorem encEos (c : Symbol) : Statement (.encEos c) := by
  intro _ w h f hf; cases h; simp [fields] at hf; subst hf
  simp only [number, toNat_join]
  have := c.isLt
  simp
  omega
theorem decFetchFull (n : BitVec 4) (d : Byte) : Statement (.decFetchFull n d) := by
  intro _ w h f hf; cases h; simp [fields] at hf; subst hf
  simp only [number, toNat_join]
  have := n.isLt
  have := d.isLt
  simp
  omega
theorem decFetchFinal (n : BitVec 3) (d : Byte) : Statement (.decFetchFinal n d) := by
  intro _ w h f hf; cases h; simp [fields] at hf; subst hf
  simp only [number, toNat_join]
  have := n.isLt
  have := d.isLt
  simp
  omega
theorem decFetchFinal8 (d : Byte) : Statement (.decFetchFinal8 d) := by
  intro _ w h f hf; cases h; simp [fields] at hf; subst hf
  simp only [number, toNat_join]
  have := d.isLt
  simp
  omega
theorem decFetchBad (n : BitVec 4) (d : Byte) : Statement (.decFetchBad n d) := by
  intro hw w h f hf; cases h; simp [fields] at hf; subst hf
  simp only [number, toNat_join]
  have h1 : 8 < n.toNat := of_decide_eq_true hw
  have := n.isLt
  have := d.isLt
  simp
  omega
theorem genRun : Statement .genRun := by intro _ w h; cases h
theorem decBit : Statement .decBit := by intro _ w h; cases h
theorem decFinish : Statement .decFinish := by intro _ w h; cases h
theorem packReset : Statement .packReset := by intro _ w h; cases h
theorem pushBit (b : Bool) : Statement (.pushBit b) := by intro _ w h; cases h
theorem packClose : Statement .packClose := by intro _ w h; cases h
theorem unpackReset : Statement .unpackReset := by intro _ w h; cases h
theorem unpackLoad (beat : ByteBeat) : Statement (.unpackLoad beat) := by intro _ w h; cases h
theorem popBit : Statement .popBit := by intro _ w h; cases h
theorem reset : Statement .reset := by intro _ w h; cases h

end Sys2Proof.Laws.EncodedRow
end

