-- ==== Sys2Proof/Tests/Slice0.lean ====
section
/-! SUPPORT. The model's own tests: the well-formedness checks, the words of the formats, one step
for each instruction, the host's two helpers. Expected values come from spec/95_test_vectors.md
(named V.. after it) or were worked out by hand from the rule named. -/

namespace Sys2Proof.Tests

open Sys2Proof Sys2Proof.Machine
open Host (Outcome)

/-! ### Well-formedness: an ill-formed term for each check -/

theorem test_cmdIllegal_of_a_command_is_refused : (Instr.cmdIllegal 7).wellFormed = false := by
  decide
theorem test_cmdIllegal_of_first_other_word : (Instr.cmdIllegal 8).wellFormed = true := by decide
theorem test_regWr_of_a_target_is_refused :
    ([0x01, 0x05, 0x06, 0x07, 0x08, 0x09] : List RegIndex).all
      (fun i => (Instr.regWr i 0).wellFormed == false) = true := by decide
theorem test_regWr_of_a_read_only_register : (Instr.regWr 0x02 0).wellFormed = true := by decide
theorem test_decFetchBad_of_8_is_refused : (Instr.decFetchBad 8 0).wellFormed = false := by decide
theorem test_decFetchBad_of_9 : (Instr.decFetchBad 9 0).wellFormed = true := by decide

/-! ### Words (30_encoding.md R66, R69 to R72, the layouts written out bit by bit) -/

theorem test_word_nop : decodeWire (.cmdw 0b00000000000000000000000000000000) = .nop := by decide
theorem test_word_treeClear :
    decodeWire (.cmdw 0b00000000000000000000000000000001) = .treeClear := by decide
theorem test_word_buildTable :
    decodeWire (.cmdw 0b00000000000000000000000000000010) = .buildTable := by decide
theorem test_word_encStart :
    decodeWire (.cmdw 0b00000000000000000000000000000011) = .encStart := by decide
theorem test_word_decStart :
    decodeWire (.cmdw 0b00000000000000000000000000000100) = .decStart := by decide
theorem test_word_abort :
    decodeWire (.cmdw 0b00000000000000000000000000000101) = .abort := by decide
theorem test_word_ack : decodeWire (.cmdw 0b00000000000000000000000000000110) = .ack := by decide
theorem test_word_softReset :
    decodeWire (.cmdw 0b00000000000000000000000000000111) = .softReset := by decide
theorem test_word_cmdIllegal_opcode : decodeWire (.cmdw 0x00000008) = .cmdIllegal 0x8 := by decide
theorem test_word_cmdIllegal_reserved_bit :
    decodeWire (.cmdw 0x00000103) = .cmdIllegal 0x103 := by decide
theorem test_word_regRd : decodeWire (.regw 0b0001010 0) = .regRd 0x0A := by decide
theorem test_word_regRd_unmapped : decodeWire (.regw 0b0111111 0) = .regRd 0x3F := by decide
theorem test_word_regWr : decodeWire (.regw 0b1000010 5) = .regWr 0x02 5 := by decide
theorem test_word_regWrCmd : decodeWire (.regw 0b1000001 6) = .regWrCmd 6 := by decide
theorem test_word_regWrIe : decodeWire (.regw 0b1000101 3) = .regWrIe 3 := by decide
theorem test_word_regWrRoot : decodeWire (.regw 0b1000110 8) = .regWrRoot 8 := by decide
theorem test_word_regWrNodeAddr : decodeWire (.regw 0b1000111 511) = .regWrNodeAddr 511 := by
  decide
theorem test_word_regWrNodeData :
    decodeWire (.regw 0b1001000 0x40061) = .regWrNodeData 0x40061 := by decide
theorem test_word_regWrCodeSel : decodeWire (.regw 0b1001001 0x62) = .regWrCodeSel 0x62 := by
  decide
theorem test_word_encSym : decodeWire (.symb 0b001100001) = .encSym 0x61 := by decide
theorem test_word_encEos : decodeWire (.symb 0b100000000) = .encEos 0 := by decide
theorem test_word_decFetchFull :
    decodeWire (.bytb 0b0111101101110) = .decFetchFull 15 0x6E := by decide
theorem test_word_decFetchFinal :
    decodeWire (.bytb 0b1011111011100) = .decFetchFinal 7 0xDC := by decide
theorem test_word_decFetchFinal8 :
    decodeWire (.bytb 0b1100010100101) = .decFetchFinal8 0xA5 := by decide
theorem test_word_decFetchBad :
    decodeWire (.bytb 0b1100110000000) = .decFetchBad 9 0x80 := by decide

/-! ### Words of the table (log 10) and bytes -/

theorem test_table_command : decodeTableWord 32 0x00000004 = some .decStart := by decide
theorem test_table_register_write : decodeTableWord 8 0x48 = some (.regWrNodeData 0) := by decide
theorem test_table_register_read : decodeTableWord 8 0x02 = some (.regRd 0x02) := by decide
theorem test_table_symbol_beat : decodeTableWord 16 0x061 = some (.encSym 0x61) := by decide
theorem test_table_end_mark : decodeTableWord 16 0x100 = some (.encEos 0) := by decide
theorem test_table_byte_beat : decodeTableWord 16 0x17DC = some (.decFetchFinal 7 0xDC) := by
  decide
theorem test_table_stray_bits : decodeTableWord 16 0x2000 = none := by decide
theorem test_bytes_of_a_command : decode .cmdw [0x03, 0x01, 0x00, 0x00] = .ok (.cmdIllegal 0x103) := by
  decide
theorem test_bytes_short : decode .cmdw [0x03, 0x01, 0x00] = .error .wrongLength := by decide
theorem test_bytes_stray : decode .symb [0x61, 0x02] = .error .strayBits := by decide

/-! ### States -/

/-- Tree V3 "ab" of spec/95_test_vectors.md built and acknowledged: `STATUS = 0x18`. -/
def ab : State :=
  { State.reset with
    treeValid := true, tableValid := true, root := 2, nodeAddr := 2, nleaf := 2
    node := [(0, 0x40061), (1, 0x40062), (2, 0x00001)]
    nvalid := [(0, true), (1, true), (2, true)]
    table := [(0x61, [false]), (0x62, [true])] }

/-- Tree V3 loaded, BUILD_TABLE accepted. -/
def abGen : State :=
  { ab with treeValid := false, tableValid := false, nleaf := 0, table := [], phase := .gen }

/-- Tree V1 "aaaa" built and acknowledged: `STATUS = 0x38`. -/
def aaaa : State :=
  { State.reset with
    treeValid := true, tableValid := true, rootLeaf := true, nleaf := 1
    node := [(0, 0x40061)], nvalid := [(0, true)], table := [(0x61, [false])] }

/-- Tree V2 "abracadabra" built and acknowledged: `STATUS = 0x18`. -/
def abra : State :=
  { State.reset with
    treeValid := true, tableValid := true, root := 8, nodeAddr := 8, nleaf := 5
    node := [(0, 0x40061), (1, 0x40062), (2, 0x40063), (3, 0x40064), (4, 0x40072), (5, 0x00403),
      (6, 0x00204), (7, 0x00A06), (8, 0x00007)]
    nvalid := [(0, true), (1, true), (2, true), (3, true), (4, true), (5, true), (6, true),
      (7, true), (8, true)]
    table := [(0x61, [false]), (0x62, [true, true, false]), (0x63, [true, false, false]),
      (0x64, [true, false, true]), (0x72, [true, true, true])] }

/-- An encoding pass over V2 with these symbol beats waiting. -/
def abraEnc (q : List SymBeat) : State := { abra with phase := .enc, symIn := q }

/-- A decoding pass over V2 with these byte beats waiting. -/
def abraDec (q : List ByteBeat) : State := { abra with phase := .dec, cur := 8, byteIn := q }

/-- Fields of the next state. -/
def after {α : Type} (i : Instr) (s : State) (f : State → α) : Option α :=
  match exec i s with
  | .next t => some (f t)
  | _ => none

/-- Fields after one step. -/
def stepped {α : Type} (s : State) (f : State → α) : Option α :=
  match step s with
  | .next t => some (f t)
  | _ => none

/-! ### One step for each instruction -/

/-- V16, V12: a fresh block reads STATUS 0, `ab` reads 0x18. -/
theorem test_regRd_status :
    after (.regRd 0x02) State.reset State.hRdata = some 0 ∧
    after (.regRd 0x02) ab State.hRdata = some 0x18 := by decide
/-- V2: the code of 'b', "110". -/
theorem test_regRd_code :
    after (.regRd 0x0A) { abra with codeSel := 0x62 } State.hRdata = some 0x80000003 ∧
    after (.regRd 0x10) { abra with codeSel := 0x62 } State.hRdata = some 0xC0000000 := by decide
/-- V11, V10. -/
theorem test_regRd_unmapped_and_id :
    after (.regRd 0x18) ab State.hRdata = some 0 ∧
    after (.regRd 0x00) ab State.hRdata = some 0x48554601 := by decide
theorem test_nop : exec .nop abra = .next abra := rfl
/-- V19: TREE_CLEAR in a pass is CMD_BUSY. -/
theorem test_treeClear_busy :
    after .treeClear (abraEnc []) (fun t => (t.errCode, t.errInfo, t.root)) =
      some (0x51, 1, 8) := by decide
theorem test_treeClear :
    after .treeClear ab (fun t => (t.nvalid, t.root, statusWord t)) = some ([], 0, 0) := by decide
/-- V1F: STATUS 0x3 while generating. -/
theorem test_buildTable : after .buildTable ab statusWord = some 0x3 := by decide
/-- R85 check 4. -/
theorem test_buildTable_errpend :
    after .buildTable { ab with errCode := 0x40 } (fun t => (t.phase, errWord t)) =
      some (.idle, 0x80000040) := by decide
/-- V12. -/
theorem test_encStart_no_table :
    after .encStart State.reset (fun t => (errWord t, statusWord t)) = some (0x16, 0x80) := by
  decide
/-- V16. -/
theorem test_encStart : after .encStart abra statusWord = some 0x1D := by decide
/-- V12c. -/
theorem test_decStart_no_tree : after .decStart State.reset errWord = some 0x15 := by decide
theorem test_decStart :
    after .decStart abra (fun t => (statusWord t, t.cur)) = some (0x1F, 8) := by decide
/-- V1F. -/
theorem test_abort_gen :
    after .abort abGen (fun t => (statusWord t, errWord t, t.errInfo)) = some (0x80, 0x30, 1) := by
  decide
/-- V59: three bits pending. -/
theorem test_abort_enc :
    after .abort { abraEnc [] with acc := 0xC0, nb := 3 }
      (fun t => (t.byteOut.map ByteBeat.toBits, statusWord t, t.errInfo)) =
      some ([0x13C0], 0x98, 2) := by decide
/-- V57, V58: ACK clears the error record and DONE. -/
theorem test_ack :
    after .ack { ab with done := true, errCode := 0x20, errMulti := true, errInfo := 0x7A }
      (fun t => (statusWord t, errWord t, t.errInfo)) = some (0x18, 0, 0) := by decide
/-- V1I: no end mark, BYTE_IN keeps its beat. -/
theorem test_softReset :
    after .softReset (abraDec [{ last := true, nvalid := 1, data := 0 }])
      (fun t => (statusWord t, t.symOut, t.byteIn.map ByteBeat.toBits, registerWord 0x08 t)) =
      some (0, [], [0x1100], 0) := by decide
/-- V15. -/
theorem test_cmdIllegal :
    after (.cmdIllegal 0x103) State.reset (fun t => (errWord t, t.errInfo, t.phase)) =
      some (0x50, 0x103, .idle) := by decide
/-- R95: a read-only register ignores a write. -/
theorem test_regWr_ignored : exec (.regWr 0x02 0xFFFFFFFF) ab = .next ab := rfl
/-- V14. -/
theorem test_regWrCmd :
    after (.regWrCmd 8) State.reset (fun t => (errWord t, t.errInfo)) = some (0x50, 8) := by decide
/-- V1D. -/
theorem test_regWrIe : after (.regWrIe 0xFFFFFFFF) State.reset ieWord = some 3 := by decide
/-- V1D; V17 is the lock. -/
theorem test_regWrRoot : after (.regWrRoot 0x000ABCDE) State.reset State.root = some 0xDE := by
  decide
theorem test_regWrRoot_locked :
    after (.regWrRoot 3) (abraEnc []) (fun t => (t.root, errWord t, t.errInfo)) =
      some (8, 0x53, 6) := by decide
/-- V1C. -/
theorem test_regWrNodeAddr : after (.regWrNodeAddr 0xFFFFFE03) abra State.nodeAddr = some 3 := by
  decide
/-- V1B. -/
theorem test_regWrNodeData :
    after (.regWrNodeData 0xFFFFFFFF) { State.reset with nodeAddr := 3 } (registerWord 0x08) =
      some 0x8007FFFF := by decide
/-- V18. -/
theorem test_regWrNodeData_locked :
    after (.regWrNodeData 0) (abraEnc []) (fun t => (registerWord 0x08 t, t.errCode, t.errInfo)) =
      some (0x80000007, 0x53, 8) := by decide
/-- V1D. -/
theorem test_regWrCodeSel : after (.regWrCodeSel 0x1FF) abra State.codeSel = some 0xFF := by decide
/-- V59 before the ABORT. -/
theorem test_encSym :
    after (.encSym 0x62) (abraEnc [{ eos := false, sym := 0x62 }])
      (fun t => (t.acc, t.nb, t.byteOut, t.encSymcnt, t.encBitcnt)) =
      some (0xC0, 3, [], 1, 3) := by decide
/-- V56 at its third symbol. -/
theorem test_encSym_lookup_failure :
    after (.encSym 0x7A) { abraEnc [{ eos := false, sym := 0x7A }] with acc := 0x60, nb := 4 }
      (fun t => (t.byteOut.map ByteBeat.toBits, errWord t, t.errInfo, statusWord t)) =
      some ([0x1460], 0x20, 0x7A, 0x98) := by decide
/-- V55. -/
theorem test_encEos :
    after (.encEos 0) (abraEnc [{ eos := true, sym := 0 }])
      (fun t => (t.byteOut.map ByteBeat.toBits, statusWord t)) = some ([0x1000], 0x58) := by decide
/-- V27: the NVALID field of a full beat is ignored. -/
theorem test_decFetchFull :
    after (.decFetchFull 15 0x6E) (abraDec [{ last := false, nvalid := 15, data := 0x6E }])
      (fun t => (t.shr, t.rem, t.endseen, t.byteIn)) = some (0x6E, 8, false, []) := by decide
/-- V23: exhausted at once. -/
theorem test_decFetchFinal :
    after (.decFetchFinal 0 0) (abraDec [{ last := true, nvalid := 0, data := 0 }])
      (fun t => (t.rem, t.endseen)) = some (0, true) := by decide
/-- V49. -/
theorem test_decFetchFinal8 :
    after (.decFetchFinal8 0xA5) (abraDec [{ last := true, nvalid := 8, data := 0xA5 }])
      (fun t => (t.shr, t.rem, t.endseen)) = some (0xA5, 8, true) := by decide
/-- V24. -/
theorem test_decFetchBad :
    after (.decFetchBad 9 0x80) (abraDec [{ last := true, nvalid := 9, data := 0x80 }])
      (fun t => (t.symOut.map SymBeat.toBits, errWord t, t.errInfo, statusWord t)) =
      some ([0x100], 0x31, 9, 0x98) := by decide
/-- V3. -/
theorem test_genRun :
    after .genRun abGen (fun t => (t.table, t.nleaf, statusWord t)) =
      some ([(0x61, [false]), (0x62, [true])], 2, 0x58) := by decide
/-- V33. -/
theorem test_genRun_dupsym :
    after .genRun { abGen with node := [(0, 0x40041), (1, 0x40041), (2, 0x00001)] }
      (fun t => (t.table, errWord t, t.errInfo, statusWord t)) =
      some ([], 0x13, 0x00410001, 0x80) := by decide
/-- V20: bit 1 leads to the internal node 7. -/
theorem test_decBit_internal :
    after .decBit { abraDec [] with shr := 0x80, rem := 1, endseen := true }
      (fun t => (t.cur, t.symOut, t.rem, t.decBitcnt)) = some (7, [], 0, 1) := by decide
/-- V63: a single-leaf tree emits its symbol whatever the bit. -/
theorem test_decBit_single_leaf :
    after .decBit { aaaa with phase := .dec, shr := 0x80, rem := 1 }
      (fun t => (t.symOut.map SymBeat.toBits, t.decSymcnt, t.cur)) = some ([0x061], 1, 0) := by
  decide
/-- V20 at its end. -/
theorem test_decFinish_truncated :
    after .decFinish { abraDec [] with cur := 7, endseen := true }
      (fun t => (t.symOut.map SymBeat.toBits, errWord t, t.errInfo, statusWord t)) =
      some ([0x100], 0x40, 7, 0x98) := by decide
/-- V23 at its end. -/
theorem test_decFinish :
    after .decFinish { abraDec [] with endseen := true }
      (fun t => (t.symOut.map SymBeat.toBits, statusWord t)) = some ([0x100], 0x58) := by decide
theorem test_packReset :
    after .packReset { ab with acc := 0xC0, nb := 3 } (fun t => (t.acc, t.nb)) = some (0, 0) := by
  decide
/-- V40 at its eighth bit. -/
theorem test_pushBit :
    after (.pushBit false) { ab with acc := 0x6E, nb := 7, encBitcnt := 7 }
      (fun t => (t.byteOut.map ByteBeat.toBits, t.acc, t.nb, t.encBitcnt)) =
      some ([0x086E], 0, 0, 8) := by decide
/-- V43. -/
theorem test_packClose :
    after .packClose { ab with acc := 0xFE, nb := 7 }
      (fun t => (t.byteOut.map ByteBeat.toBits, t.acc, t.nb)) = some ([0x17FE], 0, 0) := by decide
theorem test_unpackReset :
    after .unpackReset { ab with shr := 0x80, rem := 3, endseen := true }
      (fun t => (t.shr, t.rem, t.endseen)) = some (0, 0, false) := by decide
/-- V4A. -/
theorem test_unpackLoad_bad :
    exec (.unpackLoad { last := true, nvalid := 9, data := 0 }) ab = .next ab := rfl
/-- V47. -/
theorem test_unpackLoad :
    after (.unpackLoad { last := false, nvalid := 15, data := 0x6E }) ab
      (fun t => (t.shr, t.rem, t.endseen)) = some (0x6E, 8, false) := by decide
/-- V46 at its first bit. -/
theorem test_popBit :
    after .popBit { ab with shr := 0xDC, rem := 7 } (fun t => (t.shr, t.rem, t.decBitcnt)) =
      some (0xB8, 6, 1) := by decide
theorem test_reset :
    after .reset { ab with doneIe := true, encBitcnt := 5 } (fun t => (t.doneIe, t.encBitcnt)) =
      some (false, 0) := by decide

/-! ### Steps and the host's helpers -/

/-- R179: a pass with no beat and no move is stuck. -/
theorem test_step_stuck : step (abraEnc []) = .fault .stuck := rfl
/-- The line RUN stays until no engine step is enabled. -/
theorem test_step_run :
    stepped { abGen with script := [.run] } (fun t => (t.phase, t.script)) =
      some (.idle, [.run]) := by decide
theorem test_fetch_command :
    step (State.reset.withFetchWord 32 0x00000003) = exec .encStart State.reset := rfl
theorem test_fetch_register_write :
    step (State.reset.withFetchWord 8 0x46) = exec (.regWrRoot 0) State.reset := rfl
theorem test_fetch_symbol_beat :
    stepped (State.reset.withFetchWord 16 0x100) (fun t => (t.done, t.symIn)) =
      some (true, []) := by decide
theorem test_fetch_byte_beat :
    stepped (State.reset.withFetchWord 16 0x1900) (fun t => (t.errCode, t.errInfo)) =
      some (0x31, 9) := by decide

/-! ### The host's procedures (R147) -/

/-- V72: nothing is loaded for an empty source. -/
theorem test_compress_empty :
    compress ⟨[], false⟩ ⟨[], false⟩ none ab = (.error .invalidInput, ab) := rfl
/-- A read that fails in the first pass ends before any pass of the block. -/
theorem test_compress_first_read_fails :
    compress ⟨[0x61], true⟩ ⟨[0x61], false⟩ none ab = (.error .ioFailure, ab) := rfl
/-- V59: the failure of a running encoding pass is reported by ABORT. -/
theorem test_reportFailure :
    (fun t => (t.byteOut.map ByteBeat.toBits, errWord t, t.errInfo, statusWord t))
      (reportFailure { abraEnc [] with acc := 0xC0, nb := 3 }) = ([0x13C0], 0x30, 2, 0x98) := by
  decide
/-- V28: and of a decoding pass, whose first read fails. -/
theorem test_decompress_read_fails :
    (fun r => (r.1, r.2.symOut.map SymBeat.toBits, errWord r.2, r.2.errInfo))
      (decompress ⟨[], true⟩ none ab) = (.error .ioFailure, [0x100], 0x30, 3) := by rfl
/-- R146, R85 check 4: `encode` does not acknowledge, so with an error pending ENC_START is refused:
ERR_MULTI is set, nothing is emitted. -/
theorem test_encode_refused :
    (fun r => (r.2.byteOut, errWord r.2))
      (encodeStream ⟨[], true⟩ none { ab with errCode := 0x50 }) = ([], 0x80000050) := by rfl
theorem test_sinkFailed : sinkFailed (some 1) 1 = false ∧ sinkFailed (some 1) 2 = true := by decide

end Sys2Proof.Tests
end

