-- ==== Sys2Proof/Tests/Witnesses.lean ====
section
/-! SUPPORT. For each statement with hypotheses, concrete states and operands that meet them, clause
by clause, at the boundary values of their ranges. The name after `witness_` is the statement's. -/

namespace Sys2Proof.Tests

open Sys2Proof Sys2Proof.Machine
open Host (Outcome)

/-- A symbol beat that is no end mark. -/
def symBeat (c : Symbol) : SymBeat := { eos := false, sym := c }

/-- A full byte. -/
def fullByte (d : Byte) : ByteBeat := { last := false, nvalid := 8, data := d }

/-- A final byte. -/
def lastByte (n : BitVec 4) (d : Byte) : ByteBeat := { last := true, nvalid := n, data := d }

/-- A recorded error in IDLE. -/
def abErr : State := { ab with errCode := 0x40, errInfo := 7 }

/-! ### The trees -/

theorem abGen_visit :
    visit abGen.node abGen.nvalid 255 abGen.root [] { visited := [], table := [], nleaf := 0 } =
      .ok { visited := [1, 0, 2], table := [(0x61, [false]), (0x62, [true])], nleaf := 2 } := rfl

theorem ab_coherent : ab.coherent :=
  ⟨rfl, nofun, fun _ => ⟨_, abGen_visit, rfl, rfl, rfl⟩, nofun, fun _ => rfl⟩

theorem aaaa_coherent : aaaa.coherent :=
  ⟨rfl, nofun, fun _ => ⟨{ visited := [0], table := [(0x61, [false])], nleaf := 1 }, rfl, rfl, rfl,
    rfl⟩, nofun, fun _ => rfl⟩

/-- The shape of tree V3. -/
def abShape : Shape := .node 2 (.leaf 0 0x61) (.leaf 1 0x62)

theorem abGen_strict : StrictTree abGen abShape := by
  refine ⟨⟨rfl, rfl, rfl, ⟨rfl, rfl, rfl, rfl⟩, ⟨rfl, rfl, rfl, rfl⟩⟩, ?_, ?_, ?_⟩
  all_goals decide

/-! ### Encoding and decoding, steps -/

theorem witness_WordsOfTheFormatsDecode :
    7 < (8 : Word).toNat ∧ 7 < (0xFFFFFFFF : Word).toNat := by decide

theorem witness_DecodeOfEncodeIsIdentity :
    (Instr.cmdIllegal 8).wellFormed = true ∧
    encode (.cmdIllegal 8) = some (.cmdw 8) ∧
    (Instr.decFetchBad 9 0).wellFormed = true ∧
    encode (.decFetchBad 9 0) = some (.bytb 0x1900) ∧
    (Instr.regWr 0x3F 0).wellFormed = true ∧ Instr.genRun.wellFormed = true ∧
    encode .genRun = none := by decide

theorem witness_BeatOrStateSelectsEngineStep :
    ab.phase = .idle ∧ abGen.phase = .gen ∧
    ((abraEnc []).phase = .enc ∧ (abraEnc []).symIn = []) ∧
    ((abraEnc [symBeat 0x61]).phase = .enc ∧
      (abraEnc [symBeat 0x61]).symIn = symBeat 0x61 :: [] ∧ (symBeat 0x61).eos = false) ∧
    ((abraEnc [endMark]).symIn = endMark :: [] ∧ endMark.eos = true) ∧
    (({ abraDec [] with rem := 1 } : State).phase = .dec ∧ 0 < (1 : BitVec 4).toNat) ∧
    ((abraDec []).phase = .dec ∧ (abraDec []).rem = 0 ∧ (abraDec []).endseen = false ∧
      (abraDec []).byteIn = []) ∧
    ({ abraDec [] with endseen := true } : State).endseen = true ∧
    (fullByte 0).last = false ∧ ((lastByte 7 0).last = true ∧ (lastByte 7 0).nvalid.toNat < 8) ∧
    (lastByte 8 0).nvalid = 8 ∧ 9 ≤ (lastByte 9 0).nvalid.toNat := by decide

theorem witness_StepRunsDecodedInstruction :
    ab.rst = false ∧ engineInstr abGen = some .genRun ∧ engineInstr ab = none ∧
    ({ ab with script := [.cmd 2, .engine] } : State).script = .cmd 2 :: [.engine] ∧
    ({ ab with script := [.wr 1 2] } : State).script = .wr 1 2 :: [] ∧
    ({ ab with script := [.rd 2] } : State).script = .rd 2 :: [] ∧
    ({ abGen with script := [.engine] } : State).script = .engine :: [] ∧
    ({ abGen with script := [.run] } : State).script = .run :: [] ∧ abGen.script = [] := by
  decide

theorem witness_ProducersAppendAndResetHolds :
    ({ ab with script := [.sym endMark] } : State).script = .sym endMark :: [] ∧
    ({ ab with script := [.byte (fullByte 1)] } : State).script = .byte (fullByte 1) :: [] ∧
    ({ ab with script := [.rst true, .rst false] } : State).script = .rst true :: [.rst false] ∧
    ({ ab with script := [.rst false] } : State).script = .rst false :: [] ∧
    ({ ab with rst := true, script := [.cmd 2] } : State).rst = true := by decide

theorem witness_StepStopsOnlyWhenStuck :
    (abraEnc []).runStuck = true ∧ ab.runStuck = false ∧
    (abraEnc [endMark]).runStuck = false := by decide

/-! ### Commands -/

theorem witness_TreeClearEmptiesTreeAndTable : abErr.phase = .idle ∧ abGen.phase ≠ .idle := by
  decide

theorem witness_BuildTableStartsGeneration :
    (ab.phase = .idle ∧ ab.errCode = 0) ∧ abGen.phase ≠ .idle ∧
    (abErr.phase = .idle ∧ abErr.errCode ≠ 0) := by decide

theorem witness_EncStartBeginsPass :
    (ab.phase = .idle ∧ ab.errCode = 0 ∧ ab.tableValid = true) ∧ abGen.phase ≠ .idle ∧
    (abErr.phase = .idle ∧ abErr.errCode ≠ 0) ∧
    (State.reset.phase = .idle ∧ State.reset.errCode = 0 ∧ State.reset.tableValid = false) := by
  decide

theorem witness_DecStartBeginsPass :
    (ab.phase = .idle ∧ ab.errCode = 0 ∧ ab.treeValid = true) ∧ abGen.phase ≠ .idle ∧
    (abErr.phase = .idle ∧ abErr.errCode ≠ 0) ∧
    (State.reset.phase = .idle ∧ State.reset.errCode = 0 ∧ State.reset.treeValid = false) := by
  decide

theorem witness_AbortEndsThePhase :
    ab.phase = .idle ∧ abGen.phase = .gen ∧ (abraEnc []).phase = .enc ∧
    (abraDec []).phase = .dec := by decide

theorem witness_IllegalCommandIsRecorded : ab.errCode = 0 ∧ abErr.errCode ≠ 0 := by decide

theorem witness_CommandChecksInOrder :
    ((0x100 : Word).extractLsb' 8 24 ≠ 0) ∧ 7 < ((8 : Word).extractLsb' 0 8).toNat ∧
    abGen.phase ≠ .idle ∧ (abErr.phase = .idle ∧ abErr.errCode ≠ 0) ∧
    (State.reset.phase = .idle ∧ State.reset.errCode = 0 ∧ State.reset.tableValid = false ∧
      State.reset.treeValid = false) ∧
    (ab.phase = .idle ∧ ab.errCode = 0 ∧ ab.tableValid = true ∧ ab.treeValid = true) := by decide

/-! ### Register accesses -/

theorem witness_RegReadReturnsItsRegister :
    (codeWindow 0x0A = true ∧ ab.phase ≠ .gen) ∧ codeWindow 0x0B = false ∧
    codeWindow 0x0F = false ∧ 0x18 ≤ (0x18 : RegIndex).toNat ∧
    0x18 ≤ (0x3F : RegIndex).toNat := by decide

theorem witness_CodeWindowsShowTheCode : abra.phase ≠ .gen ∧ 7 < 8 ∧ 31 < 32 := by decide

theorem witness_CodeWindowReadDuringGenIsFree :
    abGen.phase = .gen ∧ codeWindow 0x0A = true ∧ codeWindow 0x10 = true ∧
    codeWindow 0x17 = true ∧ codeWindow 0x18 = false := by decide

theorem witness_RootWriteInvalidatesTree : ab.phase = .idle := by decide

theorem witness_NodeDataWriteStoresOneEntry : ab.phase = .idle ∧ ab.arraysOk := by
  unfold State.arraysOk
  decide

theorem witness_WriteLockWhileBusy : abGen.phase ≠ .idle ∧ (abraDec []).phase ≠ .idle := by decide

theorem witness_RegWriteDispatchesByIndex :
    ([0x00, 0x02, 0x04, 0x0A, 0x3F] : List RegIndex).all (fun i => !writableIndex i) = true := by
  decide

/-! ### Whole-machine rules -/

theorem witness_TreeImmutableWhileBusy :
    exec .genRun abGen = .next (genRun abGen) ∧ abGen.phase ≠ .idle ∧ resets .genRun = false :=
  ⟨rfl, by decide, by decide⟩

theorem witness_PhaseChangesOnlyByStartOrEnd :
    (exec .buildTable ab = .next (cmdBuildTable ab) ∧ (cmdBuildTable ab).phase ≠ ab.phase) ∧
    (exec .encStart ab = .next (cmdEncStart ab) ∧ (cmdEncStart ab).phase ≠ ab.phase) ∧
    (exec .decStart ab = .next (cmdDecStart ab) ∧ (cmdDecStart ab).phase ≠ ab.phase) ∧
    (exec .genRun abGen = .next (genRun abGen) ∧ (genRun abGen).phase ≠ abGen.phase) :=
  ⟨⟨rfl, by decide⟩, ⟨rfl, by decide⟩, ⟨rfl, by decide⟩, rfl, by decide⟩

theorem witness_RecordedErrorIsSticky :
    exec .buildTable abErr = .next (cmdBuildTable abErr) ∧ abErr.errCode ≠ 0 ∧
    resets .buildTable = false ∧ acknowledges .buildTable = false ∧
    (cmdBuildTable abErr).errMulti = true := ⟨rfl, by decide, by decide, by decide, by decide⟩

theorem witness_TableWrittenOnlyByGenerator :
    (exec .genRun abGen = .next (genRun abGen) ∧ (genRun abGen).table ≠ abGen.table) ∧
    (exec .treeClear ab = .next (cmdTreeClear ab) ∧ (cmdTreeClear ab).table ≠ ab.table) :=
  ⟨⟨rfl, by decide⟩, rfl, by decide⟩

theorem witness_ChannelsAreFirstInFirstOut :
    exec (.encEos 0) (abraEnc [endMark]) = .next (encodeEnd (abraEnc [endMark])) ∧
    exec (.decFetchFull 8 1) (abraDec [fullByte 1]) =
      .next (fetchByte (fullByte 1) (abraDec [fullByte 1])) := ⟨rfl, rfl⟩

theorem witness_CountersChangeOnlyInTheirPass :
    (exec (.encSym 0x62) (abraEnc [symBeat 0x62]) =
        .next (encodeSymbol 0x62 (abraEnc [symBeat 0x62])) ∧
      (encodeSymbol 0x62 (abraEnc [symBeat 0x62])).encSymcnt ≠ (abraEnc []).encSymcnt ∧
      resets (.encSym 0x62) = false) ∧
    (exec .popBit { ab with rem := 1 } = .next (popBit { ab with rem := 1 }).2 ∧
      (popBit { ab with rem := 1 }).2.decBitcnt ≠ ab.decBitcnt) :=
  ⟨⟨rfl, by decide, by decide⟩, rfl, by decide⟩

/-! ### The generator -/

theorem witness_VisitTestsInOrder :
    ab.nvalidAt 3 = false ∧ (ab.nvalidAt 2 = true ∧ (2 : NodeIndex) ∈ [(2 : NodeIndex)]) ∧
    (ab.nvalidAt 0 = true ∧ nodeLeaf (ab.nodeAt 0) = true ∧
      Memory.get [] ab.table (nodeSym (ab.nodeAt 0)).toNat ≠ [] ∧
      Memory.get [] ([] : Memory Code) (nodeSym (ab.nodeAt 0)).toNat = []) ∧
    (ab.nvalidAt 2 = true ∧ nodeLeaf (ab.nodeAt 2) = false) := by decide

theorem witness_VisitTestsInOrder_both_children :
    (∃ g, visit ab.node ab.nvalid 254 (nodeLeft (ab.nodeAt 2)) [false]
      { visited := [2], table := [], nleaf := 0 } = .ok g) ∧
    ∃ e, visit ab.node [(2, true)] 254 (nodeLeft (ab.nodeAt 2)) [false]
      { visited := [2], table := [], nleaf := 0 } = .error e := ⟨⟨_, rfl⟩, ⟨_, rfl⟩⟩

theorem witness_GenRunCommitsOrFails :
    abGen.phase = .gen ∧
    (∃ g, visit abGen.node abGen.nvalid 255 abGen.root []
      { visited := [], table := abGen.table, nleaf := 0 } = .ok g) ∧
    ∃ c info, visit abGen.node [] 255 abGen.root []
      { visited := [], table := abGen.table, nleaf := 0 } = .error (c, info) :=
  ⟨rfl, ⟨_, abGen_visit⟩, ⟨_, _, rfl⟩⟩

theorem witness_GenRunAcceptsExactlyStrictTrees :
    abGen.phase = .gen ∧ abGen.table = [] ∧ ∃ t, StrictTree abGen t :=
  ⟨rfl, rfl, abShape, abGen_strict⟩

theorem witness_GenRunTableIsTheLeafPaths :
    abGen.phase = .gen ∧ abGen.table = [] ∧ StrictTree abGen abShape := ⟨rfl, rfl, abGen_strict⟩

theorem witness_CodesArePrefixFree :
    ab.coherent ∧ ab.codeAt 0x61 ≠ [] ∧ ab.codeAt 0x62 ≠ [] :=
  ⟨ab_coherent, by decide, by decide⟩

theorem witness_CodeLeadsToItsLeaf :
    ab.coherent ∧ ab.rootLeaf = false ∧ ab.codeAt 0x62 ≠ [] ∧ 0 < (ab.codeAt 0x62).length :=
  ⟨ab_coherent, rfl, by decide, by decide⟩

/-! ### Packer, encoder, decoder -/

theorem witness_PackerProcedures :
    ({ ab with nb := 7 } : State).nb.toNat = 7 ∧ ({ ab with nb := 6 } : State).nb.toNat < 7 := by
  decide

theorem witness_UnpackerProcedures :
    (fullByte 0).last = false ∧ (lastByte 8 0).nvalid.toNat ≤ 8 ∧
    9 ≤ (lastByte 9 0).nvalid.toNat ∧ 0 < ({ ab with rem := 1 } : State).rem.toNat := by decide

theorem witness_UnpackerReturnsThePackedBits :
    ab.rem = 0 ∧ ab.endseen = false ∧ (lastByte 8 0).last = true ∧
    (lastByte 8 0).nvalid.toNat ≤ 8 := by decide

theorem witness_EncSymAppendsTheCodeOrFails :
    (abraEnc [symBeat 0x62]).phase = .enc ∧ (abraEnc [symBeat 0x62]).symIn = [symBeat 0x62] ∧
    (abraEnc [symBeat 0x62]).codeAt 0x62 ≠ [] ∧ (abraEnc [symBeat 0x7A]).codeAt 0x7A = [] := by
  decide

theorem witness_EncEosClosesTheStream :
    (abraEnc [endMark]).phase = .enc ∧ (abraEnc [endMark]).symIn = [endMark] := by decide

theorem witness_EngineStepWaitsWhenNotEnabled :
    ab.phase ≠ .enc ∧ (abraEnc []).symIn.head? ≠ some (symBeat 0x61) ∧
    (abraEnc [endMark]).symIn.head? ≠ some (symBeat 0x61) ∧
    (abraEnc [symBeat 0x61]).symIn.head? ≠ some endMark ∧ ab.phase ≠ .dec ∧
    ({ abraDec [] with rem := 1 } : State).rem ≠ 0 ∧
    ({ abraDec [] with endseen := true } : State).endseen = true ∧
    (abraDec []).byteIn.head? ≠ some (fullByte 0x6E) ∧
    (abraDec [{ last := true, nvalid := 8, data := 0x6E }]).byteIn.head? ≠ some (fullByte 0x6E) ∧
    (abraDec [fullByte 0x6E]).byteIn.head? ≠ some { last := true, nvalid := 7, data := 0x6E } ∧
    ab.phase ≠ .gen ∧ (abraDec []).rem = 0 ∧ (abraDec []).endseen = false := by decide

theorem witness_EncodingPassEmitsThePacking :
    ∃ s : State, s.phase = .idle ∧ s.errCode = 0 ∧ s.tableValid = true ∧ s.rst = false ∧
      s.script = [.cmd 0x03] ∧ s.symIn = ([0x62, 0x61] : List Symbol).map symBeat ++ [endMark] ∧
      ∀ c ∈ ([0x62, 0x61] : List Symbol), s.codeAt c ≠ [] :=
  ⟨{ abra with script := [.cmd 0x03], symIn := [symBeat 0x62, symBeat 0x61, endMark] }, by decide⟩

theorem witness_DecFetchLoadsOrRejectsTheBeat :
    (abraDec []).phase = .dec ∧ (abraDec []).rem = 0 ∧ (abraDec []).endseen = false ∧
    (abraDec [fullByte 0x6E]).byteIn = [{ last := false, nvalid := 8, data := 0x6E }] ∧
    (abraDec [lastByte 7 0]).byteIn =
      [{ last := true, nvalid := (7 : BitVec 3).setWidth 4, data := 0 }] ∧
    (abraDec [lastByte 8 0]).byteIn = [{ last := true, nvalid := 8, data := 0 }] ∧
    (9 ≤ (9 : BitVec 4).toNat ∧
      (abraDec [lastByte 9 0]).byteIn = [{ last := true, nvalid := 9, data := 0 }]) := by decide

theorem witness_DecBitWalksOneEdge :
    ∃ s : State, s.phase = .dec ∧ 0 < s.rem.toNat ∧ nodeLeaf (s.nodeAt s.root) = false ∧
      nodeLeaf (s.nodeAt (nodeLeft (s.nodeAt s.cur))) = true ∧
      nodeLeaf (s.nodeAt (nodeRight (s.nodeAt s.cur))) = false :=
  ⟨{ abraDec [] with rem := 1 }, by decide⟩

theorem witness_DecBitWalksOneEdge_single_leaf :
    ∃ s : State, s.phase = .dec ∧ 0 < s.rem.toNat ∧ nodeLeaf (s.nodeAt s.root) = true :=
  ⟨{ aaaa with phase := .dec, rem := 8 }, by decide⟩

theorem witness_DecFinishDetectsTruncation :
    ∃ s t : State, (s.phase = .dec ∧ s.rem = 0 ∧ s.endseen = true ∧ s.cur = s.root) ∧
      (t.phase = .dec ∧ t.rem = 0 ∧ t.endseen = true ∧ t.cur ≠ t.root) :=
  ⟨{ abraDec [] with endseen := true }, { abraDec [] with endseen := true, cur := 7 }, by decide⟩

theorem witness_DecBitReadsOnlyValidEntries :
    ∃ s : State, s.coherent ∧ s.pointerOk ∧ s.phase = .dec ∧ nodeLeaf (s.nodeAt s.cur) = false :=
  ⟨{ ab with phase := .dec, cur := 2 },
    ⟨rfl, nofun, fun _ => ⟨_, abGen_visit, rfl, rfl, rfl⟩, nofun, fun _ => rfl⟩,
    fun _ => ⟨.inl rfl, fun h => h⟩, rfl, by decide⟩

theorem witness_DecodingInvertsEncoding :
    ∃ s : State, s.coherent ∧ s.treeValid = true ∧ s.phase = .idle ∧ s.errCode = 0 ∧
      s.rst = false ∧ s.script = [.cmd 0x03] ∧
      s.symIn = ([0x62] : List Symbol).map symBeat ++ [endMark] ∧
      ∀ c ∈ ([0x62] : List Symbol), s.codeAt c ≠ [] :=
  ⟨{ ab with script := [.cmd 0x03], symIn := [symBeat 0x62, endMark] },
    ⟨rfl, nofun, fun _ => ⟨_, abGen_visit, rfl, rfl, rfl⟩, nofun, fun _ => rfl⟩, by decide⟩

/-! ### Invariants: a step from a state that meets them -/

theorem witness_StepKeepsArraysCanonical :
    step abGen = .next (genRun abGen) ∧ abGen.arraysOk := by
  refine ⟨rfl, ?_⟩
  unfold State.arraysOk
  decide

theorem witness_StepKeepsDatapathWellFormed :
    step (abraDec [lastByte 7 0xDC]) =
      .next (fetchByte (lastByte 7 0xDC) (abraDec [lastByte 7 0xDC])) ∧
    (abraDec [lastByte 7 0xDC]).datapathOk :=
  ⟨rfl, fun i _ => by simp [abraDec, abra, State.reset], by decide, fun _ => by decide,
    fun h => absurd rfl h, nofun, nofun⟩

theorem witness_StepKeepsErrorRecord :
    step abGen = .next (genRun abGen) ∧ abGen.recordOk :=
  ⟨rfl, fun _ => by decide, fun h => absurd rfl h, fun _ => rfl⟩

theorem witness_StepKeepsTableCoherent :
    step abGen = .next (genRun abGen) ∧ abGen.coherent :=
  ⟨rfl, rfl, fun _ => ⟨rfl, rfl, rfl⟩, nofun, fun _ => rfl, fun h => by rcases h with h | h <;> cases h⟩

theorem witness_StepKeepsDecoderPointer :
    ∃ s : State, step s = .next (decodeBit s) ∧ s.coherent ∧ s.pointerOk ∧ s.phase = .dec :=
  ⟨{ ab with phase := .dec, cur := 2, rem := 1, shr := 0x80 }, rfl,
    ⟨rfl, nofun, fun _ => ⟨_, abGen_visit, rfl, rfl, rfl⟩, nofun, fun _ => rfl⟩,
    fun _ => ⟨.inl rfl, fun h => h⟩, rfl⟩

end Sys2Proof.Tests
end

section
/-! SUPPORT. The words of register reads, and the bits of STATUS (10_state.md R13, R37). -/

namespace Sys2Proof.Machine

/-- A read outside the code windows of a running generation completes with the register's word and
leaves the rest of the state as it was (40_commands.md R94). -/
theorem exec_regRd (idx : RegIndex) (s : State) (h : codeWindow idx = true → s.phase ≠ .gen) :
    exec (.regRd idx) s = .next { s with hRdata := registerWord idx s } := by
  have hw : (codeWindow idx && s.phase == .gen) = false := by simpa using h
  simp [exec, execRegRd, regRead, hw]

/-- The output `irq` as a proposition (10_state.md R37). -/
theorem irq_eq_true (s : State) :
    irq s = true ↔ (s.done = true ∧ s.doneIe = true) ∨ (s.errCode ≠ 0 ∧ s.errIe = true) := by
  simp only [irq, Bool.or_eq_true, Bool.and_eq_true, errpend_eq_true]

/-- The low nine bits of STATUS, lowest first (10_state.md R13). -/
def statusBits (s : State) : List Bool :=
  [busy s, s.phase.bits.getLsbD 0, s.phase.bits.getLsbD 1, s.treeValid, s.tableValid, s.rootLeaf,
    s.done, errpend s, irq s]

/-- A field of two bits below a word is its two bits put below it one by one. -/
theorem append_two_bits {n : Nat} (x : BitVec n) (y : BitVec 2) :
    x ++ y = (x.concat (y.getLsbD 1)).concat (y.getLsbD 0) := by
  refine BitVec.eq_of_getLsbD_eq fun i _ => ?_
  rw [BitVec.getLsbD_append]
  rcases i with _ | _ | i <;> simp

/-- STATUS put together bit by bit, from the reserved zeros down to BUSY. -/
theorem statusWord_eq_concat (s : State) :
    statusWord s = (((((((((0#23).concat (irq s)).concat (errpend s)).concat s.done).concat
      s.rootLeaf).concat s.tableValid).concat s.treeValid).concat (s.phase.bits.getLsbD 1)).concat
      (s.phase.bits.getLsbD 0)).concat (busy s) := by
  rw [← append_two_bits]
  rfl

/-- The bits of STATUS are those of the table of R13, zeros above them. -/
theorem statusWord_getLsbD (s : State) (i : Nat) :
    (statusWord s).getLsbD i = (statusBits s).getD i false := by
  rw [statusWord_eq_concat]
  rcases i with _ | _ | _ | _ | _ | _ | _ | _ | _ | i <;>
    simp only [statusBits, BitVec.getLsbD_concat_zero, BitVec.getLsbD_concat_succ,
      BitVec.getLsbD_zero, List.getD_cons_zero, List.getD_cons_succ, List.getD_nil]

/-- Bits 2:1 of STATUS are PHASE. -/
theorem statusWord_phase (s : State) : (statusWord s).extractLsb' 1 2 = s.phase.bits := by
  refine BitVec.eq_of_getLsbD_eq fun i hi => ?_
  rw [BitVec.getLsbD_extractLsb', statusWord_getLsbD]
  interval_cases i <;> simp [statusBits]

/-- Bits 31:9 of STATUS read 0. -/
theorem statusWord_reserved (s : State) : (statusWord s).extractLsb' 9 23 = 0 := by
  refine BitVec.eq_of_getLsbD_eq fun i hi => ?_
  have hlen : (statusBits s).length ≤ 9 + i := Nat.le_add_right 9 i
  rw [BitVec.getLsbD_extractLsb', statusWord_getLsbD, List.getD_eq_default _ _ hlen]
  simp

/-- Settles O21: each bit is read off the table of R13, `irq` is bit 8 and as R37 gives it. -/
theorem statusShowsFlagsAndIrq : Obligations.StatusShowsFlagsAndIrq := by
  unfold Obligations.StatusShowsFlagsAndIrq
  intro s
  have bit := statusWord_getLsbD s
  refine ⟨statusWord s, exec_regRd 0x02 s nofun, ?busy, ?phase, bit 3, bit 4, bit 5, bit 6,
    ?errpend, ?irq, statusWord_reserved s, ?reset, (bit 8).symm, fun _ => rfl⟩
  case busy => rw [bit]; exact busy_eq_true s
  case phase => rw [statusWord_phase]; cases s.phase <;> rfl
  case errpend => rw [bit]; exact errpend_eq_true s
  case irq => rw [bit]; exact irq_eq_true s
  case reset => rintro rfl; decide

end Sys2Proof.Machine
end

section
/-! SUPPORT. The engine step each phase selects, and the rows of a beat's word (30_encoding.md
R73). -/

namespace Sys2Proof.Machine

/-- A symbol beat's word decodes by EOS (30_encoding.md R69, R73). -/
theorem decodeWire_symbeat (b : SymBeat) :
    decodeWire (.symb b.toBits) = if b.eos then .encEos b.sym else .encSym b.sym := by
  simp only [decodeWire, decodeSymb, symBeat_ofBits_toBits]

/-- A byte beat's word decodes by LAST, then by NVALID (30_encoding.md R70, R73). -/
theorem decodeWire_bytebeat (b : ByteBeat) :
    decodeWire (.bytb b.toBits) =
      if b.last = false then .decFetchFull b.nvalid b.data
      else if b.nvalid.toNat < 8 then .decFetchFinal (b.nvalid.setWidth 3) b.data
      else if b.nvalid = 8 then .decFetchFinal8 b.data
      else .decFetchBad b.nvalid b.data := by
  have h8 : b.nvalid.toNat = 8 ↔ b.nvalid = 8 := BitVec.toNat_inj (y := (8 : BitVec 4))
  simp only [decodeWire, decodeBytb, byteBeat_ofBits_toBits, h8, Bool.not_eq_true',
    BitVec.setWidth_eq_extractLsb' (show 3 ≤ 4 by decide)]

section
variable {s : State}

theorem engineInstr_idle (hp : s.phase = .idle) : engineInstr s = none := by
  simp only [engineInstr, hp]

theorem engineInstr_gen (hp : s.phase = .gen) : engineInstr s = some .genRun := by
  simp only [engineInstr, hp]

theorem engineInstr_enc (hp : s.phase = .enc) :
    engineInstr s = s.symIn.head?.map fun b => decodeWire (.symb b.toBits) := by
  simp only [engineInstr, hp]

/-- While the unpacker holds a bit the decoder reads it (44_decoder.md R131). -/
theorem engineInstr_dec_bit (hp : s.phase = .dec) (hr : s.rem ≠ 0) :
    engineInstr s = some .decBit := by
  have hb : hasBit s = true := bne_iff_ne.2 hr
  simp only [engineInstr, hp, hb, if_true]

/-- With no bit left after the final beat the decoder finishes (44_decoder.md R132). -/
theorem engineInstr_dec_finish (hp : s.phase = .dec) (hr : s.rem = 0) (he : s.endseen = true) :
    engineInstr s = some .decFinish := by
  simp [engineInstr, hp, hasBit, exhausted, hr, he]

/-- With no bit left before the final beat the decoder fetches (44_decoder.md R130). -/
theorem engineInstr_dec_fetch (hp : s.phase = .dec) (hr : s.rem = 0) (he : s.endseen = false) :
    engineInstr s = s.byteIn.head?.map fun b => decodeWire (.bytb b.toBits) := by
  simp [engineInstr, hp, hasBit, exhausted, hr, he]

/-- The oldest beat of SYM_IN selects the encoder's step. -/
theorem engineInstr_enc_cons {b : SymBeat} {q : List SymBeat} (hp : s.phase = .enc)
    (hq : s.symIn = b :: q) :
    engineInstr s = some (if b.eos then .encEos b.sym else .encSym b.sym) := by
  rw [engineInstr_enc hp, hq, ← decodeWire_symbeat]
  rfl

/-- The oldest beat of BYTE_IN selects the arm of DEC_FETCH. -/
theorem engineInstr_dec_cons {b : ByteBeat} {q : List ByteBeat} (hp : s.phase = .dec)
    (hr : s.rem = 0) (he : s.endseen = false) (hq : s.byteIn = b :: q) :
    engineInstr s = some (decodeWire (.bytb b.toBits)) := by
  rw [engineInstr_dec_fetch hp hr he, hq]
  rfl

end

/-- Settles O4: the phase selects the step, or leaves it to the oldest beat of its channel, whose
word decodes by EOS, or by LAST and NVALID. -/
theorem beatOrStateSelectsEngineStep : Obligations.BeatOrStateSelectsEngineStep := by
  unfold Obligations.BeatOrStateSelectsEngineStep
  intro s
  refine ⟨engineInstr_idle, engineInstr_gen, ?encEmpty, ?encBeat, ?decBit, engineInstr_dec_finish,
    ?decEmpty, ?decBeat⟩
  case encEmpty =>
    intro hp hq
    rw [engineInstr_enc hp, hq]
    rfl
  case encBeat =>
    intro b q hp hq
    rw [engineInstr_enc_cons hp hq]
    exact ⟨fun h => by simp [h], fun h => by simp [h]⟩
  case decBit =>
    intro hp h
    exact engineInstr_dec_bit hp fun h0 => by simp [h0] at h
  case decEmpty =>
    intro hp hr he hq
    rw [engineInstr_dec_fetch hp hr he, hq]
    rfl
  case decBeat =>
    intro b q hp hr he hq
    rw [engineInstr_dec_cons hp hr he hq, decodeWire_bytebeat]
    refine ⟨fun hl => ?full, fun hl hn => ?final, fun hl hn => ?final8, fun hl hn => ?bad⟩
    case full => simp [hl]
    case final => simp [hl, hn]
    case final8 => simp [hl, hn]
    case bad =>
      have hlt : ¬ b.nvalid.toNat < 8 := by omega
      have hne : b.nvalid ≠ 8 := fun h8 => by simp [h8] at hn
      rw [if_neg (by simp [hl]), if_neg hlt, if_neg hne]

end Sys2Proof.Machine
end

section
/-! SUPPORT. The commands case by case: the checks of R85 in their order, what each rule does, and
where a register write goes (40_commands.md). -/

namespace Sys2Proof.Machine

open Host (Outcome)

/-! ### The checks of R85 -/

section
variable {op : Word} {start : Bool} {go : State → State} {s : State}

theorem commandChecks_busy (hp : s.phase ≠ .idle) :
    commandChecks op start go s = raise .cmdBusy op s :=
  if_pos ((busy_eq_true s).2 hp)

theorem commandChecks_errpend (hp : s.phase = .idle) (he : s.errCode ≠ 0) :
    commandChecks op true go s = raise .cmdErrpend op s := by
  obtain ⟨h, -⟩ | ⟨-, -, -, e⟩ | ⟨-, h, -⟩ := commandChecks_cases op true go s
  · exact absurd hp h
  · exact e
  · exact absurd (h rfl) he

/-- A command whose checks 3 and 4 pass is its rule; an error pending stops a start command
alone. -/
theorem commandChecks_accepted (hp : s.phase = .idle) (he : start = true → s.errCode = 0) :
    commandChecks op start go s = go s := by
  obtain ⟨h, -⟩ | ⟨-, hs, h, -⟩ | ⟨-, -, e⟩ := commandChecks_cases op start go s
  · exact absurd hp h
  · exact absurd (he hs) h
  · exact e

end

/-! ### The rules -/

/-- The commands that go through checks 3 and 4 of R85. -/
theorem exec_checked (s : State) :
    exec .treeClear s = .next (commandChecks 0x01 false ruleTreeClear s) ∧
    exec .buildTable s = .next (commandChecks 0x02 true ruleBuildTable s) ∧
    exec .encStart s = .next (commandChecks 0x03 true ruleEncStart s) ∧
    exec .decStart s = .next (commandChecks 0x04 true ruleDecStart s) :=
  ⟨rfl, rfl, rfl, rfl⟩

theorem exec_abort (s : State) : exec .abort s = .next (ruleAbort s) := rfl

section
variable {s : State}

theorem ruleEncStart_noTable (ht : s.tableValid = false) :
    ruleEncStart s = raise .noTable 0 s :=
  if_pos (by rw [ht, Bool.not_false])

theorem ruleEncStart_accepted (ht : s.tableValid = true) :
    ruleEncStart s =
      { s with done := false, encSymcnt := 0, encBitcnt := 0, acc := 0, nb := 0, phase := .enc } :=
  if_neg (by rw [ht, Bool.not_true]; exact Bool.false_ne_true)

theorem ruleDecStart_noTree (ht : s.treeValid = false) :
    ruleDecStart s = raise .noTree 0 s :=
  if_pos (by rw [ht, Bool.not_false])

theorem ruleDecStart_accepted (ht : s.treeValid = true) :
    ruleDecStart s =
      { s with done := false, decSymcnt := 0, decBitcnt := 0, shr := 0, rem := 0,
               endseen := false, cur := s.root, phase := .dec } :=
  if_neg (by rw [ht, Bool.not_true]; exact Bool.false_ne_true)

/-- ABORT has nothing to end in IDLE. -/
theorem ruleAbort_idle (hp : s.phase = .idle) : ruleAbort s = s := by
  simp only [ruleAbort, hp]

/-- ABORT before GEN_RUN leaves the table empty. -/
theorem ruleAbort_gen (hp : s.phase = .gen) :
    ruleAbort s = { treeInvalidate (raise .ioAbort 1 s) with phase := .idle } := by
  simp only [ruleAbort, hp]
  rfl

/-- ABORT closes the encoder's output stream. -/
theorem ruleAbort_enc (hp : s.phase = .enc) :
    ruleAbort s = { packClose (raise .ioAbort 2 s) with phase := .idle } := by
  simp only [ruleAbort, hp]
  rfl

/-- ABORT closes the decoder as every ending of a decoding pass does. -/
theorem ruleAbort_dec (hp : s.phase = .dec) :
    ruleAbort s = { closeDecoder (raise .ioAbort 3 s) with phase := .idle } := by
  simp only [ruleAbort, hp]
  rfl

end

/-! ### Register writes -/

/-- The words of CMD that are commands (30_encoding.md R66, R72). -/
theorem decodeCmdw_opcodes :
    decodeCmdw 0 = .nop ∧ decodeCmdw 1 = .treeClear ∧ decodeCmdw 2 = .buildTable ∧
    decodeCmdw 3 = .encStart ∧ decodeCmdw 4 = .decStart ∧ decodeCmdw 5 = .abort ∧
    decodeCmdw 6 = .ack ∧ decodeCmdw 7 = .softReset := by
  decide

/-- A write to CMD answers as the command its word decodes to (40_commands.md R85). -/
theorem exec_regWrCmd (v : Word) (s : State) : exec (.regWrCmd v) s = exec (decodeCmdw v) s :=
  exec_canon (.regWrCmd v) s

/-- Check 1 of R85: a word that is no command only records ILLEGAL_CMD. -/
theorem commandWrite_illegal {v : Word} (s : State)
    (h : v.extractLsb' 8 24 ≠ 0 ∨ 7 < (v.extractLsb' 0 8).toNat) :
    commandWrite v s = raise .illegalCmd v s :=
  if_pos h

/-- A write to a read-only or unmapped index is ignored (40_commands.md R95). -/
theorem regWrite_ignored {idx : RegIndex} (v : Word) (s : State)
    (h : writableIndex idx = false) : regWrite idx v s = s := by
  have hne : ∀ k : RegIndex, writableIndex k = true → idx.toNat ≠ k.toNat := by
    intro k hk e
    rw [BitVec.eq_of_toNat_eq e, hk] at h
    cases h
  unfold regWrite
  split
  case h_7 => rfl
  case h_1 e => exact absurd e (hne 0x01 rfl)
  case h_2 e => exact absurd e (hne 0x05 rfl)
  case h_3 e => exact absurd e (hne 0x06 rfl)
  case h_4 e => exact absurd e (hne 0x07 rfl)
  case h_5 e => exact absurd e (hne 0x08 rfl)
  case h_6 e => exact absurd e (hne 0x09 rfl)

/-! ### The statements -/

/-- Settles O10: in IDLE the checks pass, an error pending or not, and the rule writes exactly the
fields listed; an unlisted entry reads as invalid or empty. -/
theorem treeClearEmptiesTreeAndTable : Obligations.TreeClearEmptiesTreeAndTable := by
  unfold Obligations.TreeClearEmptiesTreeAndTable
  intro s
  obtain ⟨hx, -⟩ := exec_checked s
  rw [hx]
  refine ⟨fun hp => ?accepted, fun hp => ?busy⟩
  case accepted =>
    rw [commandChecks_accepted (start := false) hp nofun]
    exact ⟨ruleTreeClear s, rfl, rfl, fun _ => rfl, fun _ => rfl⟩
  case busy => rw [commandChecks_busy hp]

/-- Settles O11: by the two checks, and the rule's own fields. -/
theorem buildTableStartsGeneration : Obligations.BuildTableStartsGeneration := by
  unfold Obligations.BuildTableStartsGeneration
  intro s
  obtain ⟨-, hx, -⟩ := exec_checked s
  rw [hx]
  refine ⟨fun hp he => ?accepted, fun hp => ?busy, fun hp he => ?errpend⟩
  case accepted => rw [commandChecks_accepted hp fun _ => he]; rfl
  case busy => rw [commandChecks_busy hp]
  case errpend => rw [commandChecks_errpend hp he]

/-- Settles O12: by the two checks, then by TABLE_VALID. -/
theorem encStartBeginsPass : Obligations.EncStartBeginsPass := by
  unfold Obligations.EncStartBeginsPass
  intro s
  obtain ⟨-, -, hx, -⟩ := exec_checked s
  rw [hx]
  refine ⟨fun hp he ht => ?accepted, fun hp => ?busy, fun hp he => ?errpend,
    fun hp he ht => ?noTable⟩
  case accepted => rw [commandChecks_accepted hp fun _ => he, ruleEncStart_accepted ht]
  case busy => rw [commandChecks_busy hp]
  case errpend => rw [commandChecks_errpend hp he]
  case noTable => rw [commandChecks_accepted hp fun _ => he, ruleEncStart_noTable ht]

/-- Settles O13: by the two checks, then by TREE_VALID. -/
theorem decStartBeginsPass : Obligations.DecStartBeginsPass := by
  unfold Obligations.DecStartBeginsPass
  intro s
  obtain ⟨-, -, -, hx⟩ := exec_checked s
  rw [hx]
  refine ⟨fun hp he ht => ?accepted, fun hp => ?busy, fun hp he => ?errpend,
    fun hp he ht => ?noTree⟩
  case accepted => rw [commandChecks_accepted hp fun _ => he, ruleDecStart_accepted ht]
  case busy => rw [commandChecks_busy hp]
  case errpend => rw [commandChecks_errpend hp he]
  case noTree => rw [commandChecks_accepted hp fun _ => he, ruleDecStart_noTree ht]

/-- Settles O14: ABORT's rule in each phase; recording the error and closing the phase write
different fields. -/
theorem abortEndsThePhase : Obligations.AbortEndsThePhase := by
  unfold Obligations.AbortEndsThePhase
  intro s
  rw [exec_abort]
  refine ⟨fun hp => ?idle, fun hp => ?gen, fun hp => ?enc, fun hp => ?dec⟩
  case idle => rw [ruleAbort_idle hp]
  case gen => rw [ruleAbort_gen hp]; rfl
  case enc => rw [ruleAbort_enc hp]; rfl
  case dec => rw [ruleAbort_dec hp]; rfl

/-- Settles O15: the two rules, which no check guards. -/
theorem nopAndAckInEveryPhase : Obligations.NopAndAckInEveryPhase := by
  unfold Obligations.NopAndAckInEveryPhase
  exact fun _ => ⟨rfl, rfl⟩

/-- Settles O18: a word that is no command fails check 1; each other word is its command, whose
checks 3 and 4, and 5 in the rules of the passes, decide. -/
theorem commandChecksInOrder : Obligations.CommandChecksInOrder := by
  unfold Obligations.CommandChecksInOrder
  intro v s
  refine ⟨fun h => congrArg Outcome.next (commandWrite_illegal s h), ?nop, ?abort, ?ack,
    ?softReset, ?busy, ?errpend, ?noTable, ?noTree, ?treeClear, ?buildTable, ?encStart,
    ?decStart⟩
  all_goals rw [exec_regWrCmd]
  case nop | abort | ack | softReset => rintro rfl; simp only [decodeCmdw_opcodes]
  case busy =>
    rintro (rfl | rfl | rfl | rfl) hp <;>
      simp only [decodeCmdw_opcodes, exec_checked, commandChecks_busy hp]
  case errpend =>
    rintro (rfl | rfl | rfl) hp he <;>
      simp only [decodeCmdw_opcodes, exec_checked, commandChecks_errpend hp he]
  case noTable =>
    rintro rfl hp he ht
    simp only [decodeCmdw_opcodes, exec_checked, commandChecks_accepted hp fun _ => he,
      ruleEncStart_noTable ht]
  case noTree =>
    rintro rfl hp he ht
    simp only [decodeCmdw_opcodes, exec_checked, commandChecks_accepted hp fun _ => he,
      ruleDecStart_noTree ht]
  case treeClear =>
    rintro rfl hp
    simp only [decodeCmdw_opcodes, exec_checked, commandChecks_accepted (start := false) hp nofun]
  case buildTable =>
    rintro rfl hp he
    simp only [decodeCmdw_opcodes, exec_checked, commandChecks_accepted hp fun _ => he]
  case encStart | decStart =>
    rintro rfl hp he -
    simp only [decodeCmdw_opcodes, exec_checked, commandChecks_accepted hp fun _ => he]

/-- Settles O28: the six writable indices by evaluating the choice of the target, every other one
by `regWrite_ignored`. -/
theorem regWriteDispatchesByIndex : Obligations.RegWriteDispatchesByIndex := by
  unfold Obligations.RegWriteDispatchesByIndex
  intro idx v s
  refine ⟨?_, ?_, ?_, ?_, ?_, ?_, fun h1 h5 h6 h7 h8 h9 => ?ignored⟩
  case ignored =>
    have hw : writableIndex idx = false := by
      simp only [writableIndex, Bool.or_eq_false_iff, beq_eq_false_iff_ne]
      exact ⟨⟨⟨⟨⟨h1, h5⟩, h6⟩, h7⟩, h8⟩, h9⟩
    exact congrArg Outcome.next (regWrite_ignored v s hw)
  all_goals
    rintro rfl
    rfl

end Sys2Proof.Machine
end

section
/-! SUPPORT. The traversal `visit` test by test, and GEN_RUN by what its traversal answers
(41_table_generator.md R100 to R104). -/

namespace Sys2Proof.Machine

/-- The `info` word of TREE_DUPSYM as the symbol shifted above the node: neither
reaches a bit beyond its width. -/
theorem dupsymInfo_eq_or (n : NodeIndex) (c : Symbol) :
    dupsymInfo n c = (c.setWidth 32 <<< 16) ||| n.setWidth 32 := by
  refine BitVec.eq_of_getLsbD_eq fun i hi => ?_
  have hn : n.getLsbD i → i < 9 := BitVec.lt_of_getLsbD
  have hc : c.getLsbD (i - 16) → i - 16 < 8 := BitVec.lt_of_getLsbD
  simp only [dupsymInfo, BitVec.getLsbD_append, BitVec.getLsbD_or, BitVec.getLsbD_shiftLeft,
    BitVec.getLsbD_setWidth, BitVec.getLsbD_zero, hi, decide_true, Bool.true_and, Nat.sub_sub]
  grind

/-! ### The tests of R101 -/

section
variable {node : Memory NodeWord} {nvalid : Memory Bool} {room : Nat} {n : NodeIndex} {p : Code}
  {g : GenWork}

/-- Test 1. -/
theorem visit_absent (hv : Memory.get false nvalid n.toNat = false) :
    visit node nvalid room n p g = .error (.treeAbsent, nodeInfo n) := by
  rw [visit, if_pos hv]

/-- Test 2. -/
theorem visit_shared (hv : Memory.get false nvalid n.toNat = true) (hm : n ∈ g.visited) :
    visit node nvalid room n p g = .error (.treeShared, nodeInfo n) := by
  rw [visit, if_neg (ne_false_of_eq_true hv), if_pos hm]

/-- Test 4: at a leaf the node is marked, then the leaf's own test decides. -/
theorem visit_leaf (hv : Memory.get false nvalid n.toNat = true) (hm : n ∉ g.visited)
    (hl : nodeLeaf (Memory.get 0 node n.toNat) = true) :
    visit node nvalid room n p g =
      visitLeaf n (nodeSym (Memory.get 0 node n.toNat)) p
        { g with visited := n :: g.visited } := by
  rw [visit, if_neg (ne_false_of_eq_true hv), if_neg hm]
  exact if_pos hl

/-- Test 5: an internal node with no level below it. -/
theorem visit_tooDeep (hv : Memory.get false nvalid n.toNat = true) (hm : n ∉ g.visited)
    (hl : nodeLeaf (Memory.get 0 node n.toNat) = false) :
    visit node nvalid 0 n p g = .error (.treeDepth, nodeInfo n) := by
  rw [visit, if_neg (ne_false_of_eq_true hv), if_neg hm]
  exact if_neg (ne_true_of_eq_false hl)

/-- An internal node with room below: the left subtree, then the right one with what the left one
leaves. -/
theorem visit_children (hv : Memory.get false nvalid n.toNat = true) (hm : n ∉ g.visited)
    (hl : nodeLeaf (Memory.get 0 node n.toNat) = false) :
    visit node nvalid (room + 1) n p g =
      (visit node nvalid room (nodeLeft (Memory.get 0 node n.toNat)) (p ++ [false])
        { g with visited := n :: g.visited }).bind
      (visit node nvalid room (nodeRight (Memory.get 0 node n.toNat)) (p ++ [true])) := by
  rw [visit, if_neg (ne_false_of_eq_true hv), if_neg hm]
  refine (if_neg (ne_true_of_eq_false hl)).trans ?_
  dsimp only
  cases visit node nvalid room (nodeLeft (Memory.get 0 node n.toNat)) (p ++ [false])
    { g with visited := n :: g.visited } <;> rfl

/-- A second leaf of one symbol. -/
theorem visitLeaf_duplicate {c : Symbol} (h : Memory.get [] g.table c.toNat ≠ []) :
    visitLeaf n c p g = .error (.treeDupsym, dupsymInfo n c) :=
  if_pos h

/-- The first leaf of a symbol is recorded under its path and counted. -/
theorem visitLeaf_new {c : Symbol} (h : Memory.get [] g.table c.toNat = []) :
    visitLeaf n c p g =
      .ok { g with table := Memory.set [] g.table c.toNat (leafCode p), nleaf := g.nleaf + 1 } :=
  if_neg (not_not_intro h)

end

/-- Settles O35: each clause is one test of R101. -/
theorem visitTestsInOrder : Obligations.VisitTestsInOrder := by
  unfold Obligations.VisitTestsInOrder
  intro s room n p g v g1 c
  refine ⟨visit_absent, visit_shared, fun hv hm hl hd => ?duplicate, fun hv hm hl hd => ?recorded,
    fun hv hm hl hr => ?tooDeep, fun r hv hm hl hr => ?children⟩
  case duplicate =>
    rw [← dupsymInfo_eq_or]
    exact (visit_leaf hv hm hl).trans (visitLeaf_duplicate hd)
  case recorded => exact (visit_leaf hv hm hl).trans (visitLeaf_new hd)
  case tooDeep =>
    subst hr
    exact visit_tooDeep hv hm hl
  case children =>
    subst hr
    have hb := visit_children (room := r) (p := p) hv hm hl
    exact ⟨fun e he => hb.trans (congrArg (Except.bind · _) he),
      fun g2 hg => hb.trans (congrArg (Except.bind · _) hg)⟩

/-! ### GEN_RUN -/

/-- Recording an error and invalidating the tree write different fields. -/
theorem raise_treeInvalidate (c : ErrorCode) (info : Word) (s : State) :
    raise c info (treeInvalidate s) = treeInvalidate (raise c info s) := rfl

section
variable {s : State}

theorem exec_genRun (hp : s.phase = .gen) : exec .genRun s = .next (genRun s) :=
  if_pos hp

/-- R103: the traversal succeeded. -/
theorem genRun_ok {g : GenWork} (h : visitRoot s = .ok g) :
    genRun s = { genCommit g s with phase := .idle } := by
  rw [genRun, h]

/-- R104: the traversal failed. -/
theorem genRun_error {c : ErrorCode} {info : Word} (h : visitRoot s = .error (c, info)) :
    genRun s = { treeInvalidate (raise c info s) with phase := .idle } := by
  rw [genRun, h, ← raise_treeInvalidate]
  rfl

end

/-- Settles O36: by what the traversal from ROOT answers. -/
theorem genRunCommitsOrFails : Obligations.GenRunCommitsOrFails := by
  unfold Obligations.GenRunCommitsOrFails
  intro s hp
  rw [exec_genRun hp]
  refine ⟨fun g hg => ?commits, fun c info he => ?fails⟩
  case commits => rw [genRun_ok hg]; rfl
  case fails => rw [genRun_error he]; rfl

end Sys2Proof.Machine
end

section
/-! SUPPORT. The packer's and the unpacker's procedures case by case (42_bitpack.md R110 to
R115). -/

namespace Sys2Proof.Machine

/-- The packer's rows run their procedures. -/
theorem exec_packer (s : State) :
    exec .packReset s = .next (packReset s) ∧ (∀ b, exec (.pushBit b) s = .next (pushBit b s)) ∧
    exec .packClose s = .next (packClose s) :=
  ⟨rfl, fun _ => rfl, rfl⟩

/-- The unpacker's rows run their procedures; `pop_bit` needs a bit. -/
theorem exec_unpacker (s : State) :
    exec .unpackReset s = .next (unpackReset s) ∧
    (∀ b, exec (.unpackLoad b) s = .next (unpackLoad b s).2) ∧
    (s.rem ≠ 0 → exec .popBit s = .next (popBit s).2) :=
  ⟨rfl, fun _ => rfl, fun h => if_pos (bne_iff_ne.2 h)⟩

section
variable {b : ByteBeat}

/-- A byte that is not the last carries 8 bits, whatever its NVALID. -/
theorem unpackLoad_full (s : State) (hl : b.last = false) :
    unpackLoad b s = (true, { s with shr := b.data, rem := 8 }) :=
  if_pos (by rw [hl, Bool.not_false])

/-- The last byte carries the NVALID bits it names. -/
theorem unpackLoad_final (s : State) (hl : b.last = true) (hn : b.nvalid.toNat ≤ 8) :
    unpackLoad b s = (true, { s with shr := b.data, rem := b.nvalid, endseen := true }) := by
  rw [unpackLoad, if_neg (by simp [hl]), if_pos hn]

/-- A last byte that names more than 8 bits is bad. -/
theorem unpackLoad_bad (s : State) (hl : b.last = true) (hn : 9 ≤ b.nvalid.toNat) :
    unpackLoad b s = (false, s) := by
  rw [unpackLoad, if_neg (by simp [hl]), if_neg (Nat.not_le_of_lt hn)]

end

/-- Settles O41: the byte `d` is ACC with the new bit set; the eighth bit emits it. -/
theorem packerProcedures : Obligations.PackerProcedures := by
  unfold Obligations.PackerProcedures
  intro s
  obtain ⟨hreset, hpush, hclose⟩ := exec_packer s
  refine ⟨hreset, fun b => ⟨setBit s.acc (7 - s.nb.toNat) b, ?bits, fun h7 => ?full,
    fun hlt => ?part⟩, hclose⟩
  case bits =>
    intro i hi
    rw [setBit_getLsbD, decide_eq_true hi, Bool.true_and]
  case full => rw [hpush, pushBit_full b s (BitVec.eq_of_toNat_eq h7), h7]
  case part =>
    have hne : s.nb ≠ 7 := fun h7 => by simp [h7] at hlt
    rw [hpush, pushBit_part b s hne]

/-- Settles O42: `unpack_load` by LAST and NVALID; `pop_bit` by `popBit_spec`, its SHR being the
old one shifted left. -/
theorem unpackerProcedures : Obligations.UnpackerProcedures := by
  unfold Obligations.UnpackerProcedures
  intro s
  obtain ⟨hreset, hload, hpop⟩ := exec_unpacker s
  refine ⟨hreset, fun b => ?load, fun hr => ?pop⟩
  case load =>
    rw [hload]
    refine ⟨fun hl => ?full, fun hl hn => ?final, fun hl hn => ?bad⟩
    case full => rw [unpackLoad_full s hl]; exact ⟨rfl, rfl⟩
    case final => rw [unpackLoad_final s hl hn]; exact ⟨rfl, rfl⟩
    case bad => rw [unpackLoad_bad s hl hn]; exact ⟨rfl, rfl⟩
  case pop =>
    have hne : s.rem ≠ 0 := fun h0 => by simp [h0] at hr
    obtain ⟨hbit, hrem, hshr, hframe⟩ := popBit_spec s hne
    refine ⟨(popBit s).2.shr, (popBit s).2.rem, hbit, (hpop hne).trans (congrArg _ hframe), hrem,
      ?entering, fun i hi => ?shifted⟩
    all_goals rw [hshr, BitVec.getLsbD_shiftLeft]
    case entering => rfl
    case shifted => simp [Nat.add_lt_add_right hi 1]

end Sys2Proof.Machine
end

section
/-! SUPPORT. The encoder's steps where they are enabled, and ENC_SYM's rule by whether the symbol
has a code (43_encoder.md R120 to R122). -/

namespace Sys2Proof.Machine

/-! ### The beat is oldest in ENC (R122) -/

section
variable {c : Symbol} {b : SymBeat} {q : List SymBeat} {s : State}

/-- In ENC the oldest beat of SYM_IN is ready. -/
theorem symReady_oldest (hp : s.phase = .enc) (hq : s.symIn = b :: q) : symReady b s = true := by
  simp only [symReady, hp, hq, List.head?_cons, beq_self_eq_true, Bool.and_self]

theorem exec_encSym (hp : s.phase = .enc) (hq : s.symIn = { eos := false, sym := c } :: q) :
    exec (.encSym c) s = .next (encodeSymbol c s) :=
  if_pos (symReady_oldest hp hq)

theorem exec_encEos (hp : s.phase = .enc) (hq : s.symIn = { eos := true, sym := c } :: q) :
    exec (.encEos c) s = .next (encodeEnd s) :=
  if_pos (symReady_oldest hp hq)

theorem takeSym_cons (hq : s.symIn = b :: q) : takeSym s = { s with symIn := q } := by
  rw [takeSym, hq, List.tail_cons]

/-- Taking a beat leaves the code table alone. -/
theorem takeSym_codeAt : (takeSym s).codeAt c = s.codeAt c := rfl

end

/-! ### ENC_SYM's rule (R120) -/

section
variable {c : Symbol} {s : State}

/-- A symbol with a code: its bits are pushed and it is counted. -/
theorem encodeSymbol_present (hc : s.codeAt c ≠ []) :
    encodeSymbol c s =
      { pushBits (s.codeAt c) (takeSym s) with encSymcnt := s.encSymcnt + 1 } := by
  have hv : codeV (s.codeAt c) = true := by
    rw [codeV, Bool.not_eq_true', List.isEmpty_eq_false_iff]
    exact hc
  simp only [encodeSymbol, takeSym_codeAt, hv, if_true, pushBits_fields, takeSym_fields]

/-- A symbol without a code: the stream is closed and the pass over. -/
theorem encodeSymbol_absent (hc : s.codeAt c = []) :
    encodeSymbol c s =
      { raise .lookupFailure (c.setWidth 32) (packClose (takeSym s)) with phase := .idle } := by
  have hv : codeV (s.codeAt c) = false := by
    rw [hc]
    rfl
  simp only [encodeSymbol, takeSym_codeAt, hv, Bool.false_eq_true, if_false]

end

/-- Settles O45: by whether the symbol has a code. The beats, the bits and the frame of the
pushing are those of `pushBits_pushed`; a failure records its error and closes the stream in
different fields. -/
theorem encSymAppendsTheCodeOrFails : Obligations.EncSymAppendsTheCodeOrFails := by
  unfold Obligations.EncSymAppendsTheCodeOrFails
  intro c q s hp hq
  rw [exec_encSym hp hq]
  refine ⟨fun hc => ?present, fun hc => ?absent⟩
  case present =>
    rw [encodeSymbol_present hc, takeSym_cons hq]
    obtain ⟨beats, hframe, hfull, hbits⟩ := pushBits_pushed (s.codeAt c) { s with symIn := q }
    refine ⟨_, beats, rfl, congrArg State.byteOut hframe, hfull, hbits, ?frame⟩
    case frame =>
      generalize pushBits (s.codeAt c) { s with symIn := q } = u at hframe
      rw [hframe]
  case absent =>
    rw [encodeSymbol_absent hc, takeSym_cons hq]
    rfl

/-- Settles O46: the end mark's rule does not read the SYM field. -/
theorem encEosClosesTheStream : Obligations.EncEosClosesTheStream := by
  unfold Obligations.EncEosClosesTheStream
  intro c q s hp hq
  rw [exec_encEos hp hq, encodeEnd, takeSym_cons hq]
  rfl

end Sys2Proof.Machine
end

section
/-! SUPPORT. The decoder's steps where they are enabled: a beat fetched by LAST and NVALID, a bit
read by where its edge leads, the end of the stream by where CUR stands (44_decoder.md R130 to
R135). -/

namespace Sys2Proof.Machine

/-! ### DEC_FETCH (R130, R135) -/

/-- Recording an error and closing the decoder write different fields. -/
theorem raise_closeDecoder (c : ErrorCode) (info : Word) (s : State) :
    raise c info (closeDecoder s) = closeDecoder (raise c info s) := rfl

section
variable {b : ByteBeat} {q : List ByteBeat} {s : State}

/-- In DEC, with no bit left before the final beat, the oldest beat of BYTE_IN is ready. -/
theorem byteReady_oldest (hp : s.phase = .dec) (hr : s.rem = 0) (he : s.endseen = false)
    (hq : s.byteIn = b :: q) : byteReady b s = true := by
  simp only [byteReady, biReady, hp, hr, he, hq, List.head?_cons, beq_self_eq_true,
    Bool.not_false, Bool.and_self]

theorem takeByte_cons (hq : s.byteIn = b :: q) : takeByte s = { s with byteIn := q } := by
  rw [takeByte, hq, List.tail_cons]

/-- Each row of DEC_FETCH runs the rule on its own beat, where that beat is ready. -/
theorem exec_decFetch (d : Byte) (s : State) :
    (∀ n, byteReady { last := false, nvalid := n, data := d } s = true →
      exec (.decFetchFull n d) s =
        .next (fetchByte { last := false, nvalid := n, data := d } s)) ∧
    (∀ n : BitVec 3, byteReady { last := true, nvalid := n.setWidth 4, data := d } s = true →
      exec (.decFetchFinal n d) s =
        .next (fetchByte { last := true, nvalid := n.setWidth 4, data := d } s)) ∧
    (byteReady { last := true, nvalid := 8, data := d } s = true →
      exec (.decFetchFinal8 d) s =
        .next (fetchByte { last := true, nvalid := 8, data := d } s)) ∧
    (∀ n, byteReady { last := true, nvalid := n, data := d } s = true →
      exec (.decFetchBad n d) s =
        .next (fetchByte { last := true, nvalid := n, data := d } s)) :=
  ⟨fun _ h => if_pos h, fun _ h => if_pos h, fun h => if_pos h, fun _ h => if_pos h⟩

/-- A byte that is not the last loads 8 bits, whatever its NVALID. -/
theorem fetchByte_full (hq : s.byteIn = b :: q) (hl : b.last = false) :
    fetchByte b s = { s with byteIn := q, shr := b.data, rem := 8 } := by
  rw [fetchByte, takeByte_cons hq, unpackLoad_full _ hl]
  rfl

/-- The last byte loads the NVALID bits it names and ends the source. -/
theorem fetchByte_final (hq : s.byteIn = b :: q) (hl : b.last = true) (hn : b.nvalid.toNat ≤ 8) :
    fetchByte b s = { s with byteIn := q, shr := b.data, rem := b.nvalid, endseen := true } := by
  rw [fetchByte, takeByte_cons hq, unpackLoad_final _ hl hn]
  rfl

/-- A last byte that names more than 8 bits ends the pass. -/
theorem fetchByte_bad (hq : s.byteIn = b :: q) (hl : b.last = true) (hn : 9 ≤ b.nvalid.toNat) :
    fetchByte b s = { closeDecoder (raise .ioBadNvalid (b.nvalid.setWidth 32)
                        { s with byteIn := q }) with phase := .idle } := by
  rw [fetchByte, takeByte_cons hq, unpackLoad_bad _ hl hn, ← raise_closeDecoder]
  rfl

end

/-- Three bits of NVALID name at most 8 bits. -/
theorem toNat_nvalid_of_three_bits_le (n : BitVec 3) : (n.setWidth 4).toNat ≤ 8 := by
  rw [BitVec.toNat_setWidth_of_le (by decide)]
  omega

/-- Settles O49: the oldest beat is ready, and LAST and NVALID say what the rule does with it. -/
theorem decFetchLoadsOrRejectsTheBeat : Obligations.DecFetchLoadsOrRejectsTheBeat := by
  unfold Obligations.DecFetchLoadsOrRejectsTheBeat
  intro q d s hp hr he
  obtain ⟨hfull, hfinal, hfinal8, hbad⟩ := exec_decFetch d s
  refine ⟨fun n hq => ?full, fun n hq => ?final, fun hq => ?final8, fun n hn hq => ?bad⟩
  case full => rw [hfull n (byteReady_oldest hp hr he hq), fetchByte_full hq rfl]
  case final =>
    rw [hfinal n (byteReady_oldest hp hr he hq),
      fetchByte_final hq rfl (toNat_nvalid_of_three_bits_le n)]
  case final8 =>
    rw [hfinal8 (byteReady_oldest hp hr he hq), fetchByte_final hq rfl (Nat.le_refl 8)]
  case bad =>
    rw [hbad n (byteReady_oldest hp hr he hq), fetchByte_bad hq rfl hn]
    rfl

/-! ### DEC_BIT (R131, R134) -/

section
variable {s : State}

theorem exec_decBit (hp : s.phase = .dec) (hr : s.rem ≠ 0) :
    exec .decBit s = .next (decodeBit s) :=
  if_pos (by rw [hp, hasBit, bne_iff_ne.2 hr]; rfl)

/-- With a single-leaf tree every bit emits the root's symbol. -/
theorem decodeBit_rootLeaf (hl : nodeLeaf (s.nodeAt s.root) = true) :
    decodeBit s = emitSymbol (nodeSym (s.nodeAt s.root)) (popBit s).2 :=
  if_pos hl

/-- The edge of the bit leads to a leaf: its symbol is emitted. -/
theorem decodeBit_leaf (hroot : nodeLeaf (s.nodeAt s.root) = false)
    (hl : nodeLeaf (s.nodeAt (nodeChild (s.nodeAt s.cur) (popBit s).1)) = true) :
    decodeBit s =
      emitSymbol (nodeSym (s.nodeAt (nodeChild (s.nodeAt s.cur) (popBit s).1))) (popBit s).2 :=
  (if_neg (ne_true_of_eq_false hroot)).trans (if_pos hl)

/-- The edge of the bit leads to an internal node: CUR moves there. -/
theorem decodeBit_internal (hroot : nodeLeaf (s.nodeAt s.root) = false)
    (hl : nodeLeaf (s.nodeAt (nodeChild (s.nodeAt s.cur) (popBit s).1)) = false) :
    decodeBit s = { (popBit s).2 with cur := nodeChild (s.nodeAt s.cur) (popBit s).1 } :=
  (if_neg (ne_true_of_eq_false hroot)).trans (if_neg (ne_true_of_eq_false hl))

end

/-- Settles O50: the bit is popped as O42 says, and the root, then the node the edge leads to, say
what the rule does with it. -/
theorem decBitWalksOneEdge : Obligations.DecBitWalksOneEdge := by
  unfold Obligations.DecBitWalksOneEdge
  intro s hp hr
  have hne : s.rem ≠ 0 := fun h0 => by simp [h0] at hr
  obtain ⟨-, -, hpop⟩ := unpackerProcedures s
  obtain ⟨d, n, -, hnext, hrem, hentering, hshifted⟩ := hpop hr
  obtain ⟨-, -, hexec⟩ := exec_unpacker s
  have hs1 := Host.Outcome.next.inj ((hexec hne).symm.trans hnext)
  refine ⟨n, hrem, d, ⟨hentering, hshifted⟩, ?_⟩
  rw [exec_decBit hp hne]
  refine ⟨fun hroot => ?rootLeaf, fun hroot hl => ?leaf, fun hroot hl => ?internal⟩
  case rootLeaf => rw [decodeBit_rootLeaf hroot, hs1]; rfl
  case leaf => rw [decodeBit_leaf hroot hl, hs1]; rfl
  case internal => rw [decodeBit_internal hroot hl, hs1]; rfl

/-! ### DEC_FINISH (R132) -/

section
variable {s : State}

theorem exec_decFinish (hp : s.phase = .dec) (hr : s.rem = 0) (he : s.endseen = true) :
    exec .decFinish s = .next (decodeEnd s) :=
  if_pos (by rw [hp, exhausted, hr, he]; rfl)

/-- The stream ends between two symbols. -/
theorem decodeEnd_root (hc : s.cur = s.root) :
    decodeEnd s = { closeDecoder { s with done := true } with phase := .idle } := by
  rw [decodeEnd, if_neg (not_not_intro hc)]

/-- The stream ends in the middle of a walk. -/
theorem decodeEnd_truncated (hc : s.cur ≠ s.root) :
    decodeEnd s =
      { closeDecoder (raise .truncated (s.cur.setWidth 32) s) with phase := .idle } := by
  rw [decodeEnd, if_pos hc]

end

/-- Settles O51: by whether CUR stands at ROOT. -/
theorem decFinishDetectsTruncation : Obligations.DecFinishDetectsTruncation := by
  unfold Obligations.DecFinishDetectsTruncation
  intro s hp hr he
  rw [exec_decFinish hp hr he]
  refine ⟨fun hc => ?done, fun hc => ?truncated⟩
  case done => rw [decodeEnd_root hc]; rfl
  case truncated => rw [decodeEnd_truncated hc]; rfl

end Sys2Proof.Machine
end

section
/-! SUPPORT. What `raise` writes, by whether an error stands recorded (60_exceptions.md R150). -/

namespace Sys2Proof.Machine

section
variable {s : State}

/-- The first error is recorded whole; ERR_MULTI keeps its value. -/
theorem raise_first (c : ErrorCode) (info : Word) (he : s.errCode = 0) :
    raise c info s = { s with errCode := c.code, errInfo := info } := by
  simp only [raise, if_pos he]

/-- A later error leaves its trace in ERR_MULTI alone, whatever its code and information. -/
theorem raise_later (c : ErrorCode) (info : Word) (he : s.errCode ≠ 0) :
    raise c info s = { s with errMulti := true } := by
  simp only [raise, if_neg he]

end

/-- Settles O8: by whether an error stands recorded. -/
theorem raiseKeepsFirstError : Obligations.RaiseKeepsFirstError := by
  unfold Obligations.RaiseKeepsFirstError
  intro c info s
  split
  case isTrue he => exact raise_first c info he
  case isFalse he => exact raise_later c info he

end Sys2Proof.Machine
end

section
/-! SUPPORT. The codec format by format: what each shape of word decodes to, and the word's fields
back from it (30_encoding.md R66 to R72). -/

namespace Sys2Proof.Machine

/-! ### Command words (R66, R72) -/

/-- A word above 0x07 is no command. -/
theorem decodeCmdw_illegal {v : Word} (h : 7 < v.toNat) : decodeCmdw v = .cmdIllegal v := by
  unfold decodeCmdw
  split
  case isFalse => rfl
  case isTrue h0 =>
    have hv : (v.extractLsb' 0 8).toNat = v.toNat := by
      have := congrArg BitVec.toNat h0
      simp [BitVec.extractLsb'_toNat, Nat.shiftRight_eq_div_pow] at this ⊢
      have := v.isLt
      omega
    rw [hv]
    split
    case h_9 => rfl
    all_goals omega

/-- The words up to 0x07 are the eight opcodes. -/
theorem command_cases {v : Word} (h : ¬ 7 < v.toNat) :
    v = 0 ∨ v = 1 ∨ v = 2 ∨ v = 3 ∨ v = 4 ∨ v = 5 ∨ v = 6 ∨ v = 7 := by
  bv_omega

/-- Every command word decodes to a well-formed row whose word it is. -/
theorem encode_decodeCmdw (v : Word) :
    (decodeCmdw v).wellFormed = true ∧ encode (decodeCmdw v) = some (.cmdw v) := by
  by_cases h : 7 < v.toNat
  · rw [decodeCmdw_illegal h]
    exact ⟨by simpa [Instr.wellFormed, legalCommand] using h, rfl⟩
  · rcases command_cases h with rfl | rfl | rfl | rfl | rfl | rfl | rfl | rfl <;> decide

/-! ### Register accesses (R71) -/

/-- The direction and the index back from the word they form. -/
theorem access_fields (dir : Bool) (idx : RegIndex) :
    (BitVec.ofBool dir ++ idx).getLsbD 6 = dir ∧
    (BitVec.ofBool dir ++ idx).extractLsb' 0 6 = idx := by
  refine ⟨?_, BitVec.eq_of_getLsbD_eq fun i hi => ?_⟩
  · refine (BitVec.getLsbD_append (x := BitVec.ofBool dir) (y := idx)).trans ?_
    simp
  · rw [BitVec.getLsbD_extractLsb', Nat.zero_add, decide_eq_true hi, Bool.true_and]
    refine (BitVec.getLsbD_append (x := BitVec.ofBool dir) (y := idx)).trans ?_
    rw [if_pos hi]

/-- Every direction and index is the word its fields form. -/
theorem access_eq (di : BitVec 7) : di = BitVec.ofBool (di.getLsbD 6) ++ di.extractLsb' 0 6 := by
  refine BitVec.eq_of_getLsbD_eq fun i hi => ?_
  refine Eq.trans ?_ (BitVec.getLsbD_append (x := BitVec.ofBool (di.getLsbD 6))
    (y := di.extractLsb' 0 6)).symm
  by_cases h : i < 6
  · simp [h]
  · obtain rfl : i = 6 := by omega
    simp

theorem decodeRegw_read (idx : RegIndex) (data : Word) :
    decodeRegw (0#1 ++ idx) data = .regRd idx := by
  obtain ⟨hdir, hidx⟩ := access_fields false idx
  refine (if_neg (ne_true_of_eq_false hdir)).trans ?_
  exact congrArg Instr.regRd hidx

/-- The writable indices. -/
theorem writableIndex_cases {idx : RegIndex} (h : writableIndex idx = true) :
    idx = 0x01 ∨ idx = 0x05 ∨ idx = 0x06 ∨ idx = 0x07 ∨ idx = 0x08 ∨ idx = 0x09 := by
  simpa [writableIndex, or_assoc] using h

/-- A write to any other index is the row of register writes. -/
theorem decodeRegw_write_other {idx : RegIndex} (data : Word) (h : writableIndex idx = false) :
    decodeRegw (1#1 ++ idx) data = .regWr idx data := by
  obtain ⟨hdir, hidx⟩ := access_fields true idx
  have hne : ∀ k : RegIndex, writableIndex k = true → idx.toNat ≠ k.toNat := by
    intro k hk e
    rw [BitVec.eq_of_toNat_eq e, hk] at h
    cases h
  refine (if_pos hdir).trans ?_
  rw [show BitVec.extractLsb' 0 6 (1#1 ++ idx) = idx from hidx]
  split
  case h_7 => rfl
  case h_1 e => exact absurd e (hne 0x01 rfl)
  case h_2 e => exact absurd e (hne 0x05 rfl)
  case h_3 e => exact absurd e (hne 0x06 rfl)
  case h_4 e => exact absurd e (hne 0x07 rfl)
  case h_5 e => exact absurd e (hne 0x08 rfl)
  case h_6 e => exact absurd e (hne 0x09 rfl)

/-- Every register write decodes to a well-formed row whose word it is. -/
theorem encode_decodeRegw_write (idx : RegIndex) (data : Word) :
    (decodeRegw (1#1 ++ idx) data).wellFormed = true ∧
    encode (decodeRegw (1#1 ++ idx) data) = some (regwWrite idx data) := by
  cases h : writableIndex idx
  case false =>
    rw [decodeRegw_write_other data h]
    exact ⟨by simp [Instr.wellFormed, h], rfl⟩
  case true =>
    rcases writableIndex_cases h with rfl | rfl | rfl | rfl | rfl | rfl <;> exact ⟨rfl, rfl⟩

/-! ### Beats (R69, R70) -/

/-- A symbol beat is the number of its fields. -/
theorem symBeat_toBits_ofBits (w : BitVec 9) : (SymBeat.ofBits w).toBits = w := by
  refine BitVec.eq_of_getLsbD_eq fun i hi => ?_
  rw [symBeat_toBits_getLsbD]
  by_cases h : i < 8
  · simp [SymBeat.ofBits, h]
  · obtain rfl : i = 8 := by omega
    simp [SymBeat.ofBits]

/-- A byte beat is the number of its fields. -/
theorem byteBeat_toBits_ofBits (w : BitVec 13) : (ByteBeat.ofBits w).toBits = w := by
  refine BitVec.eq_of_getLsbD_eq fun i hi => ?_
  rw [byteBeat_toBits_getLsbD]
  by_cases h : i < 8
  · simp [ByteBeat.ofBits, h]
  · by_cases h12 : i < 12
    · have h4 : i - 8 < 4 := by omega
      have h8 : 8 + (i - 8) = i := by omega
      simp [ByteBeat.ofBits, h, h12, h4, h8]
    · obtain rfl : i = 12 := by omega
      simp [ByteBeat.ofBits]

/-- The word of each row of DEC_FETCH is the number of its beat. -/
theorem encode_decFetch (d : Byte) :
    (∀ n, encode (.decFetchFull n d) =
      some (.bytb ({ last := false, nvalid := n, data := d } : ByteBeat).toBits)) ∧
    (∀ n : BitVec 3, encode (.decFetchFinal n d) =
      some (.bytb ({ last := true, nvalid := n.setWidth 4, data := d } : ByteBeat).toBits)) ∧
    encode (.decFetchFinal8 d) =
      some (.bytb ({ last := true, nvalid := 8, data := d } : ByteBeat).toBits) ∧
    (∀ n, encode (.decFetchBad n d) =
      some (.bytb ({ last := true, nvalid := n, data := d } : ByteBeat).toBits)) := by
  have hfinal : ∀ n : BitVec 3, (2#2 ++ n : BitVec 5) = 1#1 ++ n.setWidth 4 := by decide
  have hfinal8 : (0x18#5 : BitVec 5) = 1#1 ++ 8#4 := by decide
  have hbeat := fun {x y : BitVec 5} (h : x = y) => congrArg (fun z => some (Wire.bytb (z ++ d))) h
  exact ⟨fun _ => rfl, fun n => hbeat (hfinal n), hbeat hfinal8, fun _ => rfl⟩

/-- Every byte beat decodes to a well-formed row whose word is the beat's number. -/
theorem encode_decodeBytb (b : ByteBeat) :
    (decodeWire (.bytb b.toBits)).wellFormed = true ∧
    encode (decodeWire (.bytb b.toBits)) = some (.bytb b.toBits) := by
  obtain ⟨l, n, d⟩ := b
  obtain ⟨hfull, hfinal, hfinal8, hbad⟩ := encode_decFetch d
  rw [decodeWire_bytebeat]
  cases l
  case false => exact ⟨rfl, hfull n⟩
  case true =>
    simp only [Bool.true_eq_false, if_false]
    split
    case isTrue hlt =>
      have hn : (n.setWidth 3).setWidth 4 = n := by bv_omega
      refine ⟨rfl, ?_⟩
      rw [hfinal, hn]
    case isFalse hge =>
      split
      case isTrue h8 =>
        subst h8
        exact ⟨rfl, hfinal8⟩
      case isFalse h8 =>
        refine ⟨?_, hbad n⟩
        simp only [Instr.wellFormed, decide_eq_true_eq]
        bv_omega

/-! ### The statements -/

/-- Settles O2: format by format. A command word is one of eight or illegal, a register access
gives back its direction and index, a beat its fields. -/
theorem decodeOfEncodeIsIdentity : Obligations.DecodeOfEncodeIsIdentity := by
  unfold Obligations.DecodeOfEncodeIsIdentity
  intro i hi
  refine ⟨fun w hw => ?roundTrip, ?noWord⟩
  case noWord =>
    cases i
    case pushBit b => cases b <;> simp [encode]
    all_goals simp [encode]
  case roundTrip =>
    cases i
    case cmdIllegal v =>
      cases hw
      exact decodeCmdw_illegal (by simpa [Instr.wellFormed, legalCommand] using hi)
    case regRd idx => cases hw; exact decodeRegw_read idx 0
    case regWr idx v =>
      cases hw
      exact decodeRegw_write_other v (by simpa [Instr.wellFormed] using hi)
    case encSym c =>
      cases hw
      exact decodeWire_symbeat { eos := false, sym := c }
    case encEos c =>
      cases hw
      exact decodeWire_symbeat { eos := true, sym := c }
    case decFetchFull n d =>
      cases hw
      exact decodeWire_bytebeat { last := false, nvalid := n, data := d }
    case decFetchFinal n d =>
      obtain ⟨-, hfinal, -⟩ := encode_decFetch d
      cases (hfinal n).symm.trans hw
      rw [decodeWire_bytebeat]
      have hlt : (n.setWidth 4).toNat < 8 := by
        rw [BitVec.toNat_setWidth_of_le (by decide)]
        exact n.isLt
      have hn : (n.setWidth 4).setWidth 3 = n := by bv_omega
      simp only [Bool.true_eq_false, if_false, hlt, if_true, hn]
    case decFetchFinal8 d =>
      obtain ⟨-, -, hfinal8, -⟩ := encode_decFetch d
      cases hfinal8.symm.trans hw
      exact decodeWire_bytebeat { last := true, nvalid := 8, data := d }
    case decFetchBad n d =>
      cases hw
      have h9 : 8 < n.toNat := by simpa [Instr.wellFormed] using hi
      have hlt : ¬ n.toNat < 8 := by omega
      have hne : n ≠ 8 := by rintro rfl; exact absurd h9 (by decide)
      refine (decodeWire_bytebeat { last := true, nvalid := n, data := d }).trans ?_
      simp only [Bool.true_eq_false, if_false, hlt, hne]
    case genRun | decBit | decFinish | packReset | pushBit | packClose | unpackReset | unpackLoad
        | popBit | reset => cases hw
    all_goals
      cases hw
      rfl

/-- Settles O3: the same lemmas read the other way, a register access by its direction bit. -/
theorem encodeOfDecodeIsIdentity : Obligations.EncodeOfDecodeIsIdentity := by
  unfold Obligations.EncodeOfDecodeIsIdentity
  intro w
  cases w with
  | cmdw v => exact encode_decodeCmdw v
  | regw di data =>
    show (decodeRegw di data).wellFormed = true ∧
      encode (decodeRegw di data) = some (.regw di (if di.getLsbD 6 then data else 0))
    have hdi := access_eq di
    generalize di.extractLsb' 0 6 = idx at hdi
    cases hdir : di.getLsbD 6
    case false =>
      rw [hdir] at hdi
      subst hdi
      exact (decodeRegw_read idx data).symm ▸ ⟨rfl, rfl⟩
    case true =>
      rw [hdir] at hdi
      subst hdi
      exact encode_decodeRegw_write idx data
  | symb b =>
    rw [← symBeat_toBits_ofBits b, decodeWire_symbeat]
    obtain ⟨e, c⟩ := SymBeat.ofBits b
    cases e <;> exact ⟨rfl, rfl⟩
  | bytb b =>
    rw [← byteBeat_toBits_ofBits b]
    exact encode_decodeBytb _

/-- Settles O1: the words are decoded as written; above 0x07 by `decodeCmdw_illegal`. -/
theorem wordsOfTheFormatsDecode : Obligations.WordsOfTheFormatsDecode := by
  unfold Obligations.WordsOfTheFormatsDecode
  refine ⟨⟨rfl, rfl, rfl, rfl, rfl, rfl, rfl, rfl, fun _ => decodeCmdw_illegal⟩, ?_⟩
  decide

/-- Settles O19: a write to CMD, by its own row or by its index, answers as its command
(`exec_regWrCmd`). -/
theorem commandWriteIsItsCommand : Obligations.CommandWriteIsItsCommand := by
  unfold Obligations.CommandWriteIsItsCommand
  exact fun v s => ⟨exec_regWrCmd v s, exec_canon (.regWr 0x01 v) s⟩

end Sys2Proof.Machine
end

section
/-! SUPPORT. What an effect does to one part of the state at a time: the phase, the error record,
the tree with its table, the channels; and which instructions have a row as their canonical one. -/

namespace Sys2Proof.Machine

/-! ### The instructions behind a canonical row -/

/-- The word of CMD a command row comes from is its own. -/
theorem decodeCmdw_inj {v w : Word} (h : decodeCmdw v = decodeCmdw w) : v = w := by
  have hv := (encode_decodeCmdw v).2
  rw [h, (encode_decodeCmdw w).2] at hv
  cases hv
  rfl

/-- An instruction whose canonical row is a command other than NOP is that command in one of its
three spellings. -/
theorem spelling_of_canon {i : Instr} {v : Word} (h : canon i = decodeCmdw v)
    (hv : decodeCmdw v ≠ .nop) : i = decodeCmdw v ∨ i = .regWrCmd v ∨ i = .regWr 0x01 v := by
  have hword := (encode_decodeCmdw v).2
  cases i
  case regWrCmd w => exact .inr (.inl (congrArg Instr.regWrCmd (decodeCmdw_inj h)))
  case regWr idx w =>
    unfold canon at h
    dsimp only at h
    split at h
    case h_1 hidx =>
      obtain rfl : idx = 0x01 := BitVec.eq_of_toNat_eq hidx
      exact .inr (.inr (congrArg (Instr.regWr 0x01) (decodeCmdw_inj h)))
    case h_7 => exact absurd h.symm hv
    all_goals
      rw [← h] at hword
      cases hword
  all_goals exact .inl h

theorem spelling_mem_of_canon {i : Instr} {v : Word} (h : canon i = decodeCmdw v)
    (hv : decodeCmdw v ≠ .nop) : i ∈ [decodeCmdw v, .regWrCmd v, .regWr 0x01 v] := by
  simpa using spelling_of_canon h hv

/-- The rows of the register port, by the carrier of their word. -/
def portRow (i : Instr) : Bool :=
  match encode i with
  | some (.cmdw _) | some (.regw _ _) => true
  | _ => false

/-- Only an instruction of the register port has another row as its canonical one. -/
theorem eq_of_canon_not_port {i k : Instr} (h : canon i = k) (hk : portRow k = false) : i = k := by
  subst h
  have hcmd : ∀ v, portRow (decodeCmdw v) = true := fun v => by
    rw [portRow, (encode_decodeCmdw v).2]
  cases i
  case regWrCmd v => exact absurd (hcmd v) (ne_true_of_eq_false hk)
  case regWr idx v =>
    unfold canon at hk
    dsimp only at hk
    split at hk
    case h_1 => exact absurd (hcmd v) (ne_true_of_eq_false hk)
    all_goals cases hk
  all_goals rfl

/-- An instruction whose canonical row resets is a reset. -/
theorem resets_of_canon {i : Instr} (h : resets (canon i) = true) : resets i = true := by
  obtain ⟨hwr, hcmd⟩ := canon_not_regWr i
  have hk : canon i = .softReset ∨ canon i = .reset := by
    simpa [resets, hwr, hcmd] using h
  rcases hk with hk | hk
  · rcases spelling_of_canon (v := 7) hk (by decide) with rfl | rfl | rfl <;> rfl
  · rw [eq_of_canon_not_port hk rfl]
    rfl

/-! ### The phase -/

/-- An effect leaves the phase, ends it, or is an accepted start command. -/
theorem effect_phase {i : Instr} {s t : State} (h : Effect s i t) :
    t.phase = s.phase ∨ t.phase = .idle ∨
    (s.phase = .idle ∧ s.errCode = 0 ∧ t.done = false ∧
      ((t.phase = .gen ∧ i = .buildTable) ∨
       (t.phase = .enc ∧ s.tableValid = true ∧ i = .encStart) ∨
       (t.phase = .dec ∧ s.treeValid = true ∧ i = .decStart))) := by
  cases h
  case buildTable hp he => exact .inr (.inr ⟨hp, he, rfl, .inl ⟨rfl, rfl⟩⟩)
  case encStart hp he hv => exact .inr (.inr ⟨hp, he, rfl, .inr (.inl ⟨rfl, hv, rfl⟩)⟩)
  case decStart hp he hv => exact .inr (.inr ⟨hp, he, rfl, .inr (.inr ⟨rfl, hv, rfl⟩)⟩)
  all_goals simp

/-- While a phase goes on DONE is as it was; an accepted start clears it. -/
theorem effect_done {i : Instr} {s t : State} (h : Effect s i t) :
    t.phase = .idle ∨ t.done = false ∨ (t.phase = s.phase ∧ t.done = s.done) := by
  cases h <;> simp

/-! ### The error record -/

/-- A traversal fails with one of the four errors of R101. -/
theorem visit_error {node : Memory NodeWord} {nvalid : Memory Bool} {room : Nat} {n : NodeIndex}
    {p : Code} {g : GenWork} {c : ErrorCode} {info : Word}
    (h : visit node nvalid room n p g = .error (c, info)) :
    c ∈ [ErrorCode.treeAbsent, .treeShared, .treeDupsym, .treeDepth] := by
  fun_induction visit node nvalid room n p g with
  | case1 | case2 | case4 => cases h; decide
  | case3 =>
    unfold visitLeaf at h
    split at h <;> cases h
    decide
  | case5 _ _ _ _ _ _ _ _ _ _ hleft ih => cases h; exact ih hleft
  | case6 _ _ _ _ _ _ _ _ _ _ _ _ ih => exact ih h

/-- Every cause but CMD_ERRPEND has a code that can stand recorded (60_exceptions.md R151). -/
theorem code_mem_recordedCodes {c : ErrorCode} (h : c ≠ .cmdErrpend) : c.code ∈ recordedCodes := by
  cases c
  case cmdErrpend => exact absurd rfl h
  all_goals decide

/-- With no error recorded an effect leaves the record empty, or records a code of the table with
ERR_MULTI as it was. -/
theorem effect_firstError {i : Instr} {s t : State} (h : Effect s i t) (he : s.errCode = 0) :
    (t.errCode = 0 ∧ ((t.errInfo = s.errInfo ∧ t.errMulti = s.errMulti) ∨
      (t.errInfo = 0 ∧ t.errMulti = false))) ∨
    t.errCode ∈ recordedCodes := by
  cases h
  case cmdErrpend hne => exact absurd he hne
  case genError c info hp hv =>
    have hc : c ≠ .cmdErrpend := by
      rintro rfl
      exact absurd (visit_error hv) (by decide)
    exact .inr (by simpa [he] using code_mem_recordedCodes hc)
  all_goals simp [he, ErrorCode.code, recordedCodes]

/-- With an error recorded an effect other than ACK's and a reset's keeps it. -/
theorem effect_laterError {i : Instr} {s t : State} (h : Effect s i t) (he : s.errCode ≠ 0) :
    (t.errCode = s.errCode ∧ t.errInfo = s.errInfo ∧ (s.errMulti = true → t.errMulti = true)) ∨
    ((i = .ack ∨ resets i = true) ∧ t.errCode = 0 ∧ t.errInfo = 0 ∧ t.errMulti = false) := by
  cases h
  case ack => exact .inr ⟨.inl rfl, rfl, rfl, rfl⟩
  case reset hi => exact .inr ⟨.inr hi, rfl, rfl, rfl⟩
  all_goals
    have hne : s.errCode ≠ 0#8 := he
    exact .inl (by simp [hne])

/-! ### The tree and its table -/

/-- ROOT, the tree store, the table and their flags are the same. -/
structure SameTree (s t : State) : Prop where
  root : t.root = s.root
  node : t.node = s.node
  nvalid : t.nvalid = s.nvalid
  table : t.table = s.table
  nleaf : t.nleaf = s.nleaf
  treeValid : t.treeValid = s.treeValid
  tableValid : t.tableValid = s.tableValid
  rootLeaf : t.rootLeaf = s.rootLeaf

/-- The flags are clear and the table is empty (10_state.md R38). -/
structure Invalidated (t : State) : Prop where
  table : t.table = []
  treeValid : t.treeValid = false
  tableValid : t.tableValid = false
  rootLeaf : t.rootLeaf = false
  nleaf : t.nleaf = 0

/-- An effect leaves tree and table, the phase moving only as they allow; or invalidates the table,
and the tree is then written in IDLE or by a reset alone; or is GEN_RUN's commit. -/
theorem effect_tree {i : Instr} {s t : State} (h : Effect s i t) :
    (SameTree s t ∧
      (t.phase = s.phase ∨ t.phase = .idle ∨ (t.phase = .enc ∧ s.tableValid = true) ∨
        (t.phase = .dec ∧ s.treeValid = true))) ∨
    (Invalidated t ∧ (t.phase = .idle ∨ t.phase = .gen) ∧
      ((t.root = s.root ∧ t.node = s.node ∧ t.nvalid = s.nvalid) ∨ s.phase = .idle ∨
        resets i = true)) ∨
    (∃ g, i = .genRun ∧ s.phase = .gen ∧ visitRoot s = .ok g ∧
      t = { genCommit g s with phase := .idle }) := by
  cases h
  case genOk g hp hv => exact .inr (.inr ⟨g, rfl, hp, hv, rfl⟩)
  case reset hi => exact .inr (.inl ⟨by constructor <;> rfl, .inl rfl, .inr (.inr hi)⟩)
  case treeClear hp | writeRoot hp | writeNodeData hp =>
    exact .inr (.inl ⟨by constructor <;> rfl, .inl hp, .inr (.inl hp)⟩)
  case buildTable =>
    exact .inr (.inl ⟨by constructor <;> rfl, .inr rfl, .inl ⟨rfl, rfl, rfl⟩⟩)
  case abortGen | genError =>
    exact .inr (.inl ⟨by constructor <;> rfl, .inl rfl, .inl ⟨rfl, rfl, rfl⟩⟩)
  case encStart hv =>
    exact .inl ⟨by constructor <;> rfl, .inr (.inr (.inl ⟨rfl, hv⟩))⟩
  case decStart hv =>
    exact .inl ⟨by constructor <;> rfl, .inr (.inr (.inr ⟨rfl, hv⟩))⟩
  all_goals exact .inl ⟨by constructor <;> simp, by simp⟩

/-! ### The channels -/

/-- An effect leaves SYM_IN, or takes its oldest beat in ENC (10_state.md R40). -/
theorem effect_symIn {i : Instr} {s t : State} (h : Effect s i t) :
    t.symIn = s.symIn ∨ (∃ b, s.symIn = b :: t.symIn) ∧ s.phase = .enc := by
  cases h
  case encSym hr _ | lookupFailure hr _ | encEos hr =>
    obtain ⟨hp, hq⟩ := symIn_of_symReady hr
    exact .inr ⟨⟨_, by simpa using hq⟩, hp⟩
  all_goals exact .inl (by simp)

/-- An effect leaves BYTE_IN, or takes its oldest beat where the decoder needs a byte (10_state.md
R42). -/
theorem effect_byteIn {i : Instr} {s t : State} (h : Effect s i t) :
    t.byteIn = s.byteIn ∨
      (∃ b, s.byteIn = b :: t.byteIn) ∧ s.phase = .dec ∧ s.rem = 0 ∧ s.endseen = false := by
  cases h
  case fetch b hr _ | fetchBad b hr _ _ =>
    obtain ⟨hp, h0, hq⟩ := byteIn_of_byteReady hr
    have he : s.endseen = false := by
      simp only [byteReady, biReady, Bool.and_eq_true, Bool.not_eq_true'] at hr
      exact hr.1.2
    exact .inr ⟨⟨b, by simpa using hq⟩, hp, h0, he⟩
  all_goals exact .inl (by simp)

/-- DEC_BIT emits no end mark. -/
theorem decodeBit_symOut (s : State) :
    ∃ x, (decodeBit s).symOut = s.symOut ++ x ∧ ∀ b ∈ x, b.eos = false := by
  cases hroot : nodeLeaf (s.nodeAt s.root)
  case true => exact ⟨[_], by rw [decodeBit_rootLeaf hroot]; rfl, by simp⟩
  case false =>
    cases hl : nodeLeaf (s.nodeAt (nodeChild (s.nodeAt s.cur) (popBit s).1))
    case true => exact ⟨[_], by rw [decodeBit_leaf hroot hl]; rfl, by simp⟩
    case false => exact ⟨[], by rw [decodeBit_internal hroot hl]; simp, by simp⟩

/-- An effect only appends to SYM_OUT, an end mark with SYM 0 (30_encoding.md R69). -/
theorem effect_symOut {i : Instr} {s t : State} (h : Effect s i t) :
    ∃ x, t.symOut = s.symOut ++ x ∧ ∀ b ∈ x, b.eos = true → b.sym = 0 := by
  cases h
  case decBit =>
    obtain ⟨x, hx, hb⟩ := decodeBit_symOut s
    exact ⟨x, hx, fun b hm he => absurd he (ne_true_of_eq_false (hb b hm))⟩
  case abortDec | fetchBad | truncated | decFinish =>
    exact ⟨[endMark], by simp, by simp [endMark]⟩
  all_goals exact ⟨[], by simp, by simp⟩

/-- The final beat `pack_close` emits is as R70 drives it, as long as unfilled bits of ACC are 0. -/
theorem drivenByte_close {s : State} (h : ∀ i, i < 8 - s.nb.toNat → s.acc.getLsbD i = false) :
    drivenByte { last := true, nvalid := s.nb.setWidth 4, data := s.acc } := by
  have hn : (s.nb.setWidth 4).toNat = s.nb.toNat := BitVec.toNat_setWidth_of_le (by decide)
  have := s.nb.isLt
  refine ⟨nofun, fun _ => ?_⟩
  dsimp only
  rw [hn]
  exact ⟨by omega, h⟩

/-- An effect only appends to BYTE_OUT, as long as unfilled bits of ACC are 0 beats as R70 drives
them. -/
theorem effect_byteOut {i : Instr} {s t : State} (h : Effect s i t) :
    ∃ x, t.byteOut = s.byteOut ++ x ∧
      ((∀ i, i < 8 - s.nb.toNat → s.acc.getLsbD i = false) → ∀ b ∈ x, drivenByte b) := by
  have hpush : ∀ w (u : State), ∃ x, (pushBits w u).byteOut = u.byteOut ++ x ∧
      ∀ b ∈ x, drivenByte b := by
    intro w u
    obtain ⟨x, hframe, hfull, -⟩ := pushBits_pushed w u
    refine ⟨x, congrArg State.byteOut hframe, fun b hb => ?_⟩
    obtain ⟨hl, hn⟩ := hfull b hb
    exact ⟨fun _ => hn, fun h => absurd h (ne_true_of_eq_false hl)⟩
  cases h
  case encSym c hr hv =>
    obtain ⟨x, hx, hb⟩ := hpush (s.codeAt c) (takeSym s)
    exact ⟨x, by simpa using hx, fun _ => hb⟩
  case pushBit b =>
    obtain ⟨x, hx, hb⟩ := hpush [b] s
    exact ⟨x, hx, fun _ => hb⟩
  case abortEnc | lookupFailure | encEos | packClose =>
    exact ⟨[{ last := true, nvalid := s.nb.setWidth 4, data := s.acc }], by simp,
      fun h => by simpa using drivenByte_close h⟩
  all_goals exact ⟨[], by simp, by simp⟩

/-! ### The packer and the unpacker -/

/-- An effect of a step leaves the packer, empties it, or pushes bits into it in ENC. -/
theorem effect_packer {i : Instr} {s t : State} (h : Effect s i t) (hi : isProcedure i = false) :
    (t.acc = s.acc ∧ t.nb = s.nb ∧ (t.phase ≠ .enc → s.phase ≠ .enc)) ∨
    (t.acc = 0 ∧ t.nb = 0) ∨
    (t.phase = .enc ∧ ∃ w u, u.acc = s.acc ∧ u.nb = s.nb ∧
      t.acc = (pushBits w u).acc ∧ t.nb = (pushBits w u).nb) := by
  cases h
  case packReset | pushBit | packClose => cases hi
  case encSym c hr _ =>
    obtain ⟨hp, -⟩ := symIn_of_symReady hr
    exact .inr (.inr ⟨by simpa using hp, s.codeAt c, takeSym s, rfl, rfl, rfl, rfl⟩)
  case fetch hr _ | fetchBad hr _ _ =>
    obtain ⟨hp, -⟩ := byteIn_of_byteReady hr
    exact .inl (by simp [hp])
  case encStart | reset | abortEnc | lookupFailure | encEos => exact .inr (.inl ⟨rfl, rfl⟩)
  all_goals exact .inl (by simp [*])

/-- An effect of a step leaves the unpacker, empties it, or runs it in DEC with at most 8 bits. -/
theorem effect_unpacker {i : Instr} {s t : State} (h : Effect s i t)
    (hi : isProcedure i = false) :
    (t.shr = s.shr ∧ t.rem = s.rem ∧ t.endseen = s.endseen ∧ (t.phase ≠ .dec → s.phase ≠ .dec)) ∨
    (t.shr = 0 ∧ t.rem = 0 ∧ t.endseen = false) ∨
    (t.phase = .dec ∧ (s.rem.toNat ≤ 8 → t.rem.toNat ≤ 8)) := by
  cases h
  case unpackReset | unpackLoad | popBit => cases hi
  case fetch b hr hn =>
    obtain ⟨hp, -⟩ := byteIn_of_byteReady hr
    refine .inr (.inr ⟨by simpa using hp, fun _ => ?_⟩)
    dsimp only
    split
    · exact hn ‹_›
    · decide
  case decBit hp hr =>
    have hpop := (popBit_spec s hr).2.1
    refine .inr (.inr ⟨by simpa using hp, fun h8 => ?_⟩)
    rw [show (decodeBit s).rem = (popBit s).2.rem by simp]
    omega
  case encSym hr _ | lookupFailure hr _ | encEos hr =>
    obtain ⟨hp, -⟩ := symIn_of_symReady hr
    exact .inl (by simp [hp])
  case decStart | reset | abortDec | fetchBad | truncated | decFinish =>
    exact .inr (.inl ⟨rfl, rfl, rfl⟩)
  all_goals exact .inl (by simp [*])

end Sys2Proof.Machine
end

section
/-! SUPPORT. The whole-machine rules and the invariants every step keeps, each from what an effect
does to its part of the state. -/

namespace Sys2Proof.Machine

/-! ### What an instruction changes -/

/-- Settles O29: an effect that writes the tree comes in IDLE or is a reset. -/
theorem treeImmutableWhileBusy : Obligations.TreeImmutableWhileBusy := by
  unfold Obligations.TreeImmutableWhileBusy
  intro i s t h hp hr
  obtain ⟨hsame, -⟩ | ⟨-, -, hkept | hidle | hreset⟩ | ⟨g, -, -, -, rfl⟩ :=
    effect_tree (exec_effect h)
  · exact ⟨hsame.root, hsame.node, hsame.nvalid⟩
  · exact hkept
  · exact absurd hidle hp
  · exact absurd (resets_of_canon hreset) (ne_true_of_eq_false hr)
  · simp

/-- Settles O30: by `effect_phase`; the accepted command has three spellings. -/
theorem phaseChangesOnlyByStartOrEnd : Obligations.PhaseChangesOnlyByStartOrEnd := by
  unfold Obligations.PhaseChangesOnlyByStartOrEnd
  intro i s t h hne
  obtain hsame | hidle | ⟨hp, he, hd, hstart⟩ := effect_phase (exec_effect h)
  · exact absurd hsame hne
  · exact .inl hidle
  · refine .inr ⟨hp, he, hd, ?_⟩
    obtain ⟨hgen, hc⟩ | ⟨henc, hv, hc⟩ | ⟨hdec, hv, hc⟩ := hstart
    · exact .inl ⟨hgen, spelling_mem_of_canon (v := 2) hc (by decide)⟩
    · exact .inr (.inl ⟨henc, hv, spelling_mem_of_canon (v := 3) hc (by decide)⟩)
    · exact .inr (.inr ⟨hdec, hv, spelling_mem_of_canon (v := 4) hc (by decide)⟩)

/-- Settles O31: by `effect_laterError`; ACK has three spellings. -/
theorem recordedErrorIsSticky : Obligations.RecordedErrorIsSticky := by
  unfold Obligations.RecordedErrorIsSticky
  intro i s t h he hr ha
  obtain hkept | ⟨hack | hreset, -⟩ := effect_laterError (exec_effect h) he
  · exact hkept
  · rcases spelling_of_canon (v := 6) hack (by decide) with rfl | rfl | rfl <;> cases ha
  · exact absurd (resets_of_canon hreset) (ne_true_of_eq_false hr)

/-- Settles O32: by `effect_tree`. -/
theorem tableWrittenOnlyByGenerator : Obligations.TableWrittenOnlyByGenerator := by
  unfold Obligations.TableWrittenOnlyByGenerator
  intro i s t h hne
  obtain ⟨hsame, -⟩ | ⟨hinv, -⟩ | ⟨g, hi, hp, -, rfl⟩ := effect_tree (exec_effect h)
  · exact absurd hsame.table hne
  · exact .inl ⟨hinv.table, hinv.treeValid, hinv.tableValid, hinv.rootLeaf, hinv.nleaf⟩
  · exact .inr ⟨eq_of_canon_not_port hi rfl, hp, rfl, rfl, rfl⟩

/-- Settles O33: each channel by its own lemma on effects. -/
theorem channelsAreFirstInFirstOut : Obligations.ChannelsAreFirstInFirstOut := by
  unfold Obligations.ChannelsAreFirstInFirstOut
  intro i s t h
  have heff := exec_effect h
  obtain ⟨x, hx, -⟩ := effect_byteOut heff
  obtain ⟨y, hy, -⟩ := effect_symOut heff
  exact ⟨⟨x, hx⟩, ⟨y, hy⟩, effect_symIn heff, effect_byteIn heff⟩

/-- The encoder's counters change by ENC_SYM, push_bit, ENC_START or a reset. -/
theorem effect_encCounters {i : Instr} {s t : State} (h : Effect s i t) :
    (t.encSymcnt = s.encSymcnt ∧ t.encBitcnt = s.encBitcnt) ∨
    ((∃ c, i = .encSym c) ∧ s.phase = .enc) ∨ (∃ b, i = .pushBit b) ∨
    (i = .encStart ∧ t.encSymcnt = 0 ∧ t.encBitcnt = 0) ∨ resets i = true := by
  cases h
  case encSym c hr _ => exact .inr (.inl ⟨⟨c, rfl⟩, (symIn_of_symReady hr).1⟩)
  case pushBit b => exact .inr (.inr (.inl ⟨b, rfl⟩))
  case encStart => exact .inr (.inr (.inr (.inl ⟨rfl, rfl, rfl⟩)))
  case reset hi => exact .inr (.inr (.inr (.inr hi)))
  all_goals exact .inl (by simp)

/-- The decoder's counters change by DEC_BIT, pop_bit, DEC_START or a reset. -/
theorem effect_decCounters {i : Instr} {s t : State} (h : Effect s i t) :
    (t.decSymcnt = s.decSymcnt ∧ t.decBitcnt = s.decBitcnt) ∨
    (i = .decBit ∧ s.phase = .dec) ∨ i = .popBit ∨
    (i = .decStart ∧ t.decSymcnt = 0 ∧ t.decBitcnt = 0) ∨ resets i = true := by
  cases h
  case decBit hp _ => exact .inr (.inl ⟨rfl, hp⟩)
  case popBit => exact .inr (.inr (.inl rfl))
  case decStart => exact .inr (.inr (.inr (.inl ⟨rfl, rfl, rfl⟩)))
  case reset hi => exact .inr (.inr (.inr (.inr hi)))
  all_goals exact .inl (by simp)

/-- Settles O34: by the two lemmas on the counters, each instruction by its spellings. -/
theorem countersChangeOnlyInTheirPass : Obligations.CountersChangeOnlyInTheirPass := by
  unfold Obligations.CountersChangeOnlyInTheirPass
  intro i s t h hr
  have heff := exec_effect h
  have hreset : resets (canon i) ≠ true := fun hc => ne_true_of_eq_false hr (resets_of_canon hc)
  constructor
  · intro hne
    obtain ⟨hsym, hbit⟩ | ⟨⟨c, hi⟩, hp⟩ | ⟨b, hi⟩ | ⟨hi, hzero⟩ | hc := effect_encCounters heff
    · exact absurd hne (by simp [hsym, hbit])
    · exact .inl ⟨c, eq_of_canon_not_port hi rfl, hp⟩
    · exact .inr (.inl ⟨b, eq_of_canon_not_port hi rfl⟩)
    · exact .inr (.inr ⟨spelling_mem_of_canon (v := 3) hi (by decide), hzero⟩)
    · exact absurd hc hreset
  · intro hne
    obtain ⟨hsym, hbit⟩ | ⟨hi, hp⟩ | hi | ⟨hi, hzero⟩ | hc := effect_decCounters heff
    · exact absurd hne (by simp [hsym, hbit])
    · exact .inl ⟨eq_of_canon_not_port hi rfl, hp⟩
    · exact .inr (.inl (eq_of_canon_not_port hi rfl))
    · exact .inr (.inr ⟨spelling_mem_of_canon (v := 4) hi (by decide), hzero⟩)
    · exact absurd hc hreset

/-! ### What every step keeps -/

/-- A predicate is kept by every step if it does not speak of the environment's own fields and every
effect of a step keeps it. -/
theorem step_keeps {P : State → Prop}
    (henv : ∀ s sc r si bi, P s → P { s with script := sc, rst := r, symIn := si, byteIn := bi })
    (heff : ∀ i s t, Effect s i t → isProcedure i = false → P s → P t)
    {s t : State} (h : step s = .next t) (hs : P s) : P t := by
  obtain ⟨sc, r, ⟨i, hi, he⟩ | ⟨b, rfl⟩ | ⟨b, rfl⟩ | rfl⟩ := step_cases h
  · exact heff i _ t he hi (henv s sc r s.symIn s.byteIn hs)
  · exact henv s sc r (s.symIn ++ [b]) s.byteIn hs
  · exact henv s sc r s.symIn (s.byteIn ++ [b]) hs
  · exact henv s sc r s.symIn s.byteIn hs

/-- An effect of a step keeps the datapath well formed. -/
theorem effect_keeps_datapathOk {i : Instr} {s t : State} (h : Effect s i t)
    (hi : isProcedure i = false) (hs : s.datapathOk) : t.datapathOk := by
  obtain ⟨hacc, hrem, henc, hdec, hbyte, hsym⟩ := hs
  obtain ⟨x, hx, hxd⟩ := effect_byteOut h
  obtain ⟨y, hy, hyd⟩ := effect_symOut h
  refine ⟨?acc, ?rem, ?enc, ?dec, ?byteOut, ?symOut⟩
  case acc =>
    obtain ⟨ha, hn, -⟩ | ⟨ha, -⟩ | ⟨-, w, u, hua, hun, ha, hn⟩ := effect_packer h hi
    · rw [ha, hn]; exact hacc
    · rw [ha]; intro k _; exact BitVec.getLsbD_zero
    · rw [ha, hn]; exact pushBits_acc w u (by rw [hua, hun]; exact hacc)
  case rem =>
    obtain ⟨-, hr, -⟩ | ⟨-, hr, -⟩ | ⟨-, hr⟩ := effect_unpacker h hi
    · rw [hr]; exact hrem
    · rw [hr]; decide
    · exact hr hrem
  case enc =>
    intro hp
    obtain ⟨ha, hn, hph⟩ | hzero | ⟨hph, -⟩ := effect_packer h hi
    · rw [ha, hn]; exact henc (hph hp)
    · exact hzero
    · exact absurd hph hp
  case dec =>
    intro hp
    obtain ⟨hs, hr, he, hph⟩ | hzero | ⟨hph, -⟩ := effect_unpacker h hi
    · rw [hs, hr, he]; exact hdec (hph hp)
    · exact hzero
    · exact absurd hph hp
  case byteOut =>
    rw [hx]
    intro b hb
    rcases List.mem_append.1 hb with hb | hb
    · exact hbyte b hb
    · exact hxd hacc b hb
  case symOut =>
    rw [hy]
    intro b hb
    rcases List.mem_append.1 hb with hb | hb
    · exact hsym b hb
    · exact hyd b hb

/-- Settles O57: part by part, as the effects write the packer, the unpacker and the traces. -/
theorem stepKeepsDatapathWellFormed : Obligations.StepKeepsDatapathWellFormed := by
  unfold Obligations.StepKeepsDatapathWellFormed
  exact fun s t h hs => step_keeps (P := State.datapathOk) (fun _ _ _ _ _ h => h)
    (fun _ _ _ => effect_keeps_datapathOk) h hs

/-- An effect keeps the error record consistent and DONE 0 while a phase runs. -/
theorem effect_keeps_recordOk {i : Instr} {s t : State} (h : Effect s i t) (hs : s.recordOk) :
    t.recordOk := by
  obtain ⟨hnone, hcode, hdone⟩ := hs
  have hzero : (0 : BitVec 8) ∉ recordedCodes := by decide
  have hrec : (t.errCode = 0 → t.errInfo = 0 ∧ t.errMulti = false) ∧
      (t.errCode ≠ 0 → t.errCode ∈ recordedCodes) := by
    by_cases he : s.errCode = 0
    · obtain ⟨h0, ⟨hinfo, hmulti⟩ | hclear⟩ | hmem := effect_firstError h he
      · exact ⟨fun _ => by rw [hinfo, hmulti]; exact hnone he, fun hne => absurd h0 hne⟩
      · exact ⟨fun _ => hclear, fun hne => absurd h0 hne⟩
      · exact ⟨fun h0 => absurd (h0 ▸ hmem) hzero, fun _ => hmem⟩
    · obtain ⟨hc, -, -⟩ | ⟨-, h0, hclear⟩ := effect_laterError h he
      · rw [hc]
        exact ⟨fun h0 => absurd h0 he, hcode⟩
      · exact ⟨fun _ => hclear, fun hne => absurd h0 hne⟩
  refine ⟨hrec.1, hrec.2, fun hp => ?_⟩
  obtain hidle | hd | ⟨hph, hd⟩ := effect_done h
  · exact absurd hidle hp
  · exact hd
  · rw [hd]
    exact hdone (hph ▸ hp)

/-- Settles O58: the record is kept, written with a code of the table or cleared, and DONE is set
only where a phase ends. -/
theorem stepKeepsErrorRecord : Obligations.StepKeepsErrorRecord := by
  unfold Obligations.StepKeepsErrorRecord
  exact fun s t h hs => step_keeps (P := State.recordOk) (fun _ _ _ _ _ h => h)
    (fun _ _ _ h _ => effect_keeps_recordOk h) h hs

/-- An effect keeps flags, table and tree coherent: they are left together, cleared together, or
committed by the very walk `coherent` speaks of. -/
theorem effect_keeps_coherent {i : Instr} {s t : State} (h : Effect s i t) (hs : s.coherent) :
    t.coherent := by
  obtain ⟨hflags, hclear, hset, hgen, hpass⟩ := hs
  obtain ⟨hsame, hph⟩ | ⟨hinv, hph, -⟩ | ⟨g, -, hp, hv, rfl⟩ := effect_tree h
  · unfold State.coherent State.nodeAt
    rw [hsame.root, hsame.node, hsame.nvalid, hsame.table, hsame.nleaf, hsame.treeValid,
      hsame.tableValid, hsame.rootLeaf]
    refine ⟨hflags, hclear, hset, fun hg => ?_, fun hed => ?_⟩
    · obtain hph | hph | ⟨hph, -⟩ | ⟨hph, -⟩ := hph
      · exact hgen (hph ▸ hg)
      all_goals exact absurd (hph.symm.trans hg) (by decide)
    · obtain hph | hph | ⟨-, hv⟩ | ⟨-, hv⟩ := hph
      · exact hpass (hph ▸ hed)
      · rw [hph] at hed
        exact absurd hed (by decide)
      · exact hflags ▸ hv
      · exact hv
  · refine ⟨hinv.tableValid.trans hinv.treeValid.symm,
      fun _ => ⟨hinv.table, hinv.nleaf, hinv.rootLeaf⟩,
      fun hv => absurd hv (ne_true_of_eq_false hinv.treeValid), fun _ => hinv.treeValid,
      fun hed => ?_⟩
    obtain hph | hph := hph <;> rw [hph] at hed <;> exact absurd hed (by decide)
  · have htable : s.table = [] := (hclear (hgen hp)).1
    refine ⟨rfl, nofun, fun _ => ⟨g, ?_, rfl, rfl, rfl⟩, nofun, fun _ => rfl⟩
    rw [← htable]
    exact hv

/-- Settles O59: by `effect_keeps_coherent`. -/
theorem stepKeepsTableCoherent : Obligations.StepKeepsTableCoherent := by
  unfold Obligations.StepKeepsTableCoherent
  exact fun s t h hs => step_keeps (P := State.coherent) (fun _ _ _ _ _ h => h)
    (fun _ _ _ h _ => effect_keeps_coherent h) h hs

/-! ### The decoder's pointer -/

/-- What is reachable depends on ROOT and the tree store alone. -/
theorem Reachable.congr {s t : State} (hroot : t.root = s.root) (hnode : t.node = s.node)
    {n : NodeIndex} (h : Reachable s n) : Reachable t n := by
  have hat : ∀ m, t.nodeAt m = s.nodeAt m := fun m => by rw [State.nodeAt, hnode]; rfl
  induction h with
  | root => exact hroot ▸ Reachable.root
  | child n b _ hl ih =>
    rw [← hat n] at hl ⊢
    exact ih.child n b hl

/-- The pointer's invariant depends on ROOT, the tree store, CUR and the phase alone. -/
theorem pointerOk_congr {s t : State} (hroot : t.root = s.root) (hnode : t.node = s.node)
    (hcur : t.cur = s.cur) (hp : t.phase = s.phase) (h : s.pointerOk) : t.pointerOk := by
  have hat : ∀ m, t.nodeAt m = s.nodeAt m := fun m => by rw [State.nodeAt, hnode]; rfl
  unfold State.pointerOk
  simp only [hat, hroot, hcur, hp]
  intro hdec
  obtain ⟨hcur, hinternal⟩ := h hdec
  exact ⟨hcur.imp_right fun ⟨hr, hl⟩ => ⟨hr.congr hroot hnode, hl⟩, hinternal⟩

/-- A pointer at ROOT is a good one. -/
theorem pointerOk_of_root {t : State} (h : t.cur = t.root) : t.pointerOk :=
  fun _ => ⟨.inl h, fun hl => h ▸ hl⟩

/-- After an effect that leaves a decoding pass running CUR is where it was, at ROOT, or where
DEC_BIT brings it. -/
theorem effect_cur {i : Instr} {s t : State} (h : Effect s i t) :
    t.phase ≠ .dec ∨ t.cur = t.root ∨ (t.cur = s.cur ∧ t.phase = s.phase) ∨
    (t = decodeBit s ∧ s.phase = .dec) := by
  cases h
  case decBit hp _ => exact .inr (.inr (.inr ⟨rfl, hp⟩))
  case decStart => exact .inr (.inl rfl)
  all_goals simp

/-- DEC_BIT moves CUR to ROOT or one edge down, to an internal node. -/
theorem decodeBit_keeps_pointerOk {s : State} (hp : s.phase = .dec) (hs : s.pointerOk) :
    (decodeBit s).pointerOk := by
  cases hroot : nodeLeaf (s.nodeAt s.root)
  case true => exact pointerOk_of_root (by rw [decodeBit_rootLeaf hroot]; rfl)
  case false =>
    cases hl : nodeLeaf (s.nodeAt (nodeChild (s.nodeAt s.cur) (popBit s).1))
    case true => exact pointerOk_of_root (by rw [decodeBit_leaf hroot hl]; rfl)
    case false =>
      obtain ⟨hcur, hinternal⟩ := hs hp
      have hreach : Reachable s s.cur := hcur.elim (fun e => e ▸ Reachable.root) And.left
      have hchild := hreach.child s.cur (popBit s).1 (hinternal hroot)
      rw [decodeBit_internal hroot hl]
      refine fun _ => ⟨.inr ⟨Reachable.congr (s := s) ?_ ?_ hchild, hl⟩, fun _ => hl⟩ <;> rfl

/-- An effect keeps the decoder's pointer. -/
theorem effect_keeps_pointerOk {i : Instr} {s t : State} (h : Effect s i t) (hs : s.pointerOk) :
    t.pointerOk := by
  obtain hp | hroot | ⟨hcur, hp⟩ | ⟨rfl, hp⟩ := effect_cur h
  · exact fun hdec => absurd hdec hp
  · exact pointerOk_of_root hroot
  · obtain ⟨hsame, -⟩ | ⟨-, hend, -⟩ | ⟨g, -, -, -, rfl⟩ := effect_tree h
    · exact pointerOk_congr hsame.root hsame.node hcur hp hs
    · intro hdec
      rw [hdec] at hend
      exact absurd hend (by decide)
    · exact nofun
  · exact decodeBit_keeps_pointerOk hp hs

/-- Settles O60: by `effect_keeps_pointerOk`. -/
theorem stepKeepsDecoderPointer : Obligations.StepKeepsDecoderPointer := by
  unfold Obligations.StepKeepsDecoderPointer
  exact fun s t h _ hs => step_keeps (P := State.pointerOk)
    (fun s _ _ _ _ hs => pointerOk_congr (s := s) rfl rfl rfl rfl hs)
    (fun _ _ _ h _ => effect_keeps_pointerOk h) h hs

end Sys2Proof.Machine
end

section
/-! SUPPORT. What the traversal `visit` accepts and what it then records: exactly the shapes that
lie in the tree store, with new nodes, new symbols and enough room (41_table_generator.md R101,
R105). -/

namespace Sys2Proof.Machine

/-! ### Shapes -/

/-- The symbols of its leaves, left to right. -/
def Shape.symbols : Shape → List Symbol
  | .leaf _ c => [c]
  | .node _ l r => l.symbols ++ r.symbols

theorem Shape.leaves_symbols (T : Shape) (p : Code) : (T.leaves p).map Prod.fst = T.symbols := by
  induction T generalizing p with
  | leaf n c => rfl
  | node n l r ihl ihr => simp [Shape.leaves, Shape.symbols, ihl, ihr]

/-- The paths to the leaves of a shape start with the path to the shape. -/
theorem Shape.leaves_eq_map (T : Shape) (p : Code) :
    T.leaves p = (T.leaves []).map fun x => (x.1, p ++ x.2) := by
  induction T generalizing p with
  | leaf n c => simp [Shape.leaves]
  | node n l r ihl ihr =>
    rw [Shape.leaves, Shape.leaves, ihl (p ++ [false]), ihr (p ++ [true]), ihl ([] ++ [false]),
      ihr ([] ++ [true])]
    simp [Function.comp_def]

/-- The leaves of an internal node, by the side they lie on. -/
theorem Shape.mem_leaves_node {n : NodeIndex} {l r : Shape} {x : Symbol × Code} :
    x ∈ (Shape.node n l r).leaves [] ↔
      ∃ b, ∃ y ∈ (if b then r else l).leaves [], x = (y.1, b :: y.2) := by
  rw [Shape.leaves, Shape.leaves_eq_map l, Shape.leaves_eq_map r]
  simp [eq_comm]

theorem Shape.leaves_length_pos (T : Shape) (p : Code) : 0 < (T.leaves p).length := by
  induction T generalizing p with
  | leaf n c => exact Nat.one_pos
  | node n l r ihl _ =>
    rw [Shape.leaves, List.length_append]
    exact Nat.add_pos_left (ihl _) _

/-- No leaf is deeper than the shape is high. -/
theorem Shape.path_length_le {T : Shape} {p : Code} {x : Symbol × Code} (h : x ∈ T.leaves p) :
    x.2.length ≤ p.length + T.height := by
  induction T generalizing p with
  | leaf n c =>
    obtain rfl := List.mem_singleton.1 h
    exact Nat.le_add_right _ _
  | node n l r ihl ihr =>
    rw [Shape.height]
    rcases List.mem_append.1 h with h | h
    · have := ihl h
      rw [List.length_append, List.length_singleton] at this
      omega
    · have := ihr h
      rw [List.length_append, List.length_singleton] at this
      omega

/-- No path to a leaf is a beginning of the path to another. -/
theorem Shape.leaf_eq_of_path_isPrefix {T : Shape} {x y : Symbol × Code} (hx : x ∈ T.leaves [])
    (hy : y ∈ T.leaves []) (h : x.2 <+: y.2) : x = y := by
  induction T generalizing x y with
  | leaf n c => rw [List.mem_singleton.1 hx, List.mem_singleton.1 hy]
  | node n l r ihl ihr =>
    obtain ⟨b, u, hu, rfl⟩ := Shape.mem_leaves_node.1 hx
    obtain ⟨d, v, hv, rfl⟩ := Shape.mem_leaves_node.1 hy
    obtain ⟨rfl, huv⟩ : b = d ∧ u.2 <+: v.2 := by simpa using h
    cases b
    · rw [ihl hu hv huv]
    · rw [ihr hu hv huv]

/-! ### Shapes in the tree store -/

section
variable {s : State}

/-- The entry a shape lies at has been written. -/
theorem Shape.fits_valid {T : Shape} {n : NodeIndex} (h : T.fits s n) : s.nvalidAt n = true := by
  cases T <;> (obtain ⟨rfl, hv, -⟩ := h; exact hv)

/-- Below an internal node lie two shapes. -/
theorem Shape.fits_child {T : Shape} {n : NodeIndex} (h : T.fits s n)
    (hl : nodeLeaf (s.nodeAt n) = false) (b : Bool) :
    ∃ U : Shape, U.fits s (nodeChild (s.nodeAt n) b) := by
  cases T with
  | leaf m c =>
    obtain ⟨rfl, -, hleaf, -⟩ := h
    rw [hl] at hleaf
    cases hleaf
  | node m l r =>
    obtain ⟨rfl, -, -, hleft, hright⟩ := h
    cases b
    · exact ⟨l, hleft⟩
    · exact ⟨r, hright⟩

/-- The path to a leaf leads there, through internal nodes. -/
theorem Shape.walk_path {T : Shape} {n : NodeIndex} {x : Symbol × Code} (h : T.fits s n)
    (hx : x ∈ T.leaves []) :
    nodeLeaf (s.nodeAt (walk s n x.2)) = true ∧ nodeSym (s.nodeAt (walk s n x.2)) = x.1 ∧
    ∀ k, k < x.2.length → nodeLeaf (s.nodeAt (walk s n (x.2.take k))) = false := by
  induction T generalizing n x with
  | leaf m c =>
    obtain ⟨rfl, -, hl, hc⟩ := h
    obtain rfl := List.mem_singleton.1 hx
    exact ⟨hl, hc, nofun⟩
  | node m l r ihl ihr =>
    obtain ⟨rfl, -, hint, hleft, hright⟩ := h
    obtain ⟨b, y, hy, rfl⟩ := Shape.mem_leaves_node.1 hx
    have hsub : nodeLeaf (s.nodeAt (walk s (nodeChild (s.nodeAt n) b) y.2)) = true ∧
        nodeSym (s.nodeAt (walk s (nodeChild (s.nodeAt n) b) y.2)) = y.1 ∧
        ∀ k, k < y.2.length →
          nodeLeaf (s.nodeAt (walk s (nodeChild (s.nodeAt n) b) (y.2.take k))) = false := by
      cases b
      · exact ihl hleft hy
      · exact ihr hright hy
    obtain ⟨hl, hc, hk⟩ := hsub
    refine ⟨hl, hc, fun k hlt => ?_⟩
    cases k with
    | zero => exact hint
    | succ k => exact hk k (Nat.lt_of_succ_lt_succ hlt)

end

/-! ### The codes recorded -/

/-- The table with the code of each leaf recorded (R101 test 4). -/
def recordCodes (xs : List (Symbol × Code)) (m : Memory Code) : Memory Code :=
  xs.foldl (fun m x => Memory.set [] m x.1.toNat (leafCode x.2)) m

theorem recordCodes_append (xs ys : List (Symbol × Code)) (m : Memory Code) :
    recordCodes (xs ++ ys) m = recordCodes ys (recordCodes xs m) :=
  List.foldl_append

theorem leafCode_ne_nil (p : Code) : leafCode p ≠ [] := by
  unfold leafCode
  split
  · exact List.cons_ne_nil _ _
  · assumption

/-- A symbol has a code after the recording if it had one or is one of the leaves'. -/
theorem recordCodes_get_eq_nil (xs : List (Symbol × Code)) (m : Memory Code) (c : Symbol) :
    Memory.get [] (recordCodes xs m) c.toNat = [] ↔
      c ∉ xs.map Prod.fst ∧ Memory.get [] m c.toNat = [] := by
  induction xs generalizing m with
  | nil => simp [recordCodes]
  | cons x xs ih =>
    have hcons : recordCodes (x :: xs) m =
        recordCodes xs (Memory.set [] m x.1.toNat (leafCode x.2)) := rfl
    rw [hcons, ih, List.map_cons, List.mem_cons, not_or]
    by_cases hc : c = x.1
    · subst hc
      simp [Memory.get_set_same_of_ne (leafCode_ne_nil x.2), leafCode_ne_nil]
    · rw [Memory.get_set_other fun e => hc (BitVec.eq_of_toNat_eq e.symm)]
      simp [hc]

/-- A symbol that is no leaf's reads as before. -/
theorem recordCodes_get_other {xs : List (Symbol × Code)} {m : Memory Code} {c : Symbol}
    (h : c ∉ xs.map Prod.fst) :
    Memory.get [] (recordCodes xs m) c.toNat = Memory.get [] m c.toNat := by
  induction xs generalizing m with
  | nil => rfl
  | cons x xs ih =>
    rw [List.map_cons, List.mem_cons, not_or] at h
    refine (ih h.2).trans (Memory.get_set_other fun e => h.1 (BitVec.eq_of_toNat_eq e.symm))

/-- A leaf's symbol reads as its code, as no other leaf has that symbol. -/
theorem recordCodes_get_mem {xs : List (Symbol × Code)} {m : Memory Code}
    (hn : (xs.map Prod.fst).Nodup) {x : Symbol × Code} (hx : x ∈ xs) :
    Memory.get [] (recordCodes xs m) x.1.toNat = leafCode x.2 := by
  induction xs generalizing m with
  | nil => cases hx
  | cons y xs ih =>
    rw [List.map_cons, List.nodup_cons] at hn
    rcases List.mem_cons.1 hx with rfl | hx
    · exact (recordCodes_get_other hn.1).trans (Memory.get_set_same_of_ne (leafCode_ne_nil x.2))
    · exact ih hn.2 hx

/-- Recording codes keeps the table canonical. -/
theorem recordCodes_wf {xs : List (Symbol × Code)} {m : Memory Code}
    (h : Memory.wf Config.nSym [] m) : Memory.wf Config.nSym [] (recordCodes xs m) := by
  induction xs generalizing m with
  | nil => exact h
  | cons x xs ih => exact ih (Memory.wf_set h x.1.isLt)

/-- Every code of the table is an old one or a leaf's. -/
theorem mem_recordCodes {xs : List (Symbol × Code)} {m : Memory Code} {e : Nat × Code}
    (h : e ∈ recordCodes xs m) : e ∈ m ∨ ∃ x ∈ xs, e.2 = leafCode x.2 := by
  induction xs generalizing m with
  | nil => exact .inl h
  | cons x xs ih =>
    rcases ih h with h | ⟨y, hy, he⟩
    · rcases Memory.mem_set h with rfl | h
      · exact .inr ⟨x, List.mem_cons_self, rfl⟩
      · exact .inl h
    · exact .inr ⟨y, List.mem_cons_of_mem x hy, he⟩

/-! ### What `visit` accepts -/

/-- The work of GEN_RUN after a shape reached by the path `p` has been walked. -/
def Shape.record (T : Shape) (p : Code) (g : GenWork) : GenWork :=
  { visited := T.nodes.reverse ++ g.visited
    table := recordCodes (T.leaves p) g.table
    nleaf := g.nleaf + BitVec.ofNat 9 (T.leaves p).length }

/-- The shape lies in the tree store from `n` on, its nodes and symbols are new to the work `g`, and
it is no higher than `room`. -/
structure Shape.Accepted (s : State) (T : Shape) (room : Nat) (n : NodeIndex) (g : GenWork) :
    Prop where
  fits : T.fits s n
  nodup : T.nodes.Nodup
  fresh : ∀ m ∈ T.nodes, m ∉ g.visited
  distinct : T.symbols.Nodup
  free : ∀ c ∈ T.symbols, Memory.get [] g.table c.toNat = []
  height : T.height ≤ room

section
variable {s : State} {n m : NodeIndex} {p : Code} {g : GenWork} {room : Nat}

/-- A leaf is recorded where the tests of R101 pass. -/
theorem Shape.accepted_leaf_iff {c : Symbol} :
    (Shape.leaf m c).Accepted s room n g ↔
      n = m ∧ s.nvalidAt m = true ∧ nodeLeaf (s.nodeAt m) = true ∧ nodeSym (s.nodeAt m) = c ∧
      m ∉ g.visited ∧ Memory.get [] g.table c.toNat = [] := by
  constructor
  · rintro ⟨⟨hn, hv, hl, hc⟩, -, hfresh, -, hfree, -⟩
    exact ⟨hn, hv, hl, hc, by simpa [Shape.nodes] using hfresh,
      by simpa [Shape.symbols] using hfree⟩
  · rintro ⟨hn, hv, hl, hc, hfresh, hfree⟩
    exact ⟨⟨hn, hv, hl, hc⟩, by simp [Shape.nodes], by simpa [Shape.nodes] using hfresh,
      by simp [Shape.symbols], by simpa [Shape.symbols] using hfree, Nat.zero_le _⟩

/-- An internal node's shape is accepted where the tests of R101 pass and its two sides are, the
right one by the work the left one leaves. -/
theorem Shape.accepted_node_iff {l r : Shape} :
    (Shape.node m l r).Accepted s (room + 1) n g ↔
      n = m ∧ s.nvalidAt m = true ∧ nodeLeaf (s.nodeAt m) = false ∧ m ∉ g.visited ∧
      l.Accepted s room (nodeLeft (s.nodeAt m)) { g with visited := m :: g.visited } ∧
      r.Accepted s room (nodeRight (s.nodeAt m))
        (l.record p { g with visited := m :: g.visited }) := by
  constructor
  · rintro ⟨⟨hn, hv, hl, hfl, hfr⟩, hnodup, hfresh, hdist, hfree, hheight⟩
    simp only [Shape.nodes, List.nodup_cons, List.nodup_append, List.mem_append, List.mem_cons,
      not_or] at hnodup hfresh
    simp only [Shape.symbols, List.nodup_append, List.mem_append] at hdist hfree
    rw [Shape.height] at hheight
    obtain ⟨⟨hml, hmr⟩, hnl, hnr, hdisj⟩ := hnodup
    obtain ⟨hdl, hdr, hds⟩ := hdist
    refine ⟨hn, hv, hl, hfresh m (.inl rfl), ⟨hfl, hnl, ?_, hdl, fun c hc => hfree c (.inl hc),
      by omega⟩, ⟨hfr, hnr, ?_, hdr, ?_, by omega⟩⟩
    · intro k hk
      rw [List.mem_cons, not_or]
      exact ⟨fun e => hml (e ▸ hk), hfresh k (.inr (.inl hk))⟩
    · intro k hk
      simp only [Shape.record, List.mem_append, List.mem_reverse, List.mem_cons, not_or]
      exact ⟨fun hk' => hdisj k hk' k hk rfl, fun e => hmr (e ▸ hk), hfresh k (.inr (.inr hk))⟩
    · intro c hc
      refine (recordCodes_get_eq_nil _ _ c).2 ⟨?_, hfree c (.inr hc)⟩
      rw [Shape.leaves_symbols]
      exact fun hc' => hds c hc' c hc rfl
  · rintro ⟨hn, hv, hl, hm, hleft, hright⟩
    have hfresh := hright.fresh
    have hfree := hright.free
    simp only [Shape.record, List.mem_append, List.mem_reverse, List.mem_cons, not_or] at hfresh
    simp only [Shape.record, recordCodes_get_eq_nil, Shape.leaves_symbols] at hfree
    have hfreshl := hleft.fresh
    simp only [List.mem_cons, not_or] at hfreshl
    refine ⟨⟨hn, hv, hl, hleft.fits, hright.fits⟩, ?_, ?_, ?_, ?_, ?_⟩
    · simp only [Shape.nodes, List.nodup_cons, List.nodup_append, List.mem_append, not_or]
      refine ⟨⟨fun h => (hfreshl m h).1 rfl, fun h => (hfresh m h).2.1 rfl⟩, hleft.nodup,
        hright.nodup, ?_⟩
      rintro a ha b hb rfl
      exact (hfresh a hb).1 ha
    · simp only [Shape.nodes, List.mem_cons, List.mem_append]
      rintro k (rfl | hk | hk)
      · exact hm
      · exact (hfreshl k hk).2
      · exact (hfresh k hk).2.2
    · simp only [Shape.symbols, List.nodup_append]
      refine ⟨hleft.distinct, hright.distinct, ?_⟩
      rintro a ha b hb rfl
      exact (hfree a hb).1 ha
    · simp only [Shape.symbols, List.mem_append]
      rintro c (hc | hc)
      · exact hleft.free c hc
      · exact (hfree c hc).2
    · have := hleft.height
      have := hright.height
      rw [Shape.height]
      omega

/-- Walking an internal node is walking its two sides after marking it. -/
theorem Shape.record_node (l r : Shape) :
    (Shape.node m l r).record p g =
      r.record (p ++ [true]) (l.record (p ++ [false]) { g with visited := m :: g.visited }) := by
  simp only [Shape.record, Shape.nodes, Shape.leaves, recordCodes_append, List.length_append,
    BitVec.ofNat_add, GenWork.mk.injEq, true_and]
  constructor
  · simp
  · ac_rfl

/-- An accepted shape is walked to its end. -/
theorem visit_of_accepted {T : Shape} (h : T.Accepted s room n g) :
    visit s.node s.nvalid room n p g = .ok (T.record p g) := by
  induction T generalizing room n p g with
  | leaf m c =>
    obtain ⟨rfl, hv, hl, rfl, hm, hfree⟩ := Shape.accepted_leaf_iff.1 h
    exact (visit_leaf hv hm hl).trans (visitLeaf_new hfree)
  | node m l r ihl ihr =>
    cases room with
    | zero => exact absurd h.height (Nat.not_succ_le_zero _)
    | succ room =>
      obtain ⟨rfl, hv, hl, hm, hleft, hright⟩ := (Shape.accepted_node_iff (p := p ++ [false])).1 h
      rw [Shape.record_node]
      refine (visit_children hv hm hl).trans ?_
      rw [show visit s.node s.nvalid room (nodeLeft (Memory.get 0 s.node n.toNat)) (p ++ [false])
        { g with visited := n :: g.visited } = .ok _ from ihl hleft]
      exact ihr hright

/-- A walk that comes to its end has walked an accepted shape. -/
theorem accepted_of_visit {g' : GenWork} (h : visit s.node s.nvalid room n p g = .ok g') :
    ∃ T : Shape, T.Accepted s room n g ∧ g' = T.record p g := by
  fun_induction visit s.node s.nvalid room n p g generalizing g'
  case case1 | case2 | case4 | case5 => cases h
  case case3 room n p g hv hm w g1 hl =>
    unfold visitLeaf at h
    split at h
    case isTrue => cases h
    case isFalse hfree =>
      cases h
      exact ⟨.leaf n (nodeSym w), Shape.accepted_leaf_iff.2
        ⟨rfl, (Bool.not_eq_false _).mp hv, hl, rfl, hm, not_not.1 hfree⟩, rfl⟩
  case case6 n p g hv hm w g1 hl room g2 hleft ihl ihr =>
    obtain ⟨L, hL, rfl⟩ := ihl hleft
    obtain ⟨R, hR, rfl⟩ := ihr h
    exact ⟨.node n L R, Shape.accepted_node_iff.2
      ⟨rfl, (Bool.not_eq_false _).mp hv, (Bool.not_eq_true _).mp hl, hm, hL, hR⟩,
      (Shape.record_node L R).symm⟩

end

/-- From ROOT with no work done the accepted shapes are the strict trees (R105 item 3). -/
theorem accepted_iff_strictTree {s : State} {T : Shape} :
    T.Accepted s 255 s.root { visited := [], table := [], nleaf := 0 } ↔ StrictTree s T := by
  unfold StrictTree
  rw [Shape.leaves_symbols]
  constructor
  · rintro ⟨hfits, hnodup, -, hdist, -, hheight⟩
    exact ⟨hfits, hnodup, hdist, hheight⟩
  · rintro ⟨hfits, hnodup, hdist, hheight⟩
    exact ⟨hfits, hnodup, fun _ _ => List.not_mem_nil, hdist, fun _ _ => rfl, hheight⟩

end Sys2Proof.Machine
end

section
/-! SUPPORT. GEN_RUN and the code table in terms of the strict tree they stand for
(41_table_generator.md R105; 10_state.md R17). -/

namespace Sys2Proof.Machine

/-! ### GEN_RUN -/

section
variable {s : State}

/-- GEN_RUN over a strict tree commits the codes of its leaves. -/
theorem visitRoot_of_strictTree {T : Shape} (ht : s.table = []) (hT : StrictTree s T) :
    visitRoot s = .ok (T.record [] { visited := [], table := [], nleaf := 0 }) := by
  rw [visitRoot, ht]
  exact visit_of_accepted (accepted_iff_strictTree.2 hT)

/-- Only over a strict tree GEN_RUN succeeds. -/
theorem strictTree_of_visitRoot {g : GenWork} (ht : s.table = []) (h : visitRoot s = .ok g) :
    ∃ T, StrictTree s T := by
  rw [visitRoot, ht] at h
  obtain ⟨T, hT, -⟩ := accepted_of_visit h
  exact ⟨T, accepted_iff_strictTree.1 hT⟩

end

/-- Settles O37: GEN_RUN sets TREE_VALID where its walk succeeds, and that is over a strict tree. -/
theorem genRunAcceptsExactlyStrictTrees : Obligations.GenRunAcceptsExactlyStrictTrees := by
  unfold Obligations.GenRunAcceptsExactlyStrictTrees
  intro s hp ht
  refine ⟨genRun s, exec_genRun hp, ?_⟩
  cases h : visitRoot s with
  | ok g =>
    rw [genRun_ok h]
    exact ⟨fun _ => strictTree_of_visitRoot ht h, fun _ => rfl⟩
  | error e =>
    rw [genRun_error h]
    refine ⟨nofun, fun ⟨T, hT⟩ => ?_⟩
    cases h.symm.trans (visitRoot_of_strictTree ht hT)

/-- There are 256 symbols. -/
theorem symbols_length_le {w : List Symbol} (h : w.Nodup) : w.length ≤ 256 := by
  have hmap : (w.map BitVec.toNat).Nodup := h.map fun _ _ => BitVec.eq_of_toNat_eq
  have hsub : w.map BitVec.toNat ⊆ List.range 256 := by
    intro k hk
    obtain ⟨c, -, rfl⟩ := List.mem_map.1 hk
    exact List.mem_range.2 c.isLt
  simpa using (hmap.subperm hsub).length_le

/-- A shape has one leaf exactly when it is one. -/
theorem Shape.leaves_length_eq_one_iff {s : State} {T : Shape} {n : NodeIndex} (h : T.fits s n) :
    nodeLeaf (s.nodeAt n) = true ↔ (T.leaves []).length = 1 := by
  cases T with
  | leaf m c =>
    obtain ⟨rfl, -, hl, -⟩ := h
    exact iff_of_true hl rfl
  | node m l r =>
    obtain ⟨rfl, -, hl, -⟩ := h
    have hleft := l.leaves_length_pos ([] ++ [false])
    have hright := r.leaves_length_pos ([] ++ [true])
    refine iff_of_false (ne_true_of_eq_false hl) ?_
    rw [Shape.leaves, List.length_append]
    omega

/-- Settles O38: the commit of the walk over the tree, read entry by entry. -/
theorem genRunTableIsTheLeafPaths : Obligations.GenRunTableIsTheLeafPaths := by
  unfold Obligations.GenRunTableIsTheLeafPaths
  intro s T hp ht hT
  refine ⟨genRun s, exec_genRun hp, ?_⟩
  rw [genRun_ok (visitRoot_of_strictTree ht hT)]
  obtain ⟨hfits, -, hdist, -⟩ := hT
  refine ⟨rfl, rfl, rfl, rfl, rfl, ?nleaf, T.leaves_length_eq_one_iff hfits,
    fun x hx => recordCodes_get_mem hdist hx, fun c hc => recordCodes_get_other hc⟩
  case nleaf =>
    have hle := symbols_length_le hdist
    rw [List.length_map] at hle
    show (0#9 + BitVec.ofNat 9 (T.leaves []).length).toNat = _
    rw [BitVec.zero_add, BitVec.toNat_ofNat, Nat.mod_eq_of_lt (by omega)]

/-! ### The table of a validated tree -/

section
variable {s : State}

/-- Behind a set TREE_VALID lies a strict tree whose leaves' codes are the table (10_state.md
R17). -/
theorem coherent_strictTree (hs : s.coherent) (hv : s.treeValid = true) :
    ∃ T, StrictTree s T ∧ s.table = recordCodes (T.leaves []) [] ∧
      s.rootLeaf = nodeLeaf (s.nodeAt s.root) := by
  obtain ⟨-, -, hset, -⟩ := hs
  obtain ⟨g, hg, htable, -, hroot⟩ := hset hv
  obtain ⟨T, hT, rfl⟩ := accepted_of_visit hg
  exact ⟨T, accepted_iff_strictTree.1 hT, htable, hroot⟩

/-- In a coherent state only a validated tree gives codes. -/
theorem coherent_treeValid {c : Symbol} (hs : s.coherent) (hc : s.codeAt c ≠ []) :
    s.treeValid = true := by
  obtain ⟨-, hclear, -⟩ := hs
  by_contra hv
  rw [State.codeAt, (hclear ((Bool.not_eq_true _).mp hv)).1] at hc
  exact hc rfl

/-- A symbol with a code is a leaf's, and the code is the leaf's. -/
theorem codeAt_leaf {T : Shape} {c : Symbol} (hT : StrictTree s T)
    (ht : s.table = recordCodes (T.leaves []) []) (hc : s.codeAt c ≠ []) :
    ∃ q, (c, q) ∈ T.leaves [] ∧ s.codeAt c = leafCode q := by
  obtain ⟨-, -, hdist, -⟩ := hT
  rw [State.codeAt, ht] at hc ⊢
  have hmem : c ∈ (T.leaves []).map Prod.fst := by
    by_contra hn
    exact hc ((recordCodes_get_eq_nil _ _ c).2 ⟨hn, rfl⟩)
  obtain ⟨x, hx, rfl⟩ := List.mem_map.1 hmem
  exact ⟨x.2, hx, recordCodes_get_mem hdist hx⟩

end

/-- Below an internal root every code is its path. -/
theorem leafCode_of_mem_node {n : NodeIndex} {l r : Shape} {x : Symbol × Code}
    (h : x ∈ (Shape.node n l r).leaves []) : leafCode x.2 = x.2 := by
  obtain ⟨b, y, -, rfl⟩ := Shape.mem_leaves_node.1 h
  exact if_neg (List.cons_ne_nil _ _)

/-- Settles O39: two symbols have two leaves, so the root is internal and the codes are paths to
different leaves. -/
theorem codesArePrefixFree : Obligations.CodesArePrefixFree := by
  unfold Obligations.CodesArePrefixFree
  intro s hs a b hab ha hb hpre
  obtain ⟨T, hT, ht, -⟩ := coherent_strictTree hs (coherent_treeValid hs ha)
  obtain ⟨x, hx, hax⟩ := codeAt_leaf hT ht ha
  obtain ⟨y, hy, hby⟩ := codeAt_leaf hT ht hb
  rw [hax, hby] at hpre
  cases T with
  | leaf n c =>
    cases List.mem_singleton.1 hx
    cases List.mem_singleton.1 hy
    exact hab rfl
  | node n l r =>
    rw [leafCode_of_mem_node hx, leafCode_of_mem_node hy] at hpre
    exact hab (congrArg Prod.fst (Shape.leaf_eq_of_path_isPrefix hx hy hpre))

/-- Where the root is internal a symbol's code leads to that symbol's leaf. -/
theorem code_walk {s : State} (hs : s.coherent) (hroot : nodeLeaf (s.nodeAt s.root) = false)
    {c : Symbol} (hc : s.codeAt c ≠ []) :
    nodeLeaf (s.nodeAt (walk s s.root (s.codeAt c))) = true ∧
    nodeSym (s.nodeAt (walk s s.root (s.codeAt c))) = c ∧
    ∀ k, k < (s.codeAt c).length →
      nodeLeaf (s.nodeAt (walk s s.root ((s.codeAt c).take k))) = false := by
  obtain ⟨T, hT, ht, -⟩ := coherent_strictTree hs (coherent_treeValid hs hc)
  obtain ⟨q, hq, hcq⟩ := codeAt_leaf hT ht hc
  obtain ⟨hfits, -⟩ := hT
  cases T with
  | leaf n d =>
    obtain ⟨hn, -, hl, -⟩ := hfits
    rw [← hn, hroot] at hl
    cases hl
  | node n l r =>
    rw [hcq, leafCode_of_mem_node hq]
    exact Shape.walk_path hfits hq

/-- Where the root is a leaf its symbol alone has a code, the one-bit code "0" (R102). -/
theorem code_rootLeaf {s : State} (hs : s.coherent) (hroot : nodeLeaf (s.nodeAt s.root) = true)
    {c : Symbol} (hc : s.codeAt c ≠ []) :
    s.codeAt c = [false] ∧ nodeSym (s.nodeAt s.root) = c := by
  obtain ⟨T, hT, ht, -⟩ := coherent_strictTree hs (coherent_treeValid hs hc)
  obtain ⟨q, hq, hcq⟩ := codeAt_leaf hT ht hc
  obtain ⟨hfits, -⟩ := hT
  cases T with
  | leaf n d =>
    obtain ⟨hn, -, -, hd⟩ := hfits
    cases List.mem_singleton.1 hq
    exact ⟨hcq, hn ▸ hd⟩
  | node n l r =>
    obtain ⟨hn, -, hl, -⟩ := hfits
    rw [← hn, hroot] at hl
    cases hl

/-- Settles O40: ROOT_LEAF says what the root is, the rest is `code_walk`. -/
theorem codeLeadsToItsLeaf : Obligations.CodeLeadsToItsLeaf := by
  unfold Obligations.CodeLeadsToItsLeaf
  intro s hs hr c hc
  obtain ⟨-, -, -, hroot⟩ := coherent_strictTree hs (coherent_treeValid hs hc)
  exact code_walk hs (hroot ▸ hr) hc

/-- Below every reachable node lies a part of the tree. -/
theorem reachable_fits {s : State} {T : Shape} (h : T.fits s s.root) {n : NodeIndex}
    (hn : Reachable s n) : ∃ U : Shape, U.fits s n := by
  induction hn with
  | root => exact ⟨T, h⟩
  | child n b _ hl ih =>
    obtain ⟨U, hU⟩ := ih
    exact U.fits_child hU hl b

/-- Settles O52: ROOT and CUR are reachable, so a part of the tree lies at each, and below an
internal one at both children. -/
theorem decBitReadsOnlyValidEntries : Obligations.DecBitReadsOnlyValidEntries := by
  unfold Obligations.DecBitReadsOnlyValidEntries
  intro s hs hptr hp
  obtain ⟨hcur, -⟩ := hptr hp
  have hreach : Reachable s s.cur := hcur.elim (fun e => e ▸ Reachable.root) And.left
  have hv : s.treeValid = true := by
    obtain ⟨-, -, -, -, hpass⟩ := hs
    exact hpass (.inr hp)
  obtain ⟨T, ⟨hfits, -⟩, -⟩ := coherent_strictTree hs hv
  obtain ⟨U, hU⟩ := reachable_fits hfits hreach
  refine ⟨T.fits_valid hfits, U.fits_valid hU, fun hl b => ?_⟩
  obtain ⟨V, hV⟩ := U.fits_child hU hl b
  exact V.fits_valid hV

/-! ### The canonical form of the arrays -/

/-- A code recorded from ROOT is no longer than the room for its path, or the one-bit code. -/
theorem leafCode_length_le {T : Shape} {x : Symbol × Code} (hx : x ∈ T.leaves [])
    (hT : T.height ≤ Config.maxLen) : (leafCode x.2).length ≤ Config.maxLen := by
  have hlen := Shape.path_length_le hx
  unfold leafCode
  split
  · decide
  · rw [List.length_nil, Nat.zero_add] at hlen
    exact hlen.trans hT

/-- A walk from ROOT keeps the table canonical, its codes of at most 255 bits. -/
theorem visitRoot_keeps_table {s : State} {g : GenWork} (h : visitRoot s = .ok g)
    (hwf : Memory.wf Config.nSym [] s.table) (hlen : ∀ e ∈ s.table, e.2.length ≤ Config.maxLen) :
    Memory.wf Config.nSym [] g.table ∧ ∀ e ∈ g.table, e.2.length ≤ Config.maxLen := by
  obtain ⟨T, hT, rfl⟩ := accepted_of_visit h
  refine ⟨recordCodes_wf hwf, fun e he => ?_⟩
  rcases mem_recordCodes he with he | ⟨x, hx, hex⟩
  · exact hlen e he
  · rw [hex]
    exact leafCode_length_le hx hT.height

/-- The canonical form depends on the three arrays alone. -/
theorem arraysOk_congr {s t : State} (hnode : t.node = s.node) (hnvalid : t.nvalid = s.nvalid)
    (ht : t.table = s.table) (h : s.arraysOk) : t.arraysOk := by
  unfold State.arraysOk
  rw [hnode, hnvalid, ht]
  exact h

/-- Arrays with an empty table are canonical if the tree store is. -/
theorem arraysOk_of_table_nil {t : State} (hnode : Memory.wf Config.nNode 0 t.node)
    (hnvalid : Memory.wf Config.nNode false t.nvalid) (ht : t.table = []) : t.arraysOk := by
  unfold State.arraysOk
  rw [ht]
  exact ⟨hnode, hnvalid, Memory.wf_nil, fun _ h => absurd h List.not_mem_nil⟩

/-- An effect keeps the arrays canonical: it leaves or empties them, writes one entry of the tree
store, or commits a walk. -/
theorem effect_keeps_arraysOk {i : Instr} {s t : State} (h : Effect s i t) (hs : s.arraysOk) :
    t.arraysOk := by
  have ⟨hnode, hnvalid, htable, hlen⟩ := hs
  cases h
  case writeNodeData v hp =>
    obtain ⟨hnode', hnvalid'⟩ := writeNode_wf s.nodeAddr (wordNode v) s ⟨hnode, hnvalid⟩
    exact arraysOk_of_table_nil hnode' hnvalid' rfl
  case genOk g hp hg =>
    obtain ⟨hwf, hlen'⟩ := visitRoot_keeps_table hg htable hlen
    exact ⟨hnode, hnvalid, hwf, hlen'⟩
  case reset =>
    obtain ⟨hnode', hnvalid', -⟩ := resetEvent_wf s
    exact arraysOk_of_table_nil hnode' hnvalid' rfl
  case treeClear => exact arraysOk_of_table_nil hnode Memory.wf_nil rfl
  case buildTable | abortGen | writeRoot | genError =>
    exact arraysOk_of_table_nil hnode hnvalid rfl
  all_goals exact arraysOk_congr (by simp) (by simp) (by simp) hs

/-- Settles O56: by `effect_keeps_arraysOk`. -/
theorem stepKeepsArraysCanonical : Obligations.StepKeepsArraysCanonical := by
  unfold Obligations.StepKeepsArraysCanonical
  exact fun s t h hs => step_keeps (P := State.arraysOk) (fun _ _ _ _ _ h => h)
    (fun _ _ _ h _ => effect_keeps_arraysOk h) h hs

end Sys2Proof.Machine
end

section
/-! SUPPORT. The packing of a bit sequence byte by byte, and the packer and the unpacker against it
(42_bitpack.md R110 to R118). -/

namespace Sys2Proof.Machine

/-! ### The packing, byte by byte (R117) -/

theorem packByte_getLsbD (x : List Bool) (base cnt i : Nat) :
    (packByte x base cnt).getLsbD i =
      (decide (i < 8) && (decide (7 - i < cnt) && x.getD (base + (7 - i)) false)) := by
  rw [packByte, wordOfBits_getLsbD]

/-- The first bits of a sequence that starts with the bits of a zero padded byte are that byte. -/
theorem packByte_byteBits {a : Byte} {n : Nat} (hn : n ≤ 8)
    (ha : ∀ i, i < 8 - n → a.getLsbD i = false) (y : List Bool) :
    packByte (byteBits a n ++ y) 0 n = a := by
  refine byte_ext _ _ fun i hi => ?_
  rw [packByte_getLsbD, decide_eq_true hi, Bool.true_and, Nat.zero_add]
  by_cases h : 7 - i < n
  · have hlen : 7 - i < (byteBits a n).length := by rwa [byteBits_length]
    have hi' : 7 - (7 - i) = i := by omega
    rw [decide_eq_true h, Bool.true_and, List.getD_append _ _ _ _ hlen,
      List.getD_eq_getElem _ _ hlen, byteBits_getElem, hi']
  · rw [decide_eq_false h, Bool.false_and, ha i (by omega)]

/-- Behind the first byte the bytes of a sequence are those of the rest. -/
theorem packByte_behind {u : List Bool} (hu : u.length = 8) (y : List Bool) (base cnt : Nat) :
    packByte (u ++ y) (8 + base) cnt = packByte y base cnt := by
  refine byte_ext _ _ fun i _ => ?_
  have hle : u.length ≤ 8 + base + (7 - i) := by omega
  rw [packByte_getLsbD, packByte_getLsbD, List.getD_append_right _ _ _ _ hle, hu]
  congr 4
  omega

/-- A sequence of less than 8 bits packs to the final beat alone. -/
theorem packing_short {a : Byte} {n : Nat} (hn : n < 8)
    (ha : ∀ i, i < 8 - n → a.getLsbD i = false) :
    packing (byteBits a n) = [{ last := true, nvalid := BitVec.ofNat 4 n, data := a }] := by
  have hpack := packByte_byteBits (Nat.le_of_lt hn) ha []
  rw [List.append_nil] at hpack
  simp only [packing, byteBits_length, Nat.div_eq_of_lt hn, Nat.mod_eq_of_lt hn, List.range_zero,
    List.map_nil, List.nil_append, Nat.mul_zero, hpack]

/-- The first 8 bits of a sequence pack to a full beat. -/
theorem packing_full (d : Byte) (y : List Bool) :
    packing (byteBits d 8 ++ y) = { last := false, nvalid := 8, data := d } :: packing y := by
  have hlen : (byteBits d 8 ++ y).length = 8 + y.length := by
    rw [List.length_append, byteBits_length]
  have hdiv : (8 + y.length) / 8 = y.length / 8 + 1 := by omega
  have hmod : (8 + y.length) % 8 = y.length % 8 := by omega
  have hmul : ∀ m, 8 * (m + 1) = 8 + 8 * m := fun m => by omega
  have hbehind := packByte_behind (byteBits_length d 8) y
  have hfirst : packByte (byteBits d 8 ++ y) (8 * 0) 8 = d :=
    packByte_byteBits (Nat.le_refl 8) nofun y
  simp only [packing, hlen, hdiv, hmod, List.range_succ_eq_map, List.map_cons, List.map_map,
    Function.comp_def, Nat.succ_eq_add_one, hmul, hbehind, List.cons_append, hfirst]

/-- Full beats and a zero padded final one are the packing of their bits. -/
theorem packing_of_beats {beats : List ByteBeat} {a : Byte} {n : Nat}
    (hfull : ∀ b ∈ beats, b.last = false ∧ b.nvalid = 8) (hn : n < 8)
    (ha : ∀ i, i < 8 - n → a.getLsbD i = false) :
    packing (beats.flatMap beatBits ++ byteBits a n) =
      beats ++ [{ last := true, nvalid := BitVec.ofNat 4 n, data := a }] := by
  induction beats with
  | nil => exact packing_short hn ha
  | cons b beats ih =>
    obtain ⟨hb, hrest⟩ := List.forall_mem_cons.1 hfull
    obtain ⟨l, v, d⟩ := b
    obtain ⟨rfl, rfl⟩ := hb
    rw [List.flatMap_cons, List.append_assoc, List.cons_append, ← ih hrest]
    exact packing_full d _

/-- The bits of at most 8 are those of their byte. -/
theorem byteBits_packByte {x : List Bool} (hx : x.length ≤ 8) :
    byteBits (packByte x 0 x.length) x.length = x := by
  refine List.ext_getElem (byteBits_length _ _) fun i h _ => ?_
  rw [byteBits_length] at h
  have hi : 7 - (7 - i) = i := by omega
  rw [byteBits_getElem, packByte_getLsbD, hi, Nat.zero_add, decide_eq_true (by omega),
    decide_eq_true h, Bool.true_and, Bool.true_and, List.getD_eq_getElem]

/-- Below its bits the byte of a sequence is zero. -/
theorem packByte_padding (x : List Bool) (base cnt i : Nat) (h : i < 8 - cnt) :
    (packByte x base cnt).getLsbD i = false := by
  have hcnt : ¬ 7 - i < cnt := by omega
  rw [packByte_getLsbD, decide_eq_false hcnt, Bool.false_and, Bool.and_false]

/-- A packing is the final beat with less than 8 bits, or a full beat and a packing. -/
theorem packing_cases (z : List Bool) :
    (∃ a n, n < 8 ∧ z = byteBits a n ∧
      packing z = [{ last := true, nvalid := BitVec.ofNat 4 n, data := a }]) ∨
    (∃ a y, z = byteBits a 8 ++ y ∧
      packing z = { last := false, nvalid := 8, data := a } :: packing y) := by
  by_cases hz : z.length < 8
  · have hbits := byteBits_packByte (Nat.le_of_lt hz)
    have hpack := packing_short hz (packByte_padding z 0 z.length)
    rw [hbits] at hpack
    exact .inl ⟨_, _, hz, hbits.symm, hpack⟩
  · have htake : (z.take 8).length = 8 := by
      rw [List.length_take]
      omega
    have hbits := byteBits_packByte (Nat.le_of_eq htake)
    rw [htake] at hbits
    have hz' : z = byteBits (packByte (z.take 8) 0 8) 8 ++ z.drop 8 := by
      rw [hbits, List.take_append_drop]
    exact .inr ⟨_, _, hz', (congrArg packing hz').trans (packing_full _ _)⟩

/-- The number of bits of a final beat back from its field. -/
theorem toNat_nvalid_of_lt {n : Nat} (hn : n < 8) : (BitVec.ofNat 4 n).toNat = n := by
  rw [BitVec.toNat_ofNat, Nat.mod_eq_of_lt (by omega)]

/-- The bits of the beats of a packing are the sequence packed (R118). -/
theorem packing_beatBits (x : List Bool) : (packing x).flatMap beatBits = x := by
  induction hlen : x.length using Nat.strong_induction_on generalizing x with
  | _ k ih =>
    obtain ⟨a, n, hn, rfl, hpack⟩ | ⟨a, y, rfl, hpack⟩ := packing_cases x
    · rw [hpack, List.flatMap_singleton]
      simp only [beatBits, beatCount, if_true, toNat_nvalid_of_lt hn]
    · rw [List.length_append, byteBits_length] at hlen
      rw [hpack, List.flatMap_cons, ih y.length (by omega) y rfl]
      rfl

/-! ### The packer's law (42_bitpack.md section 1) -/

/-- What bits pushed between `pack_reset` and `pack_close` do to the whole state. -/
theorem packClose_pushBits_packReset (x : List Bool) (s : State) :
    packClose (pushBits x (packReset s)) =
      { s with acc := 0, nb := 0, encBitcnt := s.encBitcnt + BitVec.ofNat 32 x.length,
               byteOut := s.byteOut ++ packing x } := by
  obtain ⟨beats, hframe, hfull, hbits⟩ := pushBits_pushed x (packReset s)
  have hacc := pushBits_acc x (packReset s) fun _ _ => BitVec.getLsbD_zero
  generalize pushBits x (packReset s) = u at hframe hbits hacc
  have hpack := packing_of_beats hfull u.nb.isLt hacc
  rw [hbits] at hpack
  have hx : byteBits (packReset s).acc (packReset s).nb.toNat ++ x = x := rfl
  have hnb : u.nb.setWidth 4 = BitVec.ofNat 4 u.nb.toNat := by bv_omega
  rw [hx] at hpack
  rw [packClose, hnb, hframe, hpack]
  simp [packReset, emitByte]

/-- Settles O43: by `packClose_pushBits_packReset`. -/
theorem packerEmitsThePacking : Obligations.PackerEmitsThePacking := by
  unfold Obligations.PackerEmitsThePacking
  intro x s
  rw [packClose_pushBits_packReset]
  exact ⟨rfl, rfl⟩

/-! ### The unpacker's law (42_bitpack.md section 2) -/

/-- The first bit of a byte, then those of the byte shifted. -/
theorem byteBits_shift (x : Byte) {k : Nat} (h : k < 8) :
    byteBits x (k + 1) = x.getLsbD 7 :: byteBits (x <<< 1) k := by
  rw [byteBits, List.range_succ_eq_map, List.map_cons, List.map_map]
  refine congrArg (List.cons _) (List.map_congr_left fun j hj => ?_)
  have hj := List.mem_range.1 hj
  have h7 : 7 - j - 1 = 7 - (j + 1) := by omega
  have h0 : ¬ 7 - j < 1 := by omega
  rw [Function.comp_apply, BitVec.getLsbD_shiftLeft, decide_eq_true (by omega), decide_eq_false h0,
    h7]
  rfl

/-- Popping bits that are there gives the oldest ones of SHR. -/
theorem popBits_spec {k : Nat} {s : State} (h : k ≤ s.rem.toNat) (h8 : s.rem.toNat ≤ 8) :
    (popBits k s).1 = byteBits s.shr k ∧ (popBits k s).2.rem.toNat = s.rem.toNat - k ∧
    (popBits k s).2.endseen = s.endseen := by
  induction k generalizing s with
  | zero => exact ⟨rfl, rfl, rfl⟩
  | succ k ih =>
    have hr : s.rem ≠ 0 := fun h0 => by simp [h0] at h
    obtain ⟨-, hrem, hshr, -⟩ := popBit_spec s hr
    obtain ⟨hbits, hleft, hend⟩ := ih (s := (popBit s).2) (by omega) (by omega)
    refine ⟨?_, hleft.trans (by omega), hend⟩
    rw [byteBits_shift s.shr (by omega), ← hshr, ← hbits]
    rfl

/-- Settles O44: a loaded beat sets SHR, REM and ENDSEEN, whose bits the pops return; the bits of a
packing are `packing_beatBits`. -/
theorem unpackerReturnsThePackedBits : Obligations.UnpackerReturnsThePackedBits := by
  unfold Obligations.UnpackerReturnsThePackedBits
  refine ⟨fun b s _ he hb => ⟨(unpackLoad_ok b s).2 hb, ?_⟩, packing_beatBits⟩
  have hload : (unpackLoad b s).2.shr = b.data ∧ (unpackLoad b s).2.rem.toNat = beatCount b ∧
      (unpackLoad b s).2.endseen = b.last ∧ beatCount b ≤ 8 := by
    unfold beatCount
    cases hl : b.last
    case false =>
      rw [unpackLoad_full s hl]
      exact ⟨rfl, rfl, he, Nat.le_refl 8⟩
    case true =>
      rw [unpackLoad_final s hl (hb hl)]
      exact ⟨rfl, rfl, rfl, hb hl⟩
  obtain ⟨hshr, hrem, hend, hle⟩ := hload
  obtain ⟨hbits, hleft, hend'⟩ := popBits_spec (Nat.le_of_eq hrem.symm) (hrem.trans_le hle)
  refine ⟨?_, ?_, hend'.trans hend⟩
  · rw [hbits, hshr, beatBits]
  · refine BitVec.eq_of_toNat_eq (hleft.trans ?_)
    rw [hrem, Nat.sub_self]
    rfl

end Sys2Proof.Machine
end

section
/-! SUPPORT. What a step runs, move by move, and where it stops (70_reset_and_hazards.md R170, R176
to R179; log 1, 2, 5). -/

namespace Sys2Proof.Machine

open Host (Outcome)

section
variable {s : State} {m : Move} {rest : List Move} {i : Instr}

theorem step_cons (hs : s.script = m :: rest) : step s = runMove m { s with script := rest } := by
  simp only [step, agentStep, hs]

theorem step_nil (hs : s.script = []) : step s = runIdle s := by
  simp only [step, agentStep, hs]

theorem enabledInstr_low (hr : s.rst = false) : enabledInstr s = engineInstr s :=
  if_neg (ne_true_of_eq_false hr)

theorem enabledInstr_high (hr : s.rst = true) : enabledInstr s = none :=
  if_pos hr

theorem portMove_low (w : Wire) (hr : s.rst = false) : portMove w s = exec (decodeWire w) s :=
  if_neg (ne_true_of_eq_false hr)

theorem portMove_high (w : Wire) (hr : s.rst = true) : portMove w s = .next s :=
  if_pos hr

theorem runIdle_some (h : enabledInstr s = some i) : runIdle s = exec i s := by
  simp only [runIdle, h]

theorem runIdle_none (h : enabledInstr s = none) :
    runIdle s = if s.phase = .idle then .next s else .fault .stuck := by
  simp only [runIdle, h]

/-- With no move left the engine takes the step the state selects. -/
theorem step_engine (hs : s.script = []) (hr : s.rst = false) (hi : engineInstr s = some i) :
    step s = exec i s := by
  rw [step_nil hs, runIdle_some ((enabledInstr_low hr).trans hi)]

/-- The moves ENGINE and RUN by what the engine can do. -/
theorem runMove_engine_some (hi : enabledInstr s = some i) :
    runMove .engine s = exec i s ∧
    runMove .run s = exec i { s with script := .run :: s.script } := by
  simp only [runMove, hi, and_self]

theorem runMove_engine_none (hi : enabledInstr s = none) :
    runMove .engine s = .next s ∧ runMove .run s = .next s := by
  simp only [runMove, hi, and_self]

end

/-- Settles O5: each move by its equation; a selected step does not depend on the script. -/
theorem stepRunsDecodedInstruction : Obligations.StepRunsDecodedInstruction := by
  unfold Obligations.StepRunsDecodedInstruction
  intro s rest hr
  refine ⟨fun v hs => ?cmd, fun idx v hs => ?write, fun idx hs => ?read, fun i hi => ?selected,
    fun hi hs => ?none⟩
  case cmd | write | read => exact (step_cons hs).trans (portMove_low _ hr)
  case selected =>
    have hen : ∀ sc, enabledInstr { s with script := sc } = some i := fun _ =>
      (enabledInstr_low hr).trans hi
    refine ⟨fun hs => ?engine, fun hs => ?run, fun hs => step_engine hs hr hi⟩
    case engine => exact (step_cons hs).trans (runMove_engine_some (hen rest)).1
    case run =>
      have hback : { s with script := .run :: rest } = s := by rw [← hs]
      refine (step_cons hs).trans ((runMove_engine_some (hen rest)).2.trans ?_)
      exact congrArg (exec i) hback
  case none =>
    have hen : enabledInstr { s with script := rest } = none := (enabledInstr_low hr).trans hi
    rcases hs with hs | hs
    · exact (step_cons hs).trans (runMove_engine_none hen).1
    · exact (step_cons hs).trans (runMove_engine_none hen).2

/-- Settles O6: each move by its equation; with `rst` high the port and the engine do nothing. -/
theorem producersAppendAndResetHolds : Obligations.ProducersAppendAndResetHolds := by
  unfold Obligations.ProducersAppendAndResetHolds
  intro s rest
  refine ⟨fun _ hs => step_cons hs, fun _ hs => step_cons hs, fun hs => step_cons hs,
    fun hs => step_cons hs, fun hr m hs hm => ?held⟩
  case held =>
    have hen : enabledInstr { s with script := rest } = none := enabledInstr_high hr
    rcases hm with ⟨v, rfl⟩ | ⟨idx, v, rfl⟩ | ⟨idx, rfl⟩ | rfl | rfl
    · exact (step_cons hs).trans (portMove_high _ hr)
    · exact (step_cons hs).trans (portMove_high _ hr)
    · exact (step_cons hs).trans (portMove_high _ hr)
    · exact (step_cons hs).trans (runMove_engine_none hen).1
    · exact (step_cons hs).trans (runMove_engine_none hen).2

/-- A stuck run, in its three conditions (70_reset_and_hazards.md R179). -/
theorem runStuck_eq_true (s : State) :
    s.runStuck = true ↔ s.script = [] ∧ enabledInstr s = none ∧ s.phase ≠ .idle := by
  simp only [State.runStuck, State.noMove, Bool.and_eq_true, List.isEmpty_iff,
    Option.isNone_iff_eq_none, bne_iff_ne, and_assoc]

/-- Settles O7: with a move left a step answers (`step_stepsLeft`), with none left by what the
engine can do. -/
theorem stepStopsOnlyWhenStuck : Obligations.StepStopsOnlyWhenStuck := by
  unfold Obligations.StepStopsOnlyWhenStuck
  intro s
  have hmoves : (s.runStuck = true ∧ step s = .fault .stuck) ∨
      (s.runStuck ≠ true ∧ ∃ t, step s = .next t) := by
    rw [ne_eq, runStuck_eq_true]
    by_cases hs : s.script = []
    · rw [step_nil hs]
      cases hi : enabledInstr s with
      | some i => exact .inr ⟨nofun, runIdle_some hi ▸ exec_next i s⟩
      | none =>
        rw [runIdle_none hi]
        by_cases hp : s.phase = .idle
        · exact .inr ⟨fun h => h.2.2 hp, s, if_pos hp⟩
        · exact .inl ⟨⟨hs, rfl, hp⟩, if_neg hp⟩
    · obtain ⟨t, ht, -⟩ := step_stepsLeft hs
      exact .inr ⟨fun h => hs h.1, t, ht⟩
  rcases hmoves with ⟨hstuck, hfault⟩ | ⟨hfree, t, ht⟩
  · exact ⟨iff_of_true hfault hstuck, fun h => absurd hstuck (ne_true_of_eq_false h)⟩
  · rw [ht]
    exact ⟨iff_of_false nofun hfree, fun _ => ⟨t, rfl⟩⟩

/-! ### Runs -/

theorem runSteps_succ {k : Nat} {s t : State} (h : step s = .next t) :
    runSteps (k + 1) s = runSteps k t := by
  simp only [runSteps, h]

/-- A run of `j` steps and then `k` more. -/
theorem runSteps_add {j k : Nat} {s t : State} (h : runSteps j s = .next t) :
    runSteps (j + k) s = runSteps k t := by
  induction j generalizing s with
  | zero =>
    cases h
    rw [Nat.zero_add]
  | succ j ih =>
    rw [Nat.succ_add]
    cases hstep : step s with
    | next u =>
      rw [runSteps_succ hstep] at h ⊢
      exact ih h
    | fault f => simp only [runSteps, hstep, reduceCtorEq] at h
    | refused r => simp only [runSteps, hstep, reduceCtorEq] at h

/-- What every step keeps every run keeps. -/
theorem runSteps_keeps {P : State → Prop} (hstep : ∀ s t, step s = .next t → P s → P t) {k : Nat}
    {s t : State} (h : runSteps k s = .next t) (hs : P s) : P t := by
  induction k generalizing s with
  | zero =>
    cases h
    exact hs
  | succ k ih =>
    cases hu : step s with
    | next u =>
      rw [runSteps_succ hu] at h
      exact ih h (hstep s u hu hs)
    | fault f => simp only [runSteps, hu, reduceCtorEq] at h
    | refused r => simp only [runSteps, hu, reduceCtorEq] at h

/-- Some number of steps leads from one state to the other. -/
def Runs (s t : State) : Prop := ∃ k, runSteps k s = .next t

theorem Runs.refl (s : State) : Runs s s := ⟨0, rfl⟩

theorem Runs.of_step {s t : State} (h : step s = .next t) : Runs s t := ⟨1, runSteps_succ h⟩

theorem Runs.append {s t u : State} (h₁ : Runs s t) (h₂ : Runs t u) : Runs s u := by
  obtain ⟨j, hj⟩ := h₁
  obtain ⟨k, hk⟩ := h₂
  exact ⟨j + k, (runSteps_add hj).trans hk⟩

end Sys2Proof.Machine
end

section
/-! SUPPORT. Whole passes: the encoder over the beats of a symbol sequence, the decoder over the
beats of a packing (43_encoder.md and 44_decoder.md, their last rules). -/

namespace Sys2Proof.Machine

/-- The beat of a symbol (30_encoding.md R69). -/
def dataBeat (c : Symbol) : SymBeat := { eos := false, sym := c }

/-! ### An encoding pass -/

/-- SYM_IN and ENC_SYMCNT set; the packer's operations do not touch them. -/
def setSymbols (q : List SymBeat) (k : Word) (s : State) : State :=
  { s with symIn := q, encSymcnt := k }

theorem pushBits_setSymbols (x : List Bool) (q : List SymBeat) (k : Word) (s : State) :
    pushBits x (setSymbols q k s) = setSymbols q k (pushBits x s) := by
  induction x generalizing s with
  | nil => rfl
  | cons b x ih =>
    have hpush : pushBit b (setSymbols q k s) = setSymbols q k (pushBit b s) := by
      by_cases h7 : s.nb = 7
      · rw [pushBit_full b s h7]
        exact pushBit_full b (setSymbols q k s) h7
      · rw [pushBit_part b s h7]
        exact pushBit_part b (setSymbols q k s) h7
    exact (congrArg (pushBits x) hpush).trans (ih (pushBit b s))

/-- The state of an encoding pass that began in `s`: `k` symbols are taken, their codes are the bits
`x`, the beats `q` are left. -/
def encoded (q : List SymBeat) (k : Nat) (x : List Bool) (s : State) : State :=
  setSymbols q (s.encSymcnt + BitVec.ofNat 32 k) (pushBits x s)

/-- Nothing is encoded at the start. -/
theorem encoded_start (s : State) : encoded s.symIn 0 [] s = s := by
  simp [encoded, setSymbols, pushBits]

section
variable {q : List SymBeat} {k : Nat} {x : List Bool} {s : State}

theorem encoded_codeAt (c : Symbol) : (encoded q k x s).codeAt c = s.codeAt c := by
  simp [encoded, setSymbols, State.codeAt]

/-- The codes of more symbols follow those before. -/
theorem pushBits_encoded (y : List Bool) :
    pushBits y (encoded q k x s) = encoded q k (x ++ y) s := by
  have happend : pushBits (x ++ y) s = pushBits y (pushBits x s) := List.foldl_append
  rw [encoded, pushBits_setSymbols, encoded, happend]

/-- In the state of a running pass the engine takes the oldest beat. -/
theorem step_encoded {b : SymBeat} (hp : s.phase = .enc) (hs : s.script = []) (hr : s.rst = false) :
    step (encoded (b :: q) k x s) =
      exec (if b.eos then .encEos b.sym else .encSym b.sym) (encoded (b :: q) k x s) := by
  have hfields : (encoded (b :: q) k x s).phase = .enc ∧ (encoded (b :: q) k x s).script = [] ∧
      (encoded (b :: q) k x s).rst = false := by
    simp [encoded, setSymbols, hp, hs, hr]
  obtain ⟨hp', hs', hr'⟩ := hfields
  exact step_engine hs' hr' (engineInstr_enc_cons hp' rfl)

/-- The step over the beat of a symbol with a code. -/
theorem step_encSym {c : Symbol} (hp : s.phase = .enc) (hs : s.script = []) (hr : s.rst = false)
    (hc : s.codeAt c ≠ []) :
    step (encoded (dataBeat c :: q) k x s) =
      .next (encoded q (k + 1) (x ++ s.codeAt c) s) := by
  have hp' : (encoded (dataBeat c :: q) k x s).phase = .enc := by simp [encoded, setSymbols, hp]
  rw [step_encoded hp hs hr]
  refine (exec_encSym hp' rfl).trans (congrArg Host.Outcome.next ?_)
  rw [encodeSymbol_present (by rwa [encoded_codeAt]), encoded_codeAt, takeSym_cons rfl]
  have htaken : { encoded (dataBeat c :: q) k x s with symIn := q } = encoded q k x s := rfl
  rw [htaken, pushBits_encoded]
  simp only [encoded, setSymbols, BitVec.ofNat_add, BitVec.add_assoc]
  rfl

/-- The step over the end mark. -/
theorem step_encEos {e : Symbol} (hp : s.phase = .enc) (hs : s.script = []) (hr : s.rst = false) :
    step (encoded ({ eos := true, sym := e } :: q) k x s) =
      .next { packClose (encoded q k x s) with done := true, phase := .idle } := by
  have hp' : (encoded ({ eos := true, sym := e } :: q) k x s).phase = .enc := by
    simp [encoded, setSymbols, hp]
  rw [step_encoded hp hs hr]
  refine (exec_encEos hp' rfl).trans (congrArg Host.Outcome.next ?_)
  rw [encodeEnd, takeSym_cons rfl]
  rfl

/-- The steps over the beats of a symbol sequence. -/
theorem runSteps_encode {w : List Symbol} (hp : s.phase = .enc) (hs : s.script = [])
    (hr : s.rst = false) (hc : ∀ c ∈ w, s.codeAt c ≠ []) :
    runSteps w.length (encoded (w.map dataBeat ++ q) k x s) =
      .next (encoded q (k + w.length) (x ++ w.flatMap s.codeAt) s) := by
  induction w generalizing k x with
  | nil => rw [List.flatMap_nil, List.append_nil]; rfl
  | cons c w ih =>
    obtain ⟨hc0, hcw⟩ := List.forall_mem_cons.1 hc
    refine (runSteps_succ (step_encSym hp hs hr hc0)).trans ((ih hcw).trans ?_)
    rw [List.flatMap_cons, List.append_assoc, List.length_cons, Nat.add_assoc, Nat.add_comm 1]

end

/-- The state an accepted ENC_START leaves (40_commands.md R89). -/
def encStarted (s : State) : State :=
  packReset { s with script := [], done := false, encSymcnt := 0, encBitcnt := 0, phase := .enc }

/-- Settles O48: ENC_START empties the packer, the steps over the beats push the codes, the end mark
closes the stream: the packer's law. -/
theorem encodingPassEmitsThePacking : Obligations.EncodingPassEmitsThePacking := by
  unfold Obligations.EncodingPassEmitsThePacking
  intro w q e s hp he hv hr hs hq hc
  refine ⟨_, ?_, rfl⟩
  obtain ⟨hcmd, -⟩ := stepRunsDecodedInstruction s [] hr
  obtain ⟨haccept, -⟩ := encStartBeginsPass { s with script := [] }
  have hstart : step s = .next (encStarted s) := (hcmd 0x03 hs).trans (haccept hp he hv)
  have hrun := runSteps_encode (q := { eos := true, sym := e } :: q) (k := 0) (x := [])
    (s := encStarted s) rfl rfl hr hc
  have hqueue : w.map dataBeat ++ { eos := true, sym := e } :: q = (encStarted s).symIn := hq.symm
  rw [hqueue, encoded_start, Nat.zero_add, List.nil_append] at hrun
  refine (runSteps_succ hstart).trans ((runSteps_add hrun).trans ?_)
  have hend := step_encEos (q := q) (k := w.length) (x := w.flatMap s.codeAt) (e := e)
    (s := encStarted s) rfl rfl hr
  refine (runSteps_succ (k := 0) hend).trans (congrArg Host.Outcome.next ?_)
  have hlaw : packClose (pushBits (w.flatMap s.codeAt) (encStarted s)) = _ :=
    packClose_pushBits_packReset _ _
  have hclose : packClose (encoded q w.length (w.flatMap s.codeAt) (encStarted s)) =
      setSymbols q (BitVec.ofNat 32 w.length)
        (packClose (pushBits (w.flatMap s.codeAt) (encStarted s))) := by
    simp [encoded, setSymbols, packClose, encStarted, packReset, emitByte]
  rw [hclose, hlaw]
  simp [setSymbols, hp]

end Sys2Proof.Machine
end

section
/-! SUPPORT. A decoding pass over the beats of a packing, bit by bit, and the round trip
(44_decoder.md, its last two rules). -/

namespace Sys2Proof.Machine

/-! ### The bits still to come -/

/-- The unpacker with the beats behind it still gives the bits `y`: the final beat has been loaded,
or a packing waits on BYTE_IN. -/
def Feeds (v : State) (y : List Bool) : Prop :=
  v.rem.toNat ≤ 8 ∧
  ((v.endseen = true ∧ v.byteIn = [] ∧ y = byteBits v.shr v.rem.toNat) ∨
   (v.endseen = false ∧ ∃ z, v.byteIn = packing z ∧ y = byteBits v.shr v.rem.toNat ++ z))

section
variable {v : State} {b : Bool} {y : List Bool}

/-- The bit popped is the next one of those to come. -/
theorem feeds_popBit (hr : v.rem ≠ 0) (h : Feeds v (b :: y)) :
    (popBit v).1 = b ∧ Feeds (popBit v).2 y := by
  obtain ⟨h8, hfeed⟩ := h
  obtain ⟨hbit, hrem, hshr, -⟩ := popBit_spec v hr
  have hbits : byteBits v.shr v.rem.toNat =
      (popBit v).1 :: byteBits (popBit v).2.shr (popBit v).2.rem.toNat := by
    rw [hbit, hshr, ← hrem]
    exact byteBits_shift v.shr (by omega)
  obtain ⟨he, hq, hy⟩ | ⟨he, z, hq, hy⟩ := hfeed
  · rw [hbits] at hy
    obtain ⟨rfl, rfl⟩ := List.cons_eq_cons.1 hy
    exact ⟨rfl, by omega, .inl ⟨he, hq, rfl⟩⟩
  · rw [hbits, List.cons_append] at hy
    obtain ⟨rfl, rfl⟩ := List.cons_eq_cons.1 hy
    exact ⟨rfl, by omega, .inr ⟨he, z, hq, rfl⟩⟩

/-- With no bit to come none is in the unpacker. -/
theorem feeds_nil (h : Feeds v []) : v.rem = 0 := by
  have hlen : (byteBits v.shr v.rem.toNat).length = 0 := by
    obtain ⟨-, ⟨-, -, hy⟩ | ⟨-, z, -, hy⟩⟩ := h
    · rw [← hy]
      rfl
    · rw [(List.append_eq_nil_iff.1 hy.symm).1]
      rfl
  rw [byteBits_length] at hlen
  exact BitVec.eq_of_toNat_eq hlen

/-- The next beat is a good one, and fetching it leaves the bits to come as they are: one of them is
then in the unpacker, or there is none and the final beat was it. -/
theorem feeds_fetch (hr : v.rem = 0) (he : v.endseen = false) (h : Feeds v y) :
    ∃ c q, v.byteIn = c :: q ∧ (c.last = true → c.nvalid.toNat ≤ 8) ∧ Feeds (fetchByte c v) y ∧
      ((fetchByte c v).rem ≠ 0 ∨ y = [] ∧ (fetchByte c v).endseen = true) := by
  obtain ⟨-, ⟨he', -⟩ | ⟨-, z, hq, hy⟩⟩ := h
  · rw [he] at he'
    cases he'
  rw [hr] at hy
  obtain rfl : y = z := hy
  obtain ⟨a, n, hn, rfl, hpack⟩ | ⟨a, x, rfl, hpack⟩ := packing_cases y
  · have hnv := toNat_nvalid_of_lt hn
    have hle : (BitVec.ofNat 4 n).toNat ≤ 8 := by omega
    rw [hpack] at hq
    refine ⟨_, _, hq, fun _ => hle, ?_⟩
    rw [fetchByte_final hq rfl hle]
    refine ⟨⟨hle, .inl ⟨rfl, rfl, by rw [hnv]⟩⟩, ?_⟩
    cases n with
    | zero => exact .inr ⟨rfl, rfl⟩
    | succ n =>
      exact .inl fun h0 => absurd (hnv.symm.trans (congrArg BitVec.toNat h0)) (Nat.succ_ne_zero n)
  · rw [hpack] at hq
    refine ⟨_, _, hq, nofun, ?_⟩
    rw [fetchByte_full hq rfl]
    exact ⟨⟨Nat.le_refl 8, .inr ⟨he, x, rfl, rfl⟩⟩, .inl (show (8 : BitVec 4) ≠ 0 by decide)⟩

end

/-! ### The state of a running pass -/

/-- The state of a decoding pass that runs in `s`: `out` emitted and `n` bits read since then, CUR
at `m`, the unpacker and BYTE_IN as in `v`. -/
def decoded (s : State) (out : List Symbol) (n : Nat) (m : NodeIndex) (v : State) : State :=
  { s with symOut := s.symOut ++ out.map dataBeat
           decSymcnt := s.decSymcnt + BitVec.ofNat 32 out.length
           decBitcnt := s.decBitcnt + BitVec.ofNat 32 n
           cur := m, shr := v.shr, rem := v.rem, endseen := v.endseen, byteIn := v.byteIn }

theorem decoded_start (s : State) : decoded s [] 0 s.cur s = s := by
  simp [decoded]

/-- What one bit does to the symbols emitted and to CUR (44_decoder.md R131, R134). -/
def afterBit (s : State) (out : List Symbol) (m : NodeIndex) (b : Bool) : List Symbol × NodeIndex :=
  if nodeLeaf (s.nodeAt s.root) then (out ++ [nodeSym (s.nodeAt s.root)], s.root)
  else if nodeLeaf (s.nodeAt (nodeChild (s.nodeAt m) b)) then
    (out ++ [nodeSym (s.nodeAt (nodeChild (s.nodeAt m) b))], s.root)
  else (out, nodeChild (s.nodeAt m) b)

section
variable {s v : State} {out : List Symbol} {n : Nat} {m : NodeIndex}

/-- A bit popped in the middle of a pass. -/
theorem popBit_decoded :
    popBit (decoded s out n m v) = ((popBit v).1, decoded s out (n + 1) m (popBit v).2) := by
  simp only [popBit, decoded, BitVec.ofNat_add, BitVec.add_assoc]
  rfl

/-- A symbol emitted in the middle of a pass. -/
theorem emitSymbol_decoded (c : Symbol) :
    emitSymbol c (decoded s out n m v) = decoded s (out ++ [c]) n s.root v := by
  simp [emitSymbol, emitSym, decoded, dataBeat, BitVec.ofNat_add, BitVec.add_assoc]

theorem decodeBit_decoded :
    decodeBit (decoded s out n m v) =
      decoded s (afterBit s out m (popBit v).1).1 (n + 1) (afterBit s out m (popBit v).1).2
        (popBit v).2 := by
  have hpop := popBit_decoded (s := s) (v := v) (out := out) (n := n) (m := m)
  unfold afterBit
  cases hroot : nodeLeaf (s.nodeAt s.root)
  case true =>
    rw [decodeBit_rootLeaf (s := decoded s out n m v) hroot, hpop]
    exact emitSymbol_decoded _
  case false =>
    have hchild : nodeChild ((decoded s out n m v).nodeAt (decoded s out n m v).cur)
        (popBit (decoded s out n m v)).1 = nodeChild (s.nodeAt m) (popBit v).1 := rfl
    cases hl : nodeLeaf (s.nodeAt (nodeChild (s.nodeAt m) (popBit v).1))
    case true =>
      rw [decodeBit_leaf (s := decoded s out n m v) hroot hl, hpop]
      exact emitSymbol_decoded _
    case false =>
      rw [decodeBit_internal (s := decoded s out n m v) hroot hl, hpop]
      rfl

/-- Fetching a good beat moves the unpacker alone. -/
theorem fetchByte_decoded {c : ByteBeat} {q : List ByteBeat} (hq : v.byteIn = c :: q)
    (hc : c.last = true → c.nvalid.toNat ≤ 8) :
    fetchByte c (decoded s out n m v) = decoded s out n m (fetchByte c v) := by
  have hq' : (decoded s out n m v).byteIn = c :: q := hq
  cases hl : c.last
  case false =>
    rw [fetchByte_full hq hl]
    exact fetchByte_full hq' hl
  case true =>
    rw [fetchByte_final hq hl (hc hl)]
    exact fetchByte_final hq' hl (hc hl)

end

/-! ### The steps of a pass -/

section
variable {s : State} (hp : s.phase = .dec) (hs : s.script = []) (hr : s.rst = false)
include hp hs hr

/-- Before the next bit is read, or the end is seen, at most one beat is fetched. -/
theorem runs_to_next_bit {v : State} {out : List Symbol} {n : Nat} {m : NodeIndex} {y : List Bool}
    (h : Feeds v y) :
    ∃ w, Runs (decoded s out n m v) (decoded s out n m w) ∧ Feeds w y ∧
      (w.rem ≠ 0 ∨ y = [] ∧ w.endseen = true) := by
  by_cases h0 : v.rem = 0
  case neg => exact ⟨v, Runs.refl _, h, .inl h0⟩
  cases he : v.endseen
  case true =>
    refine ⟨v, Runs.refl _, h, .inr ⟨?_, he⟩⟩
    obtain ⟨-, ⟨-, -, hy⟩ | ⟨he', -⟩⟩ := h
    · rw [hy, h0]
      rfl
    · rw [he] at he'
      cases he'
  case false =>
    obtain ⟨c, q, hq, hc, hfeeds, hnext⟩ := feeds_fetch h0 he h
    refine ⟨fetchByte c v, Runs.of_step ?_, hfeeds, hnext⟩
    have hi := engineInstr_dec_cons (s := decoded s out n m v) hp h0 he hq
    rw [step_engine (s := decoded s out n m v) hs hr hi,
      exec_decodeBytb (byteReady_oldest (s := decoded s out n m v) hp h0 he hq),
      fetchByte_decoded hq hc]

/-- One bit read. -/
theorem runs_bit {v : State} {out : List Symbol} {n : Nat} {m : NodeIndex} {b : Bool}
    {y : List Bool} (h : Feeds v (b :: y)) :
    ∃ w, Runs (decoded s out n m v)
        (decoded s (afterBit s out m b).1 (n + 1) (afterBit s out m b).2 w) ∧ Feeds w y := by
  obtain ⟨u, hrun, hfeeds, hrem | ⟨hnil, -⟩⟩ := runs_to_next_bit hp hs hr h
  case inr => cases hnil
  obtain ⟨rfl, hrest⟩ := feeds_popBit hrem hfeeds
  refine ⟨(popBit u).2, hrun.append (Runs.of_step ?_), hrest⟩
  have hi := engineInstr_dec_bit (s := decoded s out n m u) hp hrem
  rw [step_engine (s := decoded s out n m u) hs hr hi,
    exec_decBit (s := decoded s out n m u) hp hrem, decodeBit_decoded]

/-- The bits of a path to a leaf read: the leaf's symbol is emitted. -/
theorem runs_path {v : State} {out : List Symbol} {n : Nat} {m : NodeIndex} {p y : List Bool}
    (hroot : nodeLeaf (s.nodeAt s.root) = false) (hne : p ≠ [])
    (hleaf : nodeLeaf (s.nodeAt (walk s m p)) = true)
    (hinner : ∀ k, k < p.length → nodeLeaf (s.nodeAt (walk s m (p.take k))) = false)
    (h : Feeds v (p ++ y)) :
    ∃ w, Runs (decoded s out n m v)
        (decoded s (out ++ [nodeSym (s.nodeAt (walk s m p))]) (n + p.length) s.root w) ∧
      Feeds w y := by
  induction p generalizing v n m with
  | nil => exact absurd rfl hne
  | cons b p ih =>
    obtain ⟨u, hrun, hfeeds⟩ := runs_bit hp hs hr (out := out) (n := n) (m := m) h
    unfold afterBit at hrun
    rw [if_neg (ne_true_of_eq_false hroot)] at hrun
    cases p with
    | nil =>
      have hl : nodeLeaf (s.nodeAt (nodeChild (s.nodeAt m) b)) = true := hleaf
      rw [if_pos hl] at hrun
      exact ⟨u, hrun, hfeeds⟩
    | cons d p =>
      have hl : nodeLeaf (s.nodeAt (nodeChild (s.nodeAt m) b)) = false :=
        hinner 1 (Nat.succ_lt_succ (Nat.succ_pos _))
      rw [if_neg (ne_true_of_eq_false hl)] at hrun
      obtain ⟨w, hrun', hfeeds'⟩ := ih (n := n + 1) (List.cons_ne_nil d p) hleaf
        (fun k hk => hinner (k + 1) (Nat.succ_lt_succ hk)) hfeeds
      refine ⟨w, hrun.append ?_, hfeeds'⟩
      rw [Nat.add_assoc, Nat.add_comm 1] at hrun'
      exact hrun'

/-- The bits of a symbol's code read: the symbol is emitted. -/
theorem runs_code {v : State} {out : List Symbol} {n : Nat} {c : Symbol} {y : List Bool}
    (hcoh : s.coherent) (hc : s.codeAt c ≠ []) (h : Feeds v (s.codeAt c ++ y)) :
    ∃ w, Runs (decoded s out n s.root v)
        (decoded s (out ++ [c]) (n + (s.codeAt c).length) s.root w) ∧ Feeds w y := by
  cases hroot : nodeLeaf (s.nodeAt s.root)
  case true =>
    obtain ⟨hcode, hsym⟩ := code_rootLeaf hcoh hroot hc
    rw [hcode] at h ⊢
    obtain ⟨w, hrun, hfeeds⟩ := runs_bit hp hs hr (out := out) (n := n) (m := s.root) h
    unfold afterBit at hrun
    rw [if_pos hroot, hsym] at hrun
    exact ⟨w, hrun, hfeeds⟩
  case false =>
    obtain ⟨hleaf, hsym, hinner⟩ := code_walk hcoh hroot hc
    have hrun := runs_path hp hs hr (out := out) (n := n) hroot hc hleaf hinner h
    rwa [hsym] at hrun

/-- The bits of concatenated codes read: the symbols are emitted. -/
theorem runs_codes {v : State} {out : List Symbol} {n : Nat} {w : List Symbol}
    (hcoh : s.coherent) (hc : ∀ c ∈ w, s.codeAt c ≠ []) (h : Feeds v (w.flatMap s.codeAt)) :
    ∃ u, Runs (decoded s out n s.root v)
        (decoded s (out ++ w) (n + (w.flatMap s.codeAt).length) s.root u) ∧ Feeds u [] := by
  induction w generalizing v out n with
  | nil =>
    rw [List.append_nil]
    exact ⟨v, Runs.refl _, h⟩
  | cons c w ih =>
    obtain ⟨hc0, hcw⟩ := List.forall_mem_cons.1 hc
    obtain ⟨u, hrun, hfeeds⟩ := runs_code hp hs hr (out := out) (n := n) hcoh hc0 h
    obtain ⟨u', hrun', hfeeds'⟩ := ih (out := out ++ [c]) (n := n + (s.codeAt c).length) hcw hfeeds
    refine ⟨u', hrun.append ?_, hfeeds'⟩
    rw [List.append_assoc, List.singleton_append, Nat.add_assoc] at hrun'
    rwa [List.flatMap_cons, List.length_append]

/-- The end of the bits seen at ROOT: the pass ends with DONE. -/
theorem runs_end {v : State} {out : List Symbol} {n : Nat} (h : Feeds v []) :
    ∃ w, w.byteIn = [] ∧ Runs (decoded s out n s.root v)
      { closeDecoder { decoded s out n s.root w with done := true } with phase := .idle } := by
  obtain ⟨w, hrun, hfeeds, hend⟩ := runs_to_next_bit hp hs hr (out := out) (n := n) (m := s.root) h
  have h0 := feeds_nil hfeeds
  obtain ⟨-, he⟩ := hend.resolve_left (not_not_intro h0)
  have hq : w.byteIn = [] := by
    obtain ⟨-, ⟨-, hq, -⟩ | ⟨he', -⟩⟩ := hfeeds
    · exact hq
    · rw [he] at he'
      cases he'
  refine ⟨w, hq, hrun.append (Runs.of_step ?_)⟩
  have hi := engineInstr_dec_finish (s := decoded s out n s.root w) hp h0 he
  rw [step_engine (s := decoded s out n s.root w) hs hr hi,
    exec_decFinish (s := decoded s out n s.root w) hp h0 he, decodeEnd_root rfl]

end

/-! ### The round trip -/

/-- The state an accepted DEC_START leaves (40_commands.md R90). -/
def decStarted (s : State) : State :=
  { s with script := [], done := false, decSymcnt := 0, decBitcnt := 0, shr := 0, rem := 0,
           endseen := false, cur := s.root, phase := .dec }

/-- A decoding pass over the packing of concatenated codes. -/
theorem decodingPass_emits_symbols {s : State} {w : List Symbol} (hcoh : s.coherent)
    (hv : s.treeValid = true) (hp : s.phase = .idle) (he : s.errCode = 0) (hr : s.rst = false)
    (hs : s.script = [.cmd 0x04]) (hq : s.byteIn = packing (w.flatMap s.codeAt))
    (hc : ∀ c ∈ w, s.codeAt c ≠ []) :
    ∃ u, Runs s u ∧ u.phase = .idle ∧ u.done = true ∧ u.errCode = 0 ∧ u.byteIn = [] ∧
      u.symOut = s.symOut ++ w.map dataBeat ++ [endMark] ∧
      u.decSymcnt = BitVec.ofNat 32 w.length ∧
      u.decBitcnt = BitVec.ofNat 32 (w.flatMap s.codeAt).length := by
  obtain ⟨hcmd, -⟩ := stepRunsDecodedInstruction s [] hr
  obtain ⟨haccept, -⟩ := decStartBeginsPass { s with script := [] }
  have hstart : step s = .next (decStarted s) := (hcmd 0x04 hs).trans (haccept hp he hv)
  have hfeeds : Feeds (decStarted s) (w.flatMap s.codeAt) :=
    ⟨Nat.zero_le _, .inr ⟨rfl, _, hq, rfl⟩⟩
  have hcoh' := stepKeepsTableCoherent s _ hstart hcoh
  obtain ⟨v, hrun, hfeeds'⟩ := runs_codes (s := decStarted s) (out := []) (n := 0) rfl rfl hr
    hcoh' hc hfeeds
  obtain ⟨u, hempty, hrun'⟩ := runs_end (s := decStarted s) (out := [] ++ w)
    (n := 0 + (w.flatMap s.codeAt).length) rfl rfl hr hfeeds'
  rw [show decoded (decStarted s) [] 0 (decStarted s).root (decStarted s) = decStarted s from
    decoded_start _] at hrun
  refine ⟨_, (Runs.of_step hstart).append (hrun.append hrun'), rfl, rfl, he, hempty, rfl, ?_, ?_⟩
  · exact BitVec.zero_add _
  · rw [Nat.zero_add]
    exact BitVec.zero_add _

/-- Settles O53: the encoding pass leaves the packing of the concatenated codes (O48), and the
decoding pass over it emits the symbols. -/
theorem decodingInvertsEncoding : Obligations.DecodingInvertsEncoding := by
  unfold Obligations.DecodingInvertsEncoding
  intro w s hcoh hv hp he hr hs hq hc
  have htable : s.tableValid = true := by
    obtain ⟨hflags, -⟩ := hcoh
    rw [hflags, hv]
  obtain ⟨t, hrun, ht⟩ := encodingPassEmitsThePacking w [] 0 s hp he htable hr hs hq hc
  have hcoht := runSteps_keeps stepKeepsTableCoherent hrun hcoh
  refine ⟨t, packing (w.flatMap s.codeAt), hrun, congrArg State.byteOut ht, ?_⟩
  subst ht
  obtain ⟨u, ⟨k, hk⟩, hu⟩ := decodingPass_emits_symbols (w := w) (s := { s with
      script := [.cmd 0x04], symIn := [], done := true, acc := 0, nb := 0,
      encSymcnt := BitVec.ofNat 32 w.length,
      encBitcnt := BitVec.ofNat 32 (w.flatMap s.codeAt).length,
      byteOut := s.byteOut ++ packing (w.flatMap s.codeAt),
      byteIn := packing (w.flatMap s.codeAt) }) hcoht hv hp he hr rfl rfl hc
  exact ⟨k, u, hk, hu⟩

end Sys2Proof.Machine
end

section
/-! SUPPORT. The words of the registers field by field, and the register accesses case by case
(10_state.md section 5, 40_commands.md R94, R95). -/

namespace Sys2Proof.Machine

open Host (Outcome)

/-! ### Words put together from fields -/

/-- A flag in bit 31 above a byte, as ERR and CODE_LEN have them: the fields back. -/
theorem flagged_byte_fields (b : Bool) (x : Byte) :
    (BitVec.ofBool b ++ 0#23 ++ x).extractLsb' 0 8 = x ∧
    (BitVec.ofBool b ++ 0#23 ++ x).extractLsb' 8 23 = 0 ∧
    (BitVec.ofBool b ++ 0#23 ++ x).getLsbD 31 = b := by
  have hbit : ∀ i, (BitVec.ofBool b ++ 0#23 ++ x).getLsbD i =
      if i < 8 then x.getLsbD i else (BitVec.ofBool b ++ 0#23).getLsbD (i - 8) := fun i =>
    BitVec.getLsbD_append (x := BitVec.ofBool b ++ 0#23) (y := x)
  have hflag : ∀ i, (BitVec.ofBool b ++ 0#23).getLsbD i =
      if i < 23 then (0#23).getLsbD i else (BitVec.ofBool b).getLsbD (i - 23) := fun i =>
    BitVec.getLsbD_append (x := BitVec.ofBool b) (y := 0#23)
  refine ⟨BitVec.eq_of_getLsbD_eq fun i hi => ?_, BitVec.eq_of_getLsbD_eq fun i hi => ?_, ?_⟩
  · rw [BitVec.getLsbD_extractLsb', decide_eq_true hi, hbit, Nat.zero_add, if_pos hi, Bool.true_and]
  · have h8 : ¬ 8 + i < 8 := by omega
    rw [BitVec.getLsbD_extractLsb', decide_eq_true hi, hbit, if_neg h8, Nat.add_sub_cancel_left,
      hflag, if_pos hi]
    simp
  · rw [hbit, if_neg (by decide), hflag, if_neg (by decide)]
    simp

/-- A field of the low bits of a word, read back as a word. -/
theorem setWidth_extractLsb'_zero (v : Word) (n : Nat) :
    (v.extractLsb' 0 n).setWidth 32 = v &&& BitVec.ofNat 32 (2 ^ n - 1) := by
  refine BitVec.eq_of_getLsbD_eq fun i hi => ?_
  rw [BitVec.getLsbD_setWidth, BitVec.getLsbD_extractLsb', BitVec.getLsbD_and, BitVec.getLsbD_ofNat,
    Nat.testBit_two_pow_sub_one, Nat.zero_add, decide_eq_true hi, Bool.true_and, Bool.true_and,
    Bool.and_comm]

/-- What NODE_DATA reads for a valid entry: bit 31 above the node word (10_state.md R23). -/
theorem nodeDataWord_valid (w : NodeWord) :
    nodeDataWord true w = 0x80000000 ||| w.setWidth 32 := by
  refine BitVec.eq_of_toNat_eq ?_
  rw [BitVec.toNat_or, BitVec.toNat_setWidth_of_le (by decide)]
  exact BitVec.toNat_append (1#1 ++ 0#12) w

/-- The same as a number. -/
theorem nodeDataWord_toNat (w : NodeWord) : (nodeDataWord true w).toNat = 2 ^ 31 + w.toNat := by
  have hlt : w.toNat < 2 ^ 31 := Nat.lt_trans w.isLt (by decide)
  have hor := Nat.two_pow_add_eq_or_of_lt hlt 1
  rw [nodeDataWord_valid, BitVec.toNat_or, BitVec.toNat_setWidth_of_le (by decide)]
  exact hor.symm

/-- IE bit by bit (10_state.md R20). -/
theorem ieWord_eq_concat (s : State) : ieWord s = ((0#30).concat s.errIe).concat s.doneIe := rfl

/-! ### Reads -/

/-- An unmapped index reads 0 (10_state.md R36). -/
theorem registerWord_unmapped {idx : RegIndex} (s : State) (h : 0x18 ≤ idx.toNat) :
    registerWord idx s = 0 := by
  unfold registerWord
  split
  case h_25 => rfl
  all_goals omega

/-- Settles O20: each index by its rule, the fields of the composed words by the lemmas above. -/
theorem regReadReturnsItsRegister : Obligations.RegReadReturnsItsRegister := by
  unfold Obligations.RegReadReturnsItsRegister
  intro idx s h
  refine ⟨registerWord idx s, exec_regRd idx s h, ?id, ?cmd, ?err, ?errInfo, ?ie, ?root, ?nodeAddr,
    ?nodeData, ?codeSel, ?nleaf, ?encSymcnt, ?encBitcnt, ?decSymcnt, ?decBitcnt,
    registerWord_unmapped s⟩
  all_goals rintro rfl
  case err => exact flagged_byte_fields s.errMulti s.errCode
  case ie =>
    show (ieWord s).getLsbD 0 = _ ∧ (ieWord s).getLsbD 1 = _ ∧ (ieWord s).extractLsb' 2 30 = 0
    rw [ieWord_eq_concat]
    refine ⟨BitVec.getLsbD_concat_zero, ?_, BitVec.eq_of_getLsbD_eq fun i hi => ?_⟩
    · rw [BitVec.getLsbD_concat_succ, BitVec.getLsbD_concat_zero]
    · rw [BitVec.getLsbD_extractLsb', Nat.add_comm 2, BitVec.getLsbD_concat_succ,
        BitVec.getLsbD_concat_succ]
      simp
  case root | nodeAddr | codeSel | nleaf => exact BitVec.toNat_setWidth_of_le (by decide)
  case nodeData =>
    show (nodeDataWord (s.nvalidAt s.nodeAddr) (s.nodeAt s.nodeAddr)).toNat = _
    cases s.nvalidAt s.nodeAddr
    case true => exact nodeDataWord_toNat _
    case false => rfl
  all_goals rfl

/-- CODE_BITSk reads the k-th word of the selected code (10_state.md R26). -/
theorem registerWord_codeBits {k : Nat} (hk : k < 8) (s : State) :
    registerWord (BitVec.ofNat 6 (0x10 + k)) s = codeBitsWord k (s.codeAt s.codeSel) := by
  interval_cases k <;> rfl

/-- Settles O22: V and LEN are the fields of CODE_LEN, each bit of CODE_BITSk is
`codeBitsWord_getLsbD`. -/
theorem codeWindowsShowTheCode : Obligations.CodeWindowsShowTheCode := by
  unfold Obligations.CodeWindowsShowTheCode
  intro s hp
  refine ⟨⟨codeLenWord (s.codeAt s.codeSel), exec_regRd 0x0A s fun _ => hp, ?_⟩, fun k hk =>
    ⟨codeBitsWord k (s.codeAt s.codeSel), ?_, fun j hj => ?_⟩⟩
  · obtain ⟨hlen, hzero, hv⟩ :=
      flagged_byte_fields (codeV (s.codeAt s.codeSel)) (codeLen (s.codeAt s.codeSel))
    have hiff : codeV (s.codeAt s.codeSel) = true ↔ s.codeAt s.codeSel ≠ [] := by
      rw [codeV, Bool.not_eq_true', List.isEmpty_eq_false_iff]
    exact ⟨(Bool.eq_iff_iff.1 hv).trans hiff, hzero, hlen⟩
  · rw [exec_regRd _ s fun _ => hp, registerWord_codeBits hk]
  · rw [codeBitsWord_getLsbD k _ j hj, codeBit]
    split
    · rfl
    · exact List.getD_eq_default _ _ (by omega)

/-- Settles O23: the read of a code window in GEN draws its word. -/
theorem codeWindowReadDuringGenIsFree : Obligations.CodeWindowReadDuringGenIsFree := by
  unfold Obligations.CodeWindowReadDuringGenIsFree
  intro idx s hp hw
  have hfree : (codeWindow idx && s.phase == .gen) = true := by
    rw [hw, hp]
    rfl
  exact ⟨_, _, congrArg Outcome.next (if_pos hfree)⟩

/-! ### Writes -/

/-- The registers that store their field in every phase. -/
theorem exec_plain_writes (v : Word) (s : State) :
    exec (.regWrIe v) s = .next { s with doneIe := v.getLsbD 0, errIe := v.getLsbD 1 } ∧
    exec (.regWrNodeAddr v) s = .next { s with nodeAddr := v.extractLsb' 0 9 } ∧
    exec (.regWrCodeSel v) s = .next { s with codeSel := v.extractLsb' 0 8 } :=
  ⟨rfl, rfl, rfl⟩

/-- Settles O24: the field stored is the one read back, the bits beside it masked off. -/
theorem plainRegistersStoreTheirField : Obligations.PlainRegistersStoreTheirField := by
  unfold Obligations.PlainRegistersStoreTheirField
  intro v s
  obtain ⟨hie, haddr, hsel⟩ := exec_plain_writes v s
  refine ⟨⟨_, _, hie, rfl, exec_regRd 0x05 _ nofun, ?_⟩,
    ⟨_, _, haddr, rfl, exec_regRd 0x07 _ nofun, setWidth_extractLsb'_zero v 9⟩,
    ⟨_, _, hsel, rfl, exec_regRd 0x09 _ nofun, setWidth_extractLsb'_zero v 8⟩⟩
  show ((0#30).concat (v.getLsbD 1)).concat (v.getLsbD 0) = v &&& 0x3
  refine BitVec.eq_of_getLsbD_eq fun i hi => ?_
  have hmask : (0x3 : Word).getLsbD i = decide (i < 2) :=
    (BitVec.getLsbD_ofNat ..).trans (by
      rw [decide_eq_true hi, Bool.true_and]
      exact Nat.testBit_two_pow_sub_one 2 i)
  rw [BitVec.getLsbD_and, hmask]
  rcases i with _ | _ | i <;> simp [BitVec.getLsbD_concat_succ]

section
variable {s : State}

theorem exec_regWrRoot_idle (v : Word) (hp : s.phase = .idle) :
    exec (.regWrRoot v) s = .next (treeInvalidate { s with root := wordIndex v }) :=
  congrArg Outcome.next (if_neg fun h => (busy_eq_true s).1 h hp)

theorem exec_regWrNodeData_idle (v : Word) (hp : s.phase = .idle) :
    exec (.regWrNodeData v) s = .next (treeInvalidate (writeNode s.nodeAddr (wordNode v) s)) :=
  congrArg Outcome.next (if_neg fun h => (busy_eq_true s).1 h hp)

/-- The write lock (20_memory.md R57). -/
theorem exec_locked_writes (v : Word) (hp : s.phase ≠ .idle) :
    exec (.regWrRoot v) s = .next (raise .writeLocked 0x06 s) ∧
    exec (.regWrNodeData v) s = .next (raise .writeLocked 0x08 s) :=
  ⟨congrArg Outcome.next (if_pos ((busy_eq_true s).2 hp)),
    congrArg Outcome.next (if_pos ((busy_eq_true s).2 hp))⟩

/-- A written entry of the tree store reads as written and valid, the others as before. -/
theorem writeNode_reads (n : NodeIndex) (w : NodeWord) (hs : Memory.wf Config.nNode 0 s.node) :
    (writeNode n w s).nodeAt n = w ∧ (writeNode n w s).nvalidAt n = true ∧
    ∀ m, m ≠ n → (writeNode n w s).nodeAt m = s.nodeAt m ∧
      (writeNode n w s).nvalidAt m = s.nvalidAt m := by
  refine ⟨Memory.get_set_same hs, Memory.get_set_same_of_ne (by decide), fun m hm => ?_⟩
  have hne : n.toNat ≠ m.toNat := fun e => hm (BitVec.eq_of_toNat_eq e.symm)
  exact ⟨Memory.get_set_other hne, Memory.get_set_other hne⟩

end

/-- Settles O25: in IDLE the write is not locked. -/
theorem rootWriteInvalidatesTree : Obligations.RootWriteInvalidatesTree := by
  unfold Obligations.RootWriteInvalidatesTree
  exact fun v _ hp => exec_regWrRoot_idle v hp

/-- Settles O26: in IDLE the write is not locked, and the entry reads as `writeNode_reads` says. -/
theorem nodeDataWriteStoresOneEntry : Obligations.NodeDataWriteStoresOneEntry := by
  unfold Obligations.NodeDataWriteStoresOneEntry
  intro v s hp hs
  obtain ⟨hnode, -⟩ := hs
  obtain ⟨hword, hvalid, hother⟩ := writeNode_reads s.nodeAddr (wordNode v) hnode
  refine ⟨_, _, exec_regWrNodeData_idle v hp, hword, hvalid, hother, rfl,
    exec_regRd 0x08 _ nofun, ?_⟩
  have hread : registerWord 0x08 (treeInvalidate (writeNode s.nodeAddr (wordNode v) s)) =
      nodeDataWord ((writeNode s.nodeAddr (wordNode v) s).nvalidAt s.nodeAddr)
        ((writeNode s.nodeAddr (wordNode v) s).nodeAt s.nodeAddr) := rfl
  rw [hread, hword, hvalid, nodeDataWord_valid]
  exact congrArg (0x80000000 ||| ·) (setWidth_extractLsb'_zero v 19)

/-- Settles O27: the lock while busy, the plain registers in every phase, and CMD as its command. -/
theorem writeLockWhileBusy : Obligations.WriteLockWhileBusy := by
  unfold Obligations.WriteLockWhileBusy
  intro v s
  obtain ⟨hie, haddr, hsel⟩ := exec_plain_writes v s
  exact ⟨exec_locked_writes v, hie, haddr, hsel, exec_regWrCmd v s⟩

end Sys2Proof.Machine
end

section
/-! SUPPORT. The error codes, the reset and the state it leaves, and the engine rows that are not
enabled (60_exceptions.md R151, R152; 70_reset_and_hazards.md R170; log 3). -/

namespace Sys2Proof.Machine

/-- Settles O9: the two tables, row by row. -/
theorem errorCodesAndClasses : Obligations.ErrorCodesAndClasses := by
  unfold Obligations.ErrorCodesAndClasses
  decide

/-- Settles O16: both rows are the reset event, which writes every element of the block's state. -/
theorem resetCutsThePhase : Obligations.ResetCutsThePhase := by
  unfold Obligations.ResetCutsThePhase
  exact fun _ => ⟨rfl, rfl⟩

/-- Settles O17: the row only records its error. -/
theorem illegalCommandIsRecorded : Obligations.IllegalCommandIsRecorded := by
  unfold Obligations.IllegalCommandIsRecorded
  intro v s
  have hraise : exec (.cmdIllegal v) s = .next (raise .illegalCmd v s) := rfl
  rw [hraise]
  exact ⟨fun he => congrArg Host.Outcome.next (raise_first _ _ he),
    fun he => congrArg Host.Outcome.next (raise_later _ _ he)⟩

/-- Settles O47: each row tests its own condition first. -/
theorem engineStepWaitsWhenNotEnabled : Obligations.EngineStepWaitsWhenNotEnabled := by
  unfold Obligations.EngineStepWaitsWhenNotEnabled
  intro s noSym noByte
  have hsym : ∀ b, noSym b → symReady b s ≠ true := fun b h hr => by
    simp only [symReady, Bool.and_eq_true, beq_iff_eq] at hr
    exact h.elim (· hr.1) (· hr.2)
  have hbyte : ∀ b, noByte b → byteReady b s ≠ true := fun b h hr => by
    simp only [byteReady, biReady, Bool.and_eq_true, beq_iff_eq, Bool.not_eq_true'] at hr
    obtain ⟨⟨⟨hp, h0⟩, he⟩, hq⟩ := hr
    rcases h with h | h | h | h
    · exact h hp
    · exact h h0
    · exact absurd h (ne_true_of_eq_false he)
    · exact h hq
  refine ⟨fun c h => if_neg (hsym _ h), fun c h => if_neg (hsym _ h),
    fun n d h => if_neg (hbyte _ h), fun n d h => if_neg (hbyte _ h), fun d h => if_neg (hbyte _ h),
    fun n d h => if_neg (hbyte _ h), fun h => if_neg h, fun h => if_neg fun hr => ?bit,
    fun h => if_neg fun hr => ?finish⟩
  case bit =>
    simp only [hasBit, Bool.and_eq_true, beq_iff_eq, bne_iff_ne] at hr
    exact h.elim (· hr.1) hr.2
  case finish =>
    simp only [exhausted, Bool.and_eq_true, beq_iff_eq] at hr
    obtain ⟨hp, h0, he⟩ := hr
    rcases h with h | h | h
    · exact h hp
    · exact h h0
    · exact absurd he (ne_true_of_eq_false h)

/-- Every register of the reset state reads 0 but ID. -/
theorem registerWord_reset (idx : RegIndex) :
    registerWord idx State.reset = if idx = 0x00 then 0x48554601 else 0 := by
  revert idx
  decide

/-- Settles O54: reads in IDLE, their words by `registerWord_reset`. -/
theorem resetStateReadsZero : Obligations.ResetStateReadsZero := by
  unfold Obligations.ResetStateReadsZero
  exact ⟨rfl, rfl, fun idx => ⟨_, exec_regRd idx State.reset fun _ => by decide,
    registerWord_reset idx⟩⟩

/-- Settles O55: arrays, packer, unpacker, traces and record are empty, the flags clear, no phase
runs. -/
theorem resetMeetsTheInvariants : Obligations.ResetMeetsTheInvariants := by
  unfold Obligations.ResetMeetsTheInvariants
  refine ⟨arraysOk_of_table_nil Memory.wf_nil Memory.wf_nil rfl, ?datapath, ?record, ?coherent,
    nofun⟩
  case datapath =>
    exact ⟨fun _ _ => BitVec.getLsbD_zero, Nat.zero_le 8, fun _ => ⟨rfl, rfl⟩,
      fun _ => ⟨rfl, rfl, rfl⟩, nofun, nofun⟩
  case record => exact ⟨fun _ => ⟨rfl, rfl⟩, fun h => absurd rfl h, fun _ => rfl⟩
  case coherent =>
    exact ⟨rfl, fun _ => ⟨rfl, rfl, rfl⟩, nofun, nofun, by rintro (h | h) <;> cases h⟩

end Sys2Proof.Machine
end
